-- ==== Sys2Proof/Word.lean ====
section
/-! DEFINITION. The words of the engine (bytes, 7-, 16- and 32-bit values) and the plain types that operands are
made of: decode states, payload field types, operation arguments. -/

namespace Sys2Proof

/-- A byte, bit 7 the most significant (00_scope.md R8). -/
abbrev Byte := BitVec 8

/-- The width of `D_REMAIN`, `TX_LEN` and `RESP_LEN` (10_state.md R11, R25, R28). -/
abbrev U7 := BitVec 7

/-- A 32-bit value: the millisecond clock (`W_TIME` = 32, D8) or a `b32le` field (30_encoding.md R66). -/
abbrev U32 := BitVec 32

/-- The eight decode states in the order the spec lists them (10_state.md R10). -/
inductive DState where
  | sync0 | sync1 | dest | src | cmd | len | data | chk
  deriving DecidableEq, Repr

/-- A field of a payload shape (30_encoding.md R66). -/
inductive FieldType where
  | u8
  | u16le
  | i16le
  | b32le
  /-- `bytes(n)` with a fixed `n`. -/
  | bytes (n : Nat)
  /-- `bytes(n)` whose `n` the operation supplies: the whole argument, or all bytes left (44_command_catalogue.md R191;
  DEDUCED, log 17). -/
  | rest
  /-- Bit-packed flags in `n` bytes, flag `i` at bit `positions[i]` of the field. The spec leaves the positions to the command
  and gives no pack form: bit `p` of the field is bit `p mod 8` of its byte `p div 8` (DESIGN CHOICE, log 44). -/
  | flags (n : Nat) (positions : List Nat)
  deriving DecidableEq, Repr

/-- An argument of a catalogue operation: a number, of which a field takes the low bits it needs, a byte sequence, or flags in
the order of their field's positions (44_command_catalogue.md R181; log 15, log 44). -/
inductive Arg where
  | num (v : U32)
  | bytes (b : List Byte)
  | flags (b : List Bool)
  deriving DecidableEq, Repr

/-- The pure functions that have a row of the opcode table (30_encoding.md R80). -/
inductive Fn where
  | lrc | chkOk | encode | pack | unpack
  deriving DecidableEq, Repr

end Sys2Proof
end

