-- ==== Sys2Proof/Config.lean ====
section
/-! DEFINITION. What one instance of the engine fixes at construction (00_scope.md R5, R6), and the free values and
open parameters no rule fixes. -/

namespace Sys2Proof

/-- The protocol kind `CFG_PROTO` (10_state.md R30). -/
inductive Proto where
  | uart
  | bus
  deriving DecidableEq, Repr

/-- The response shape of a descriptor: typed fields, or the repeated unit (target, current) of
44_command_catalogue.md R185, each of the two values signed (`i16le`) or not (`u16le`). -/
inductive RespShape where
  | fields (fs : List FieldType)
  | units (targetSigned currentSigned : Bool)
  deriving DecidableEq, Repr

/-- A command descriptor (44_command_catalogue.md R180). -/
structure Descriptor where
  cmd : Byte
  req : List FieldType
  resp : RespShape
  respCap : Byte
  echo : Bool
  deriving DecidableEq, Repr

/-- `PID_FORMAT` (44_command_catalogue.md R193; D24): the 32 raw bits of a PID term are a fixed-point integer with an open scale, or a
floating-point number. -/
inductive PidFormat where
  | fixed (scale : Rat)
  | float
  deriving DecidableEq, Repr

/-- The sub-commands of `CUSTOM` in the order the document names them, which is no bit order (44_command_catalogue.md R191). -/
inductive SubCommand where
  | setSpeed | setPosition | setAngle | getPosition | getAngle | getCurrent | getForce | getStatus
  deriving DecidableEq, Repr

/-- `CUSTOM_LAYOUT` (44_command_catalogue.md R191; D37): where the flag field stands in the request and its size, the bit of each flag,
and the data each selected sub-command has in the request and in the response, each list in the order of `SubCommand`. -/
structure CustomLayout where
  flagsAt : Nat
  flagsSize : Nat
  flagBits : Vector Nat 8
  requestData : Vector (List FieldType) 8
  responseData : Vector (List FieldType) 8
  deriving DecidableEq, Repr

/-- The construction parameters of one driver instance (00_scope.md R5, R6; 70_reset_and_hazards.md R262). They never
change after construction (10_state.md R30). -/
structure Construction where
  proto : Proto
  localAddr : Byte
  timeoutInit : U32
  capSend : Bool
  capNow : Bool
  capDelay : Bool
  capPump : Bool
  /-- `BROADCAST_ADDR`, open in the spec (D16). -/
  broadcastAddr : Byte
  /-- The entries of `COMMAND_TABLE` beside the two the spec fixes (D21); their indexes begin at 2 (log 14). -/
  moreDescriptors : List Descriptor
  /-- `LOCAL_CODE`: the numeric codes of the thirteen results in the order of 60_exceptions.md R220, open (D17, U19). -/
  localCode : Vector Int 13
  /-- `PID_FORMAT`, open (D24). The engine carries the bits and no rule reads it (log 41). -/
  pidFormat : PidFormat
  /-- `CUSTOM_LAYOUT`, open (D37); `none` where the host keeps the layout to itself (log 41). -/
  customLayout : Option CustomLayout
  /-- The injected clock and the injected delay agree (43_transaction.md R151; log 45). -/
  clockAgrees : Bool
  deriving DecidableEq, Repr

/-- `LOCAL_CODE` is injective (D17). -/
def Construction.codesDistinct (c : Construction) : Bool := decide c.localCode.toList.Nodup

/-- The instance that `State.reset` constructs. DESIGN CHOICE (log 6): the configuration of 95_test_vectors.md,
and a value for each parameter the spec leaves open. -/
def Config.resetConstruction : Construction where
  proto := .uart
  localAddr := 0x01
  timeoutInit := 100
  capSend := true
  capNow := true
  capDelay := true
  capPump := true
  broadcastAddr := 0xFF
  moreDescriptors := []
  localCode := #v[0, 1, 2, 3, 4, 5, 6, 7, 8, 9, 10, 11, 12]
  pidFormat := .fixed 1
  customLayout := none
  clockAgrees := true

/-- The free values: `Config.freeNat k` is the `k`-th value drawn. Nothing constrains it (70_reset_and_hazards.md R261;
93_implementation_defined.md "any value"; log 8, log 10). -/
opaque Config.freeNat : Nat → Nat

/-- The `k`-th free byte. -/
def Config.freeByte (k : Nat) : Byte := BitVec.ofNat 8 (Config.freeNat k)

/-- `MAX_MOTORS`, open (44_command_catalogue.md R195; no rule reads it, log 41). -/
opaque Config.maxMotors : Nat

/-- `MAX_THUMB_ROOT_POS`, open (44_command_catalogue.md R195; no rule reads it, log 41). -/
opaque Config.maxThumbRootPos : Nat

/-- `MAX_FORCE_ENTRIES`, open (44_command_catalogue.md R195; no rule reads it, log 41). -/
opaque Config.maxForceEntries : Nat

end Sys2Proof
end

