-- ==== Sys2Proof/Syntax.lean ====
section
/-! DEFINITION. The operations, events, table rows and pure functions of the engine: one constructor per row of
spec/opcode_table.json (30_encoding.md R80). The payload length `n` of a row is the length of its payload (log 36).
`now` is the sample of `now_ms` the event takes (10_state.md R32; log 5). -/

namespace Sys2Proof

inductive Instr where
  -- Host operations on the command port (30_encoding.md R80)
  | send (dest cmd : Byte) (payload : List Byte)
  | recv (dest cmd : Byte) (timeoutMs : U32) (hasBuf : Bool) (cap : Byte) (now : U32)
  | xfer (dest cmd : Byte) (payload : List Byte) (hasBuf : Bool) (cap : Byte)
  | setTimeout (timeoutMs : U32)
  | cat (desc dest motorCap : Byte) (args : List Arg)
  | reservedOp5
  | reservedOp6
  | reservedOp7
  -- Events of the other agents (00_scope.md R7)
  | feed (b : Byte)
  | txdone (ok : Bool) (now : U32)
  | poll (now : U32)
  | reset
  -- FEED dispatch rows, selected by DSTATE (42_frame_decoder.md R111, R121)
  | feedSync0Hit
  | feedSync0Miss (b : Byte)
  | feedSync1Hit
  | feedSync1Miss (b : Byte)
  | feedDest (b : Byte)
  | feedSrc (b : Byte)
  | feedCmd (b : Byte)
  | feedLenZero
  | feedLenAccept (b : Byte)
  | feedLenOver (b : Byte)
  | feedData (b : Byte)
  | feedChk (b : Byte)
  -- Command ids fixed individually (30_encoding.md R71) and the error bit (R72)
  | getProtocolVersion (dest : Byte)
  | custom (dest : Byte) (payload : List Byte)
  | errorResponse (cmd : Byte)
  -- Command id classes (30_encoding.md R70)
  | classGet (cmd dest : Byte) (payload : List Byte) (hasBuf : Bool) (cap : Byte)
  | classAuxGet20 (cmd dest : Byte) (payload : List Byte) (hasBuf : Bool) (cap : Byte)
  | classAuxGet24 (cmd dest : Byte) (payload : List Byte) (hasBuf : Bool) (cap : Byte)
  | unassigned26 (cmd dest : Byte) (payload : List Byte) (hasBuf : Bool) (cap : Byte)
  | classSet40 (cmd dest : Byte) (payload : List Byte) (hasBuf : Bool) (cap : Byte)
  | classSet50 (cmd dest : Byte) (payload : List Byte) (hasBuf : Bool) (cap : Byte)
  | classSet54 (dest : Byte) (payload : List Byte) (hasBuf : Bool) (cap : Byte)
  | unassigned55 (cmd dest : Byte) (payload : List Byte) (hasBuf : Bool) (cap : Byte)
  | classAuxSet60 (cmd dest : Byte) (payload : List Byte) (hasBuf : Bool) (cap : Byte)
  | classAuxSet64 (dest : Byte) (payload : List Byte) (hasBuf : Bool) (cap : Byte)
  | unassigned65 (cmd dest : Byte) (payload : List Byte) (hasBuf : Bool) (cap : Byte)
  -- Device error codes (30_encoding.md R73)
  | deverrWrongChecksum
  | deverrInvalidCommand
  | deverrInvalidByteCount
  | deverrInvalidData
  | deverrDeviceNotInitialized
  | deverrDeviceCalibrating
  | deverrMotorStuck
  | deverrOperationFailed
  | deverrSaveFailed
  -- Pure functions (30_encoding.md R80)
  | lrc (bytes : List Byte)
  | chkOk
  | encode (dest cmd : Byte) (payload : List Byte)
  | pack (shape : List FieldType) (args : List Arg)
  | unpack (shape : List FieldType)
  deriving DecidableEq, Repr

end Sys2Proof
end

