-- ==== Sys2Proof/WellFormed.lean ====
section
/-! DEFINITION. Which operands a row of the table admits: payloads of at most 255 bytes (`n: 0..255`), command ids inside
the row's range, fed bytes that satisfy the row's condition. -/

namespace Sys2Proof

/-- A byte sequence whose length a count byte can carry. -/
def countable {α : Type} (l : List α) : Bool := decide (l.length ≤ 255)

/-- `lo ≤ b ≤ hi` as unsigned numbers. -/
def inRange (lo hi b : Byte) : Bool := lo.ule b && b.ule hi

/-- A byte-sequence argument has at most 255 bytes, a flags argument at most 255 flags. -/
def Arg.wf : Arg → Bool
  | .num _ => true
  | .bytes b => countable b
  | .flags b => countable b

/-- A flag field has at least one byte (30_encoding.md R66), and its flags stand at different bits of it (log 44). -/
def FieldType.flagsOk : FieldType → Bool
  | .flags n ps => decide (1 ≤ n) && ps.all (fun p => decide (p < 8 * n)) && decide ps.Nodup
  | _ => true

/-- The size of a `bytes(n)` or flag field fits one byte, and a flag field is one `FieldType.flagsOk` admits. -/
def FieldType.wf : FieldType → Bool
  | .bytes n => decide (n ≤ 255)
  | .flags n ps => decide (n ≤ 255) && countable ps && (FieldType.flags n ps).flagsOk
  | _ => true

/-- The operands are ones the row of spec/opcode_table.json admits. -/
def Instr.wf : Instr → Bool
  | .send _ _ p => countable p
  | .recv _ _ _ _ _ _ => true
  | .xfer _ _ p _ _ => countable p
  | .setTimeout _ => true
  | .cat _ _ _ args => countable args && args.all Arg.wf
  | .reservedOp5 => true
  | .reservedOp6 => true
  | .reservedOp7 => true
  | .feed _ => true
  | .txdone _ _ => true
  | .poll _ => true
  | .reset => true
  | .feedSync0Hit => true
  | .feedSync0Miss b => b != 0x55
  | .feedSync1Hit => true
  | .feedSync1Miss b => b != 0xAA
  | .feedDest _ => true
  | .feedSrc _ => true
  | .feedCmd _ => true
  | .feedLenZero => true
  | .feedLenAccept b => inRange 0x01 0x40 b
  | .feedLenOver b => inRange 0x41 0xFF b
  | .feedData _ => true
  | .feedChk _ => true
  | .getProtocolVersion _ => true
  | .custom _ p => countable p
  | .errorResponse cmd => inRange 0x80 0xFF cmd
  | .classGet cmd _ p _ _ => inRange 0x01 0x1F cmd && countable p
  | .classAuxGet20 cmd _ p _ _ => inRange 0x20 0x23 cmd && countable p
  | .classAuxGet24 cmd _ p _ _ => inRange 0x24 0x25 cmd && countable p
  | .unassigned26 cmd _ p _ _ => inRange 0x26 0x3F cmd && countable p
  | .classSet40 cmd _ p _ _ => inRange 0x40 0x4F cmd && countable p
  | .classSet50 cmd _ p _ _ => inRange 0x50 0x53 cmd && countable p
  | .classSet54 _ p _ _ => countable p
  | .unassigned55 cmd _ p _ _ => inRange 0x55 0x5E cmd && countable p
  | .classAuxSet60 cmd _ p _ _ => inRange 0x60 0x63 cmd && countable p
  | .classAuxSet64 _ p _ _ => countable p
  | .unassigned65 cmd _ p _ _ => inRange 0x65 0x7F cmd && countable p
  | .deverrWrongChecksum => true
  | .deverrInvalidCommand => true
  | .deverrInvalidByteCount => true
  | .deverrInvalidData => true
  | .deverrDeviceNotInitialized => true
  | .deverrDeviceCalibrating => true
  | .deverrMotorStuck => true
  | .deverrOperationFailed => true
  | .deverrSaveFailed => true
  | .lrc _ => true
  | .chkOk => true
  | .encode _ _ p => countable p
  | .pack shape args => countable shape && shape.all FieldType.wf && countable args && args.all Arg.wf
  | .unpack shape => countable shape && shape.all FieldType.wf

end Sys2Proof
end

