-- ==== Sys2Proof/Decode.lean ====
section
/-! DEFINITION. Ports, the decoder from the bytes presented at a port to an instruction, total and rejecting by name,
and the encoder. Operation codes, row selection, command ids and device error codes are the spec's (30_encoding.md R70,
R71, R73, R80; 42_frame_decoder.md R121); the layout of operands after them is the model's (DESIGN CHOICE, log 25). -/

namespace Sys2Proof

/-- Where an input arrives (60_exceptions.md R240), and, for the rows of the opcode table that are no operation of a port,
which of the table's formats a word is read in (log 25). -/
inductive Port where
  /-- Host operations: the 3-bit operation code, then its operands. -/
  | command
  /-- `FEED(b)`. -/
  | receive
  /-- `TXDONE(ok)`. -/
  | transmit
  /-- `POLL@now`. -/
  | poll
  /-- `delay_done`: the delay asked for is over (60_exceptions.md R240, R243). It is no instruction. -/
  | delay
  | reset
  /-- The FEED dispatch rows of one decode state. -/
  | feedRow (d : DState)
  /-- The rows of FRAME.command_id. -/
  | commandId
  /-- The rows of ERROR_RESPONSE.payload[0]. -/
  | deviceError
  /-- The pure functions. -/
  | function (f : Fn)
  deriving DecidableEq, Repr

/-- One input presented to the engine: the port and the bytes on it. -/
structure Input where
  port : Port
  bytes : List Byte
  deriving DecidableEq, Repr

/-- Why the decoder rejects the bytes at a port. -/
inductive Reject where
  /-- The bytes end before the operands do. -/
  | truncated
  /-- A boolean operand byte is neither 0 nor 1. -/
  | badBool
  /-- The first byte on the command port is above 7, no 3-bit operation code. -/
  | badOpByte
  /-- The tag of an argument is none of the model's three. -/
  | badArgTag
  /-- The tag of a field type is none of the model's seven. -/
  | badFieldTag
  /-- A flag field has no byte, or two flags at one bit or a flag outside its bytes. -/
  | badFlagField
  /-- The port carries no instruction: the end of a delay, which `step` takes itself. -/
  | noInstruction
  /-- The code has no row among the nine device error codes. -/
  | noDeviceErrorRow
  deriving DecidableEq, Repr

/-! ### Byte order helpers (00_scope.md R8, 20_memory.md R42) -/

/-- `le16(lo, hi)`. -/
def le16 (lo hi : Byte) : BitVec 16 := hi ++ lo

/-- `le32(b0, b1, b2, b3)`. -/
def le32 (b0 b1 b2 b3 : Byte) : U32 := b3 ++ b2 ++ b1 ++ b0

/-- Byte `k` of a 32-bit value, byte 0 the least significant. -/
def byteOf (v : U32) (k : Nat) : Byte := v.extractLsb' (8 * k) 8

/-- The four bytes of a 32-bit value, least significant first. -/
def bytes32 (v : U32) : List Byte := [byteOf v 0, byteOf v 1, byteOf v 2, byteOf v 3]

/-- A length as its count byte. -/
def countByte (n : Nat) : Byte := BitVec.ofNat 8 n

/-- A boolean as an operand byte. -/
def boolByte (b : Bool) : Byte := if b then 1 else 0

/-- A bit position of a flag field, low byte first. -/
def bytes16 (n : Nat) : List Byte := [countByte n, countByte (n / 256)]

/-! ### Reading operands -/

/-- What reading an operand from a byte list gives: the operand and the bytes after it, or why not. -/
abbrev Read (α : Type) := Except Reject (α × List Byte)

/-- One reading after another, stopping at the first rejection. -/
def readThen {α β : Type} (x : Read α) (f : α → List Byte → Read β) : Read β :=
  match x with
  | .ok (a, r) => f a r
  | .error e => .error e

def readByte : List Byte → Read Byte
  | b :: r => .ok (b, r)
  | [] => .error .truncated

def readBool : List Byte → Read Bool
  | b :: r => if b = 0 then .ok (false, r) else if b = 1 then .ok (true, r) else .error .badBool
  | [] => .error .truncated

def readU32 : List Byte → Read U32
  | b0 :: b1 :: b2 :: b3 :: r => .ok (le32 b0 b1 b2 b3, r)
  | _ => .error .truncated

def readBytes (n : Nat) (bs : List Byte) : Read (List Byte) :=
  if n ≤ bs.length then .ok (bs.take n, bs.drop n) else .error .truncated

/-- A count byte, then that many bytes. -/
def readCounted : List Byte → Read (List Byte)
  | n :: r => readBytes n.toNat r
  | [] => .error .truncated

def readU16 : List Byte → Read Nat
  | lo :: hi :: r => .ok ((le16 lo hi).toNat, r)
  | _ => .error .truncated

/-- `n` items, one after the other. -/
def readMany {α : Type} (item : List Byte → Read α) : Nat → List Byte → Read (List α)
  | 0, bs => .ok ([], bs)
  | n + 1, bs =>
    match item bs with
    | .error e => .error e
    | .ok (a, r) =>
      match readMany item n r with
      | .error e => .error e
      | .ok (as, r') => .ok (a :: as, r')

/-- A count byte, then that many items. -/
def readCountedItems {α : Type} (item : List Byte → Read α) : List Byte → Read (List α)
  | n :: r => readMany item n.toNat r
  | [] => .error .truncated

def readArg : List Byte → Read Arg
  | t :: r =>
    if t = 0 then
      match readU32 r with
      | .ok (v, r') => .ok (.num v, r')
      | .error e => .error e
    else if t = 1 then
      match readCounted r with
      | .ok (b, r') => .ok (.bytes b, r')
      | .error e => .error e
    else if t = 2 then
      match readCountedItems readBool r with
      | .ok (b, r') => .ok (.flags b, r')
      | .error e => .error e
    else .error .badArgTag
  | [] => .error .truncated

def readField : List Byte → Read FieldType
  | t :: r =>
    if t = 0 then .ok (.u8, r)
    else if t = 1 then .ok (.u16le, r)
    else if t = 2 then .ok (.i16le, r)
    else if t = 3 then .ok (.b32le, r)
    else if t = 4 then
      match readByte r with
      | .ok (n, r') => .ok (.bytes n.toNat, r')
      | .error e => .error e
    else if t = 5 then .ok (.rest, r)
    else if t = 6 then
      readThen (readByte r) fun n r' =>
      readThen (readCountedItems readU16 r') fun ps r'' =>
      if (FieldType.flags n.toNat ps).wf then .ok (.flags n.toNat ps, r'') else .error .badFlagField
    else .error .badFieldTag
  | [] => .error .truncated

/-- `dest`, `cmd`, counted payload. -/
def readHeader (bs : List Byte) : Read (Byte × Byte × List Byte) :=
  readThen (readByte bs) fun dest r =>
  readThen (readByte r) fun cmd r =>
  readThen (readCounted r) fun p r =>
  .ok ((dest, cmd, p), r)

/-- `dest`, counted payload, `has_buf`, `cap`: the operands of a transaction after its command id. -/
def readTransaction (bs : List Byte) : Read (Byte × List Byte × Bool × Byte) :=
  readThen (readByte bs) fun dest r =>
  readThen (readCounted r) fun p r =>
  readThen (readBool r) fun hasBuf r =>
  readThen (readByte r) fun cap r =>
  .ok ((dest, p, hasBuf, cap), r)

/-! ### The decoder -/

/-- A host operation after its operation code `op` (30_encoding.md R80). -/
def decodeCommand (op : Byte) (bs : List Byte) : Read Instr :=
  if op = 0 then
    readThen (readHeader bs) fun (dest, cmd, p) r =>
    .ok (.send dest cmd p, r)
  else if op = 1 then
    readThen (readByte bs) fun dest r =>
    readThen (readByte r) fun cmd r =>
    readThen (readU32 r) fun timeoutMs r =>
    readThen (readBool r) fun hasBuf r =>
    readThen (readByte r) fun cap r =>
    readThen (readU32 r) fun now r =>
    .ok (.recv dest cmd timeoutMs hasBuf cap now, r)
  else if op = 2 then
    readThen (readHeader bs) fun (dest, cmd, p) r =>
    readThen (readBool r) fun hasBuf r =>
    readThen (readByte r) fun cap r =>
    .ok (.xfer dest cmd p hasBuf cap, r)
  else if op = 3 then
    readThen (readU32 bs) fun timeoutMs r =>
    .ok (.setTimeout timeoutMs, r)
  else if op = 4 then
    readThen (readByte bs) fun desc r =>
    readThen (readByte r) fun dest r =>
    readThen (readByte r) fun motorCap r =>
    readThen (readCountedItems readArg r) fun args r =>
    .ok (.cat desc dest motorCap args, r)
  else if op = 5 then .ok (.reservedOp5, bs)
  else if op = 6 then .ok (.reservedOp6, bs)
  else if op = 7 then .ok (.reservedOp7, bs)
  else .error .badOpByte

/-- The FEED dispatch row that decode state `d` and byte `b` select (42_frame_decoder.md R121). -/
def feedRowOf (d : DState) (b : Byte) : Instr :=
  match d with
  | .sync0 => if b = 0x55 then .feedSync0Hit else .feedSync0Miss b
  | .sync1 => if b = 0xAA then .feedSync1Hit else .feedSync1Miss b
  | .dest => .feedDest b
  | .src => .feedSrc b
  | .cmd => .feedCmd b
  | .len => if b = 0 then .feedLenZero else if inRange 0x01 0x40 b then .feedLenAccept b else .feedLenOver b
  | .data => .feedData b
  | .chk => .feedChk b

/-- The transaction of a command id that no exact row fixes: the class of the id (30_encoding.md R70). -/
def classRow (cmd dest : Byte) (p : List Byte) (hasBuf : Bool) (cap : Byte) : Instr :=
  if inRange 0x00 0x1F cmd then .classGet cmd dest p hasBuf cap
  else if inRange 0x20 0x23 cmd then .classAuxGet20 cmd dest p hasBuf cap
  else if inRange 0x24 0x25 cmd then .classAuxGet24 cmd dest p hasBuf cap
  else if inRange 0x26 0x3F cmd then .unassigned26 cmd dest p hasBuf cap
  else if inRange 0x40 0x4F cmd then .classSet40 cmd dest p hasBuf cap
  else if inRange 0x50 0x53 cmd then .classSet50 cmd dest p hasBuf cap
  else if cmd = 0x54 then .classSet54 dest p hasBuf cap
  else if inRange 0x55 0x5E cmd then .unassigned55 cmd dest p hasBuf cap
  else if inRange 0x60 0x63 cmd then .classAuxSet60 cmd dest p hasBuf cap
  else if cmd = 0x64 then .classAuxSet64 dest p hasBuf cap
  else .unassigned65 cmd dest p hasBuf cap

/-- The row of a `command_id` byte: the error bit, the two ids fixed individually, the class (30_encoding.md R70 to R72; an
exact row goes before a class). -/
def decodeCommandId (cmd : Byte) (bs : List Byte) : Read Instr :=
  if inRange 0x80 0xFF cmd then .ok (.errorResponse cmd, bs)
  else if cmd = 0x00 then
    readThen (readByte bs) fun dest r =>
    .ok (.getProtocolVersion dest, r)
  else if cmd = 0x5F then
    readThen (readByte bs) fun dest r =>
    readThen (readCounted r) fun p r =>
    .ok (.custom dest p, r)
  else
    readThen (readTransaction bs) fun (dest, p, hasBuf, cap) r =>
    .ok (classRow cmd dest p hasBuf cap, r)

/-- The row of a device error code (30_encoding.md R73). -/
def deviceErrorRowOf (code : Byte) : Option Instr :=
  if code = 0x01 then some .deverrWrongChecksum
  else if code = 0x11 then some .deverrInvalidCommand
  else if code = 0x12 then some .deverrInvalidByteCount
  else if code = 0x13 then some .deverrInvalidData
  else if code = 0x21 then some .deverrDeviceNotInitialized
  else if code = 0x22 then some .deverrDeviceCalibrating
  else if code = 0x23 then some .deverrMotorStuck
  else if code = 0x31 then some .deverrOperationFailed
  else if code = 0x32 then some .deverrSaveFailed
  else none

/-- A pure function and its operands; `LRC` takes all the bytes there are. -/
def decodeFunction (f : Fn) (bs : List Byte) : Read Instr :=
  match f with
  | .lrc => .ok (.lrc bs, [])
  | .chkOk => .ok (.chkOk, bs)
  | .encode =>
    readThen (readHeader bs) fun (dest, cmd, p) r =>
    .ok (.encode dest cmd p, r)
  | .pack =>
    readThen (readCountedItems readField bs) fun shape r =>
    readThen (readCountedItems readArg r) fun args r =>
    .ok (.pack shape args, r)
  | .unpack =>
    readThen (readCountedItems readField bs) fun shape r =>
    .ok (.unpack shape, r)

/-- The decoder: the instruction the bytes at a port stand for and the bytes after it, or why there is none. -/
def decode (port : Port) (bs : List Byte) : Read Instr :=
  match port with
  | .command =>
    readThen (readByte bs) fun op r =>
    decodeCommand op r
  | .receive =>
    readThen (readByte bs) fun b r =>
    .ok (.feed b, r)
  | .transmit =>
    readThen (readBool bs) fun ok r =>
    readThen (readU32 r) fun now r =>
    .ok (.txdone ok now, r)
  | .poll =>
    readThen (readU32 bs) fun now r =>
    .ok (.poll now, r)
  | .delay => .error .noInstruction
  | .reset => .ok (.reset, bs)
  | .feedRow d =>
    readThen (readByte bs) fun b r =>
    .ok (feedRowOf d b, r)
  | .commandId =>
    readThen (readByte bs) fun cmd r =>
    decodeCommandId cmd r
  | .deviceError =>
    readThen (readByte bs) fun code r =>
    match deviceErrorRowOf code with
    | some i => .ok (i, r)
    | none => .error .noDeviceErrorRow
  | .function f => decodeFunction f bs

/-- The instruction an input stands for; bytes after its operands are not looked at. -/
def Input.decode (e : Input) : Except Reject Instr :=
  match Sys2Proof.decode e.port e.bytes with
  | .ok (i, _) => .ok i
  | .error r => .error r

/-! ### The encoder -/

def encodeCounted (b : List Byte) : List Byte := countByte b.length :: b

def encodeItems {α : Type} (item : α → List Byte) (l : List α) : List Byte := countByte l.length :: l.flatMap item

def encodeArg : Arg → List Byte
  | .num v => 0 :: bytes32 v
  | .bytes b => 1 :: encodeCounted b
  | .flags b => 2 :: encodeItems (fun x => [boolByte x]) b

def encodeField : FieldType → List Byte
  | .u8 => [0]
  | .u16le => [1]
  | .i16le => [2]
  | .b32le => [3]
  | .bytes n => [4, countByte n]
  | .rest => [5]
  | .flags n ps => 6 :: countByte n :: encodeItems bytes16 ps

def encodeTransaction (cmd dest : Byte) (p : List Byte) (hasBuf : Bool) (cap : Byte) : List Byte :=
  cmd :: dest :: encodeCounted p ++ [boolByte hasBuf, cap]

/-- The port at which an instruction is presented. -/
def Instr.port : Instr → Port
  | .send _ _ _ => .command
  | .recv _ _ _ _ _ _ => .command
  | .xfer _ _ _ _ _ => .command
  | .setTimeout _ => .command
  | .cat _ _ _ _ => .command
  | .reservedOp5 => .command
  | .reservedOp6 => .command
  | .reservedOp7 => .command
  | .feed _ => .receive
  | .txdone _ _ => .transmit
  | .poll _ => .poll
  | .reset => .reset
  | .feedSync0Hit => .feedRow .sync0
  | .feedSync0Miss _ => .feedRow .sync0
  | .feedSync1Hit => .feedRow .sync1
  | .feedSync1Miss _ => .feedRow .sync1
  | .feedDest _ => .feedRow .dest
  | .feedSrc _ => .feedRow .src
  | .feedCmd _ => .feedRow .cmd
  | .feedLenZero => .feedRow .len
  | .feedLenAccept _ => .feedRow .len
  | .feedLenOver _ => .feedRow .len
  | .feedData _ => .feedRow .data
  | .feedChk _ => .feedRow .chk
  | .getProtocolVersion _ => .commandId
  | .custom _ _ => .commandId
  | .errorResponse _ => .commandId
  | .classGet _ _ _ _ _ => .commandId
  | .classAuxGet20 _ _ _ _ _ => .commandId
  | .classAuxGet24 _ _ _ _ _ => .commandId
  | .unassigned26 _ _ _ _ _ => .commandId
  | .classSet40 _ _ _ _ _ => .commandId
  | .classSet50 _ _ _ _ _ => .commandId
  | .classSet54 _ _ _ _ => .commandId
  | .unassigned55 _ _ _ _ _ => .commandId
  | .classAuxSet60 _ _ _ _ _ => .commandId
  | .classAuxSet64 _ _ _ _ => .commandId
  | .unassigned65 _ _ _ _ _ => .commandId
  | .deverrWrongChecksum => .deviceError
  | .deverrInvalidCommand => .deviceError
  | .deverrInvalidByteCount => .deviceError
  | .deverrInvalidData => .deviceError
  | .deverrDeviceNotInitialized => .deviceError
  | .deverrDeviceCalibrating => .deviceError
  | .deverrMotorStuck => .deviceError
  | .deverrOperationFailed => .deviceError
  | .deverrSaveFailed => .deviceError
  | .lrc _ => .function .lrc
  | .chkOk => .function .chkOk
  | .encode _ _ _ => .function .encode
  | .pack _ _ => .function .pack
  | .unpack _ => .function .unpack

/-- The bytes of an instruction at its port. -/
def encode : Instr → List Byte
  | .send dest cmd p => 0 :: dest :: cmd :: encodeCounted p
  | .recv dest cmd timeoutMs hasBuf cap now =>
    1 :: dest :: cmd :: bytes32 timeoutMs ++ boolByte hasBuf :: cap :: bytes32 now
  | .xfer dest cmd p hasBuf cap => 2 :: dest :: cmd :: encodeCounted p ++ [boolByte hasBuf, cap]
  | .setTimeout timeoutMs => 3 :: bytes32 timeoutMs
  | .cat desc dest motorCap args => 4 :: desc :: dest :: motorCap :: encodeItems encodeArg args
  | .reservedOp5 => [5]
  | .reservedOp6 => [6]
  | .reservedOp7 => [7]
  | .feed b => [b]
  | .txdone ok now => boolByte ok :: bytes32 now
  | .poll now => bytes32 now
  | .reset => []
  | .feedSync0Hit => [0x55]
  | .feedSync0Miss b => [b]
  | .feedSync1Hit => [0xAA]
  | .feedSync1Miss b => [b]
  | .feedDest b => [b]
  | .feedSrc b => [b]
  | .feedCmd b => [b]
  | .feedLenZero => [0x00]
  | .feedLenAccept b => [b]
  | .feedLenOver b => [b]
  | .feedData b => [b]
  | .feedChk b => [b]
  | .getProtocolVersion dest => [0x00, dest]
  | .custom dest p => 0x5F :: dest :: encodeCounted p
  | .errorResponse cmd => [cmd]
  | .classGet cmd dest p hasBuf cap => encodeTransaction cmd dest p hasBuf cap
  | .classAuxGet20 cmd dest p hasBuf cap => encodeTransaction cmd dest p hasBuf cap
  | .classAuxGet24 cmd dest p hasBuf cap => encodeTransaction cmd dest p hasBuf cap
  | .unassigned26 cmd dest p hasBuf cap => encodeTransaction cmd dest p hasBuf cap
  | .classSet40 cmd dest p hasBuf cap => encodeTransaction cmd dest p hasBuf cap
  | .classSet50 cmd dest p hasBuf cap => encodeTransaction cmd dest p hasBuf cap
  | .classSet54 dest p hasBuf cap => encodeTransaction 0x54 dest p hasBuf cap
  | .unassigned55 cmd dest p hasBuf cap => encodeTransaction cmd dest p hasBuf cap
  | .classAuxSet60 cmd dest p hasBuf cap => encodeTransaction cmd dest p hasBuf cap
  | .classAuxSet64 dest p hasBuf cap => encodeTransaction 0x64 dest p hasBuf cap
  | .unassigned65 cmd dest p hasBuf cap => encodeTransaction cmd dest p hasBuf cap
  | .deverrWrongChecksum => [0x01]
  | .deverrInvalidCommand => [0x11]
  | .deverrInvalidByteCount => [0x12]
  | .deverrInvalidData => [0x13]
  | .deverrDeviceNotInitialized => [0x21]
  | .deverrDeviceCalibrating => [0x22]
  | .deverrMotorStuck => [0x23]
  | .deverrOperationFailed => [0x31]
  | .deverrSaveFailed => [0x32]
  | .lrc s => s
  | .chkOk => []
  | .encode dest cmd p => dest :: cmd :: encodeCounted p
  | .pack shape args => encodeItems encodeField shape ++ encodeItems encodeArg args
  | .unpack shape => encodeItems encodeField shape

/-! ### The opcode table's words -/

/-- The bytes of a table word, the first byte its bits 7..0. -/
def bytesOfWord : Nat → Nat → List Byte
  | 0, _ => []
  | k + 1, w => BitVec.ofNat 8 w :: bytesOfWord k (w / 256)

/-- The format in which a table word is read. The table's formats overlap (the byte 0x00 is `SEND`, `FEED.S_LEN.zero`,
`GET_PROTOCOL_VERSION` and the first id of `CLASS_GET`), and a word carries no port: the operation codes 0 to 7 go first, then the
device error codes, then the two sync bytes, then the command ids (DESIGN CHOICE, log 26). -/
def tablePort (b : Byte) : Port :=
  if inRange 0 7 b then .command
  else if (deviceErrorRowOf b).isSome then .deviceError
  else if b = 0x55 then .feedRow .sync0
  else if b = 0xAA then .feedRow .sync1
  else .commandId

/-- The input that stands for a table word: at least one byte, then zeros for the operand bytes the table gives no bits. -/
def inputOfWord (nbits w : Nat) : Input where
  port := tablePort (BitVec.ofNat 8 w)
  bytes := bytesOfWord (Nat.max 1 ((nbits + 7) / 8)) w ++ List.replicate 16 0

/-- The instruction the decoder reads from a word numbered as spec/opcode_table.json numbers it. -/
def decodeTableWord (nbits w : Nat) : Option Instr :=
  match (inputOfWord nbits w).decode with
  | .ok i => some i
  | .error _ => none

end Sys2Proof
end

