-- ==== Sys2Proof/Machine/State.lean ====
section
/-! DEFINITION. The state of one engine instance (10_state.md), as plain data, its reset, and the reasons a step can
stop. -/

namespace Sys2Proof.Machine

/-- A byte buffer (20_memory.md R40): (index, byte) pairs, indexes strictly rising. A byte that nothing has written is not
listed and has no value (70_reset_and_hazards.md R261; log 9). -/
abbrev Memory := List Host.Cell

/-- The sequencer state (10_state.md R23). -/
inductive TState where
  | idle | tx | wait
  deriving DecidableEq, Repr

/-- Which host operation is in progress (10_state.md R24). -/
inductive Kind where
  | send | recv | xfer | cat
  deriving DecidableEq, Repr

/-- The thirteen result codes (60_exceptions.md R220), symbolic (D17). -/
inductive Result where
  | success | invalidContext | timerNotSet | dataTooLarge | remoteTransportError | timeout | checksumMismatch | handError
  | unmatchedAddress | unmatchedCommand | outputBufferTooSmall | dataInvalid | sizeTooBig
  deriving DecidableEq, Repr

/-- A value the marshaller delivers (44_command_catalogue.md R182): an integer (`u8`, `u16le`, `i16le`), 32 raw bits, bytes, or flags. -/
inductive Value where
  | num (v : Int)
  | bits (v : U32)
  | bytes (b : List Byte)
  | flags (b : List Bool)
  deriving DecidableEq, Repr

/-- The outputs of a catalogue operation that ended in `Success` (44_command_catalogue.md R183, R185). -/
inductive CatOut where
  | values (vs : List Value)
  | units (count : Nat) (targets currents : List Int)
  deriving DecidableEq, Repr

/-- The value of the last pure function evaluated (log 20). -/
inductive FnOut where
  | lrc (c : Byte)
  | chkOk (ok : Bool)
  | encoded (frame : List Byte)
  | sizeExceeded
  | packed (p : List Byte)
  | unpacked (vs : List Value)
  | dataInvalid
  deriving DecidableEq, Repr

/-- The output strobes the last input gave (60_exceptions.md R223, R240; log 28). `delayReq` carries `delay_ms` while `delay_req` is
given. -/
structure Strobes where
  txReq : Bool
  pump : Bool
  delayReq : Option U32
  done : Bool
  deriving DecidableEq, Repr

/-- No strobe. -/
def Strobes.none : Strobes := ⟨false, false, Option.none, false⟩

/-- Where a waiting `RECV` stands between two polls (43_transaction.md R151, 60_exceptions.md R243): no delay asked for yet; a delay
asked for at the clock value `since` and not over; that delay over. The name is the model's (log 28, log 45). -/
inductive Delay where
  | idle
  | running (since : U32)
  | ended (since : U32)
  deriving DecidableEq, Repr

structure State where
  /-- The construction parameters: `CFG_PROTO`, `CFG_LOCAL_ADDR`, `CAPS` and the open parameters (10_state.md R30). -/
  cons : Construction
  cfgTimeoutMs : U32
  dstate : DState
  dRemain : U7
  rxDest : Byte
  rxSrc : Byte
  rxCmd : Byte
  rxLen : Byte
  rxPayload : Memory
  rxChk : Byte
  frameReady : Bool
  tstate : TState
  tKind : Kind
  tDest : Byte
  tCmd : Byte
  tTimeout : U32
  tStart : U32
  tHasBuf : Bool
  tCap : Byte
  tDesc : Byte
  /-- The finger index of the request, for the echo check (44_command_catalogue.md R184; log 16). -/
  tArg0 : Byte
  /-- The caller's motor capacity (44_command_catalogue.md R185; log 16). -/
  tMotorCap : Byte
  txBuf : Memory
  txLen : U7
  txDest : Byte
  result : Result
  remoteErr : Byte
  respBuf : Memory
  respLen : U7
  catOut : Option CatOut
  strobes : Strobes
  /-- The delay between two polls of a `RECV` (43_transaction.md R151, 60_exceptions.md R243). -/
  delay : Delay
  /-- A `SEND` ended in `Success` and no `RECV` has completed since (70_reset_and_hazards.md R270; log 12). -/
  sendOpen : Bool
  /-- Whether an operation has written `RESULT`, `REMOTE_ERR`, `RESP_LEN` since reset (70_reset_and_hazards.md R261; log 11). -/
  resultWritten : Bool
  remoteErrWritten : Bool
  respWritten : Bool
  fnOut : Option FnOut
  /-- Which free value is drawn next (log 8). -/
  freeCtr : Nat
  /-- The inputs at the ports, in the order they take effect (00_scope.md R7; log 1). -/
  inbox : List Input
  deriving DecidableEq, Repr

/-- Why the machine stops. Both are raised only in states no run reaches (`State.Inv` rules them out); safe. -/
inductive Fault where
  /-- `FEED` in `S_DATA` where `1 <= D_REMAIN <= RX_LEN <= 64` does not hold: the byte would be stored outside `RX_PAYLOAD`
  (42_frame_decoder.md R119; safe, log 31). -/
  | payloadIndexOutOfRange
  /-- The completion of a `RECV`, or the row `CHK_OK` with a frame pending, reads a payload byte, or a `CAT` or the row `UNPACK` a
  response byte, that nothing has written (70_reset_and_hazards.md R261; safe, log 31). -/
  | readsUnwrittenByte
  deriving DecidableEq, Repr

/-- Why an input gets no meaning. -/
inductive Refusal where
  /-- An instruction without a meaning in `exec` (none is left); safe. -/
  | notModelled (mnemonic : String)
  /-- `step`: the bytes at the port are no encoding of an operation; safe (log 25). -/
  | undecodable (why : Reject)
  /-- `SEND` after a `SEND` that ended in `Success` with no `RECV` completed between them
  (70_reset_and_hazards.md R270, 93_implementation_defined.md U1); safe (log 12). -/
  | secondSend
  /-- `CAT` of a descriptor that is not in `COMMAND_TABLE` (93_implementation_defined.md U9); safe (log 14). -/
  | descriptorNotInTable
  deriving DecidableEq, Repr

/-- The result code a draw stands for. -/
def Result.ofDraw (n : Nat) : Result :=
  match n % 13 with
  | 0 => .success | 1 => .invalidContext | 2 => .timerNotSet | 3 => .dataTooLarge | 4 => .remoteTransportError
  | 5 => .timeout | 6 => .checksumMismatch | 7 => .handError | 8 => .unmatchedAddress | 9 => .unmatchedCommand
  | 10 => .outputBufferTooSmall | 11 => .dataInvalid | _ => .sizeTooBig

/-- The operation kind a draw stands for. -/
def Kind.ofDraw (n : Nat) : Kind :=
  match n % 4 with
  | 0 => .send | 1 => .recv | 2 => .xfer | _ => .cat

/-- `INIT` (10_state.md R12). -/
def initialDState : Proto → DState
  | .uart => .sync0
  | .bus => .dest

/-- The instance right after construction (70_reset_and_hazards.md R260). Registers R261 calls unspecified take the values
`draw` gives; no byte of a buffer has a value. The outputs of a `CAT` and of a function, which no rule gives a reset value, hold
nothing: `catOut` and `fnOut` are `none` (DESIGN CHOICE, log 43). -/
def State.construct (c : Construction) (draw : Nat → Nat) : State where
  cons := c
  cfgTimeoutMs := c.timeoutInit
  dstate := initialDState c.proto
  dRemain := 0
  rxDest := BitVec.ofNat 8 (draw 0)
  rxSrc := BitVec.ofNat 8 (draw 1)
  rxCmd := BitVec.ofNat 8 (draw 2)
  rxLen := BitVec.ofNat 8 (draw 3)
  rxPayload := []
  rxChk := BitVec.ofNat 8 (draw 4)
  frameReady := false
  tstate := .idle
  tKind := Kind.ofDraw (draw 5)
  tDest := BitVec.ofNat 8 (draw 6)
  tCmd := BitVec.ofNat 8 (draw 7)
  tTimeout := BitVec.ofNat 32 (draw 8)
  tStart := BitVec.ofNat 32 (draw 9)
  tHasBuf := draw 10 % 2 = 1
  tCap := BitVec.ofNat 8 (draw 11)
  tDesc := BitVec.ofNat 8 (draw 12)
  tArg0 := BitVec.ofNat 8 (draw 13)
  tMotorCap := BitVec.ofNat 8 (draw 14)
  txBuf := []
  txLen := BitVec.ofNat 7 (draw 15)
  txDest := BitVec.ofNat 8 (draw 16)
  result := Result.ofDraw (draw 17)
  remoteErr := BitVec.ofNat 8 (draw 18)
  respBuf := []
  respLen := BitVec.ofNat 7 (draw 19)
  catOut := none
  strobes := Strobes.none
  delay := .idle
  sendOpen := false
  resultWritten := false
  remoteErrWritten := false
  respWritten := false
  fnOut := none
  freeCtr := 0
  inbox := []

/-- How many values a construction draws. -/
def State.constructDraws : Nat := 20

/-- The machine right after reset: the instance of `Config.resetConstruction` (log 6), the unspecified registers zero and
`RESULT` the first code (DESIGN CHOICE, log 7). -/
def State.reset : State := State.construct Config.resetConstruction (fun _ => 0)

end Sys2Proof.Machine
end

