-- ==== Sys2Proof/Machine/Flags.lean ====
section
/-! DEFINITION. The checksum unit (40_checksum.md), the error bit, and the updates of `FRAME_READY`, the pump strobe and the delay
port. -/

namespace Sys2Proof.Machine

/-- `LRC(s)`: the exclusive-or of all bytes, from 0x00 (40_checksum.md R90). -/
def lrc (s : List Byte) : Byte := s.foldl (fun c b => c ^^^ b) 0x00

/-- `CHK_CALC` over the decode buffer with payload bytes `p` (40_checksum.md R92). -/
def chkCalc (s : State) (p : List Byte) : Byte := lrc ([s.rxDest, s.rxSrc, s.rxCmd, s.rxLen] ++ p)

/-- `CHK_OK` (40_checksum.md R92). -/
def chkOk (s : State) (p : List Byte) : Bool := chkCalc s p == s.rxChk

/-- `ERR_BIT` of a command id (30_encoding.md R72). -/
def errBit (cmd : Byte) : Bool := cmd.getLsbD 7

/-- `FRAME_READY <- 0`. -/
def State.clearReady (s : State) : State := { s with frameReady := false }

/-- `FRAME_READY <- 1`. -/
def State.setReady (s : State) : State := { s with frameReady := true }

/-- The pump strobe that begins a poll iteration, given when `CAP_PUMP = 1` (43_transaction.md R151; log 28). -/
def State.strobePump (s : State) : State := { s with strobes := { s.strobes with pump := s.cons.capPump } }

/-- The delay asked for between two polls, `POLL_MS` = 1 (00_scope.md R4). -/
def pollMs : U32 := 1

/-- `delay_req` with `delay_ms = POLL_MS`, after a poll at clock value `now` that did not end the `RECV` (43_transaction.md R151,
60_exceptions.md R243). -/
def State.requestDelay (s : State) (now : U32) : State :=
  { s with strobes := { s.strobes with delayReq := some pollMs }, delay := .running now }

/-- `delay_done`: the delay is over and the next poll iteration begins, with its pump strobe (43_transaction.md R151, 60_exceptions.md R240,
R243). With no delay asked for it changes nothing (log 45). -/
def State.delayOver (s : State) : State :=
  match s.delay with
  | .running since => { s.strobePump with delay := .ended since }
  | .idle => s
  | .ended _ => s

/-- The poll iteration has begun: no delay is running (43_transaction.md R151). -/
def pollDue (s : State) : Bool :=
  match s.delay with
  | .running _ => false
  | .idle => true
  | .ended _ => true

/-- Two polls of one `RECV` are at least `POLL_MS` apart on the clock when the clock and the delay agree (43_transaction.md R151; log 45). -/
def pollSpaced (s : State) (now : U32) : Bool :=
  match s.delay with
  | .ended since => !s.cons.clockAgrees || pollMs.ule (now - since)
  | .idle => true
  | .running _ => true

/-- `POLL` occurs: a `RECV` waits (43_transaction.md R152), its iteration has begun, and the clock is far enough (R151; log 45). -/
def pollEnabled (s : State) (now : U32) : Bool := decide (s.tstate = .wait) && pollDue s && pollSpaced s now

end Sys2Proof.Machine
end

