-- ==== Sys2Proof/Machine/Operands.lean ====
section
/-! DEFINITION. The operand forms of the marshaller (30_encoding.md R66; 44_command_catalogue.md): packing, unpacking, the
repeated unit, the echo check, and the command table. -/

namespace Sys2Proof.Machine

/-- A 16-bit field as an integer: `le16` unsigned, or two's complement when `signed` (30_encoding.md R66). -/
def int16 (signed : Bool) (lo hi : Byte) : Int :=
  if signed then (le16 lo hi).toInt else ((le16 lo hi).toNat : Int)

/-- `n` free bytes, the first drawn at `k`. -/
def freeBytes (k n : Nat) : List Byte := (List.range n).map fun i => Config.freeByte (k + i)

/-- The bytes of a field of this type; the variable-length field has no size of its own (44_command_catalogue.md R182). -/
def fieldSize : FieldType → Nat
  | .u8 => 1
  | .u16le => 2
  | .i16le => 2
  | .b32le => 4
  | .bytes n => n
  | .rest => 0
  | .flags n _ => n

/-- Byte `j` of a field of bit-packed flags: each flag at the bit its position names, a free bit where no flag stands
(30_encoding.md R66; log 44). -/
def flagByte (k : Nat) (positions : List Nat) (flags : List Bool) (j : Nat) : Byte :=
  (BitVec.ofBoolListLE ((List.range 8).map fun i =>
    ((positions.zip flags).lookup (8 * j + i)).getD ((Config.freeByte (k + j)).getLsbD i))).setWidth 8

/-- The flag at bit `p` of a field (30_encoding.md R66; log 44). -/
def flagAt (r : List Byte) (p : Nat) : Bool := (r[p / 8]?.getD 0).getLsbD (p % 8)

/-- The bytes of one field. Where the spec gives them no value they are free, the first drawn at `k`: an argument that is missing or of
another kind, the bytes a byte sequence is short of, the length too of a variable field without its bytes (log 15), the bits of a flag
field that carry no flag (log 44). -/
def packField (k : Nat) : FieldType → Option Arg → List Byte
  | .u8, some (.num v) => [byteOf v 0]
  | .u16le, some (.num v) => [byteOf v 0, byteOf v 1]
  | .i16le, some (.num v) => [byteOf v 0, byteOf v 1]
  | .b32le, some (.num v) => bytes32 v
  | .bytes n, some (.bytes b) => b.take n ++ freeBytes k (n - b.length)
  | .rest, some (.bytes b) => b
  | .flags n positions, some (.flags b) => (List.range n).map (flagByte k positions b)
  | .rest, _ => freeBytes (k + 1) (Config.freeNat k % 256)
  | f, _ => freeBytes k (fieldSize f)

/-- How many free values `packField` may draw. -/
def fieldDraws : FieldType → Option Arg → Nat
  | .u8, some (.num _) => 0
  | .u16le, some (.num _) => 0
  | .i16le, some (.num _) => 0
  | .b32le, some (.num _) => 0
  | .bytes n, some (.bytes b) => n - b.length
  | .rest, some (.bytes _) => 0
  | .rest, _ => 256
  | f, _ => fieldSize f

/-- `PACK(shape, args)` (44_command_catalogue.md R181), its free values drawn from `k` on. Arguments beyond the shape are not looked at. -/
def pack (k : Nat) : List FieldType → List Arg → List Byte
  | [], _ => []
  | f :: fs, args => packField k f args.head? ++ pack (k + fieldDraws f args.head?) fs args.tail

/-- How many free values `pack` may draw. -/
def packDraws : List FieldType → List Arg → Nat
  | [], _ => 0
  | f :: fs, args => fieldDraws f args.head? + packDraws fs args.tail

/-- One field from the front of the response bytes, and the bytes after it; `none` when they are too few. -/
def unpackField : FieldType → List Byte → Option (Value × List Byte)
  | .u8, b :: r => some (.num b.toNat, r)
  | .u16le, lo :: hi :: r => some (.num (int16 false lo hi), r)
  | .i16le, lo :: hi :: r => some (.num (int16 true lo hi), r)
  | .b32le, b0 :: b1 :: b2 :: b3 :: r => some (.bits (le32 b0 b1 b2 b3), r)
  | .bytes n, r => if n ≤ r.length then some (.bytes (r.take n), r.drop n) else none
  | .rest, r => some (.bytes r, [])
  | .flags n positions, r => if n ≤ r.length then some (.flags (positions.map (flagAt r)), r.drop n) else none
  | _, _ => none

/-- `UNPACK(shape, r, m)` on the `m` bytes `r`; `none` is `DataInvalid` (44_command_catalogue.md R182). -/
def unpack : List FieldType → List Byte → Option (List Value)
  | [], _ => some []
  | f :: fs, r =>
    match unpackField f r with
    | none => none
    | some (v, r') =>
      match unpack fs r' with
      | none => none
      | some vs => some (v :: vs)

/-- The (target, current) units of a response; a remainder of 1 to 3 bytes is ignored (44_command_catalogue.md R185). -/
def unitsOf (targetSigned currentSigned : Bool) : List Byte → List (Int × Int)
  | b0 :: b1 :: b2 :: b3 :: r =>
    (int16 targetSigned b0 b1, int16 currentSigned b2 b3) :: unitsOf targetSigned currentSigned r
  | _ => []

/-- The bytes of one unit, `UNIT_ALL` (00_scope.md R4). -/
def unitBytes : Nat := 4

/-- The structural checks and the outputs of a catalogue operation whose `XFER` ended in `Success` with response bytes `r`:
the echo check, then count from length or `UNPACK` (44_command_catalogue.md R184, R185, R186). -/
def catOutcome (d : Descriptor) (arg0 motorCap : Byte) (r : List Byte) : Except Result CatOut :=
  if d.echo && r.head? != some arg0 then .error .dataInvalid
  else
    match d.resp with
    | .units ts cs =>
      if motorCap.toNat < r.length / unitBytes then .error .sizeTooBig
      else .ok (.units (r.length / unitBytes) ((unitsOf ts cs r).map Prod.fst) ((unitsOf ts cs r).map Prod.snd))
    | .fields fs =>
      match unpack fs r with
      | none => .error .dataInvalid
      | some vs => .ok (.values vs)

/-! ### The command table -/

/-- `GET_PROTOCOL_VERSION` (44_command_catalogue.md R190). -/
def versionDescriptor : Descriptor := ⟨0x00, [], .fields [.u8, .u8], 2, false⟩

/-- `CUSTOM` (44_command_catalogue.md R191): opaque bytes both ways. -/
def customDescriptor : Descriptor := ⟨0x5F, [.rest], .fields [.rest], 64, false⟩

/-- `COMMAND_TABLE`: the two descriptors the spec fixes, then those the instance supplies (D21; log 14). -/
def commandTable (c : Construction) : List Descriptor := versionDescriptor :: customDescriptor :: c.moreDescriptors

/-- The id ranges the spec assigns (30_encoding.md R70). -/
def assignedId (cmd : Byte) : Bool :=
  inRange 0x00 0x1F cmd || inRange 0x20 0x25 cmd || inRange 0x40 0x54 cmd || cmd == 0x5F || inRange 0x60 0x64 cmd

/-- The flag fields of a response shape are ones `FieldType.flagsOk` admits. -/
def respFlagsOk : RespShape → Bool
  | .fields fs => fs.all FieldType.flagsOk
  | .units _ _ => true

/-- What a member of `COMMAND_TABLE` must satisfy: an assigned id, a capacity of at most 64, a finger index as request
field 0 where the response echoes it, flag fields whose flags have bits of their own (44_command_catalogue.md R180, R184; D21;
log 14, log 44). -/
def descriptorAdmitted (d : Descriptor) : Bool :=
  assignedId d.cmd && d.respCap.ule 64 && (!d.echo || d.req.head? == some .u8) && d.req.all FieldType.flagsOk &&
    respFlagsOk d.resp

/-- The descriptor of an index; `none` when the table does not hold an admitted one (93_implementation_defined.md U9). -/
def lookupDescriptor (c : Construction) (idx : Byte) : Option Descriptor :=
  match (commandTable c)[idx.toNat]? with
  | some d => if descriptorAdmitted d then some d else none
  | none => none

/-! ### The layout of `CUSTOM`, where the instance supplies one -/

/-- The place of a sub-command in the lists of `CustomLayout`. -/
def subCommandIndex : SubCommand → Fin 8
  | .setSpeed => 0
  | .setPosition => 1
  | .setAngle => 2
  | .getPosition => 3
  | .getAngle => 4
  | .getCurrent => 5
  | .getForce => 6
  | .getStatus => 7

/-- Whether the request payload `p` of a `CUSTOM` selects sub-command `c`; `none` when its flag field is not all there. The engine
carries the bytes and no rule reads this (44_command_catalogue.md R191; log 41). -/
def customSelects (l : CustomLayout) (p : List Byte) (c : SubCommand) : Option Bool :=
  if l.flagsAt + l.flagsSize ≤ p.length then some (flagAt (p.drop l.flagsAt) l.flagBits[subCommandIndex c]) else none

/-- The index of `GET_PROTOCOL_VERSION` in `commandTable`. -/
def versionIndex : Byte := 0

/-- The index of `CUSTOM` in `commandTable`. -/
def customIndex : Byte := 1

end Sys2Proof.Machine
end

