-- ==== Sys2Proof/Machine/Ops.lean ====
section
/-! DEFINITION. The shared operations: buffers, raising a result code, the encoder, the decoder's transitions, the halves of
a transaction and the completion of a receive. -/

namespace Sys2Proof.Machine

/-- What a meaning answers. -/
abbrev Out := Host.Outcome State Fault Refusal

/-! ### Buffers (00_scope.md R8, 20_memory.md R40) -/

/-- `BUF[i]`; `none` when nothing has written it (log 9). -/
def Memory.read : Memory → Nat → Option Byte
  | [], _ => none
  | (k, v) :: m, a => if k = a then some v else Memory.read m a

/-- `BUF[i] <- v`, keeping the indexes strictly rising. -/
def Memory.write : Memory → Nat → Byte → Memory
  | [], a, b => [(a, b)]
  | (k, v) :: m, a, b =>
    if a < k then (a, b) :: (k, v) :: m
    else if a = k then (a, b) :: m
    else (k, v) :: Memory.write m a b

/-- The canonical form: indexes strictly rising. -/
def Memory.wf : Memory → Bool
  | [] => true
  | (k, _) :: m => m.all (fun c => decide (k < c.1)) && Memory.wf m

/-- `MemRead(BUF, i, n)`; `none` when one of the bytes has never been written. -/
def memRead (m : Memory) : Nat → Nat → Option (List Byte)
  | _, 0 => some []
  | i, n + 1 =>
    match m.read i, memRead m (i + 1) n with
    | some b, some r => some (b :: r)
    | _, _ => none

/-- `MemWrite(BUF, i, n, s)` with `n = len(s)`. -/
def memWrite (m : Memory) : Nat → List Byte → Memory
  | _, [] => m
  | i, b :: bs => memWrite (m.write i b) (i + 1) bs

/-- The largest payload the decoder accepts, and the size the encoder refuses: `MAX_PAYLOAD` (00_scope.md R4; C1). -/
def maxPayload : Nat := 64

/-! ### Ending an operation -/

/-- `raise X` (00_scope.md R8, 43_transaction.md R166): `RESULT <- X`, `TSTATE <- T_IDLE`, the `done` indication. The engine's one
counterpart of taking an exception and returning from it (60_exceptions.md R225, R226). -/
def State.raise (s : State) (x : Result) : State :=
  { s with
    result := x, resultWritten := true, tstate := .idle
    strobes := { s.strobes with done := true } }

/-- `raise X` at the end of a `RECV`, alone or half of an `XFER`: the `SEND` before it, if any, has its `RECV` (log 13), and there is no
further poll to wait for. -/
def State.raiseRecv (s : State) (x : Result) : State := { s.raise x with sendOpen := false, delay := .idle }

/-- A host operation is accepted only in `T_IDLE`; otherwise it takes no step (43_transaction.md R140). -/
def whenIdle (s : State) (o : Out) : Out := if s.tstate = .idle then o else .next s

/-! ### The encoder and the send half -/

/-- `ENCODE(dest, cmd, p, n)`; `none` is `SizeExceeded` (41_frame_encoder.md R100, R102). -/
def encodeFrame (c : Construction) (dest cmd : Byte) (p : List Byte) : Option (List Byte) :=
  if maxPayload ≤ p.length then none
  else
    let body := dest :: c.localAddr :: cmd :: BitVec.ofNat 8 p.length :: p
    match c.proto with
    | .uart => some (0x55 :: 0xAA :: (body ++ [lrc body]))
    | .bus => some (body ++ [lrc body])

/-- The clock capabilities are both configured (43_transaction.md R142, R150; D34). -/
def Construction.hasClock (c : Construction) : Bool := c.capNow && c.capDelay

/-- The transmit request of a `SEND` (43_transaction.md R145). -/
def State.transmit (s : State) (dest : Byte) (frame : List Byte) : State :=
  { s with
    txBuf := memWrite s.txBuf 0 frame, txLen := BitVec.ofNat 7 frame.length, txDest := dest, tstate := .tx
    strobes := { s.strobes with txReq := true } }

/-- The checks of `SEND` in their order, then the transmit (43_transaction.md R141 to R145). -/
def State.sendHalf (s : State) (dest cmd : Byte) (p : List Byte) : State :=
  if s.cons.capSend = false then s.raise .invalidContext
  else if Construction.hasClock s.cons = false then s.raise .timerNotSet
  else
    match encodeFrame s.cons dest cmd p with
    | none => s.raise .dataTooLarge
    | some frame => s.transmit dest frame

/-- The operands of a `SEND` latched on acceptance (43_transaction.md R140). -/
def State.latchSend (s : State) (dest cmd : Byte) : State :=
  { s with tKind := .send, tDest := dest, tCmd := cmd }

/-- The operands of an `XFER` latched on acceptance (43_transaction.md R140, R163). -/
def State.latchXfer (s : State) (dest cmd : Byte) (hasBuf : Bool) (cap : Byte) : State :=
  { s with tKind := .xfer, tDest := dest, tCmd := cmd, tHasBuf := hasBuf, tCap := cap }

/-- The operands of a `CAT` latched on acceptance (44_command_catalogue.md R186; log 16). -/
def State.latchCat (s : State) (idx dest : Byte) (d : Descriptor) (arg0 motorCap : Byte) : State :=
  { s with
    tKind := .cat, tDesc := idx, tDest := dest, tCmd := d.cmd, tHasBuf := true, tCap := d.respCap
    tArg0 := arg0, tMotorCap := motorCap }

/-- An accepted `XFER`: its send half (43_transaction.md R163). -/
def State.startXfer (s : State) (dest cmd : Byte) (p : List Byte) (hasBuf : Bool) (cap : Byte) : State :=
  (s.latchXfer dest cmd hasBuf cap).sendHalf dest cmd p

/-- `n` free values drawn (log 8). -/
def State.drawn (s : State) (n : Nat) : State := { s with freeCtr := s.freeCtr + n }

/-- `CAT(d, dest, args)` on acceptance: pack, then the send half of its `XFER` (44_command_catalogue.md R186). Bytes of the request the
arguments do not give are free (log 15). -/
def State.startCat (s : State) (idx dest motorCap : Byte) (args : List Arg) : Out :=
  match lookupDescriptor s.cons idx with
  | none => .refused .descriptorNotInTable
  | some d =>
    let p := pack s.freeCtr d.req args
    .next (((s.drawn (packDraws d.req args)).latchCat idx dest d (p.headD 0) motorCap).sendHalf dest d.cmd p)

/-! ### The receive half -/

/-- The start of a receive phase: `T_TIMEOUT`, `T_START`, `T_WAIT` (43_transaction.md R150); the first poll iteration begins at once, with
its pump strobe (R151). -/
def State.startReceive (s : State) (timeoutMs now : U32) : State :=
  { s with
    tTimeout := timeoutMs, tStart := now, tstate := .wait, delay := .idle
    strobes := { s.strobes with pump := s.cons.capPump } }

/-- `elapsed > T_TIMEOUT` with `elapsed = (now_ms - T_START) mod 2^32` (43_transaction.md R154). -/
def State.timedOut (s : State) (now : U32) : Bool := s.tTimeout.ult (now - s.tStart)

/-- `INIT` of this instance (10_state.md R12). -/
def State.init (s : State) : DState := initialDState s.cons.proto

/-- The time check of a `POLL` (43_transaction.md R154), and the request for the delay before the next one (R151). -/
def State.timeCheck (s : State) (now : U32) : State :=
  if s.timedOut now then { s with dstate := s.init }.raiseRecv .timeout else s.requestDelay now

/-- What `RX_PAYLOAD[0]` gives: its content, or a free value when nothing has written it
(43_transaction.md R157, 93_implementation_defined.md U3; log 10). -/
def State.deviceCode (s : State) : Byte := (s.rxPayload.read 0).getD (Config.freeByte s.freeCtr)

/-- The counter of free values after `deviceCode`. -/
def State.deviceCodeCtr (s : State) : Nat := if (s.rxPayload.read 0).isSome then s.freeCtr else s.freeCtr + 1

/-- The device-error arm (43_transaction.md R157). -/
def State.errorArm (s : State) : State :=
  { s with
    remoteErr := s.deviceCode, remoteErrWritten := true, freeCtr := s.deviceCodeCtr, frameReady := false }.raiseRecv .handError

/-- The copy of the payload to the response buffer (43_transaction.md R161). -/
def State.deliver (s : State) (p : List Byte) : State :=
  if s.tHasBuf then
    { s with respBuf := memWrite s.respBuf 0 p, respLen := BitVec.ofNat 7 s.rxLen.toNat, respWritten := true }
  else s

/-- The end of a `CAT` whose `XFER` has succeeded (44_command_catalogue.md R186). -/
def State.finishCat (s : State) : Out :=
  match lookupDescriptor s.cons s.tDesc with
  | none => .refused .descriptorNotInTable
  | some d =>
    match memRead s.respBuf 0 s.respLen.toNat with
    | none => .fault .readsUnwrittenByte
    | some r =>
      match catOutcome d s.tArg0 s.tMotorCap r with
      | .error x => .next (s.raiseRecv x)
      | .ok out => .next ({ s with catOut := some out }.raiseRecv .success)

/-- The success arm (43_transaction.md R161), and what a `CAT` does after it. -/
def State.successArm (s : State) (p : List Byte) : Out :=
  if s.tKind = .cat then (s.deliver p).clearReady.finishCat
  else .next ((s.deliver p).clearReady.raiseRecv .success)

/-- Checks (c), (d), (e) of a completion and the success arm (43_transaction.md R158 to R161). -/
def State.matchResponse (s : State) (p : List Byte) : Out :=
  if s.rxSrc ≠ s.tDest ∧ s.tDest ≠ s.cons.broadcastAddr then .next (s.clearReady.raiseRecv .unmatchedAddress)
  else if s.rxCmd ≠ s.tCmd then .next (s.clearReady.raiseRecv .unmatchedCommand)
  else if s.tHasBuf = true ∧ s.tCap.toNat < s.rxLen.toNat then .next (s.clearReady.raiseRecv .outputBufferTooSmall)
  else s.successArm p

/-- The completion of a `RECV` on the pending frame, checks (a) to (e) in order (43_transaction.md R155). -/
def State.complete (s : State) : Out :=
  match memRead s.rxPayload 0 s.rxLen.toNat with
  | none => .fault .readsUnwrittenByte
  | some p =>
    if chkOk s p = false then .next (s.raiseRecv .checksumMismatch)
    else if errBit s.rxCmd then .next s.errorArm
    else s.matchResponse p

/-- `RECV` waits, its poll iteration has begun and the pending frame is a good device-error frame: the condition under which a
`POLL` takes the device-error arm (43_transaction.md R151, R152, R155, R157). -/
def State.errorPending (s : State) : Bool :=
  decide (s.tstate = .wait) && pollDue s && s.frameReady && errBit s.rxCmd &&
    (match memRead s.rxPayload 0 s.rxLen.toNat with
      | some p => chkOk s p
      | none => false)

/-- The row of a device error code: the device-error arm when the pending error frame carries that code
(30_encoding.md R73; log 23). -/
def State.deviceErrorRow (s : State) (code : Byte) : Out :=
  if s.errorPending && decide (1 ≤ s.rxLen.toNat) && s.rxPayload.read 0 == some code then .next s.errorArm
  else .next s

/-! ### The decoder's transitions (42_frame_decoder.md) -/

/-- A dispatch row takes effect only while no frame is pending and its state and condition select it
(42_frame_decoder.md R110, R111; log 21). -/
def State.selectRow (s : State) (d : DState) (cond : Bool) (o : Out) : Out :=
  if s.frameReady = false ∧ s.dstate = d ∧ cond = true then o else .next s

/-- `b` is the first sync byte, the second (00_scope.md R4). -/
def isSync0 (b : Byte) : Bool := b == 0x55
def isSync1 (b : Byte) : Bool := b == 0xAA

/-- R112, hit. -/
def State.feedSyncFirst (s : State) : State := { s with dstate := .sync1 }

/-- R112, R113, miss: back to the sync search; the byte is dropped. -/
def State.feedSyncRestart (s : State) : State := { s with dstate := .sync0 }

/-- R113, hit. -/
def State.feedSyncSecond (s : State) : State := { s with dstate := .dest }

/-- R114. -/
def State.feedDestByte (s : State) (b : Byte) : State := { s with rxDest := b, dstate := .src }

/-- R115. -/
def State.feedSrcByte (s : State) (b : Byte) : State := { s with rxSrc := b, dstate := .cmd }

/-- R116. -/
def State.feedCmdByte (s : State) (b : Byte) : State := { s with rxCmd := b, dstate := .len }

/-- `b <= 64` (42_frame_decoder.md R117, R118). -/
def lenAccepted (b : Byte) : Bool := decide (b.toNat ≤ maxPayload)

/-- R117. -/
def State.feedLenOversized (s : State) : State := { s with dstate := s.init }

/-- R118. -/
def State.feedLenByte (s : State) (b : Byte) : State :=
  { s with rxLen := b, dRemain := b.setWidth 7, dstate := if b = 0 then .chk else .data }

/-- `1 <= D_REMAIN <= RX_LEN <= 64`, R119's invariant on entry. -/
def State.dataEntry (s : State) : Bool :=
  decide (1 ≤ s.dRemain.toNat) && decide (s.dRemain.toNat ≤ s.rxLen.toNat) && decide (s.rxLen.toNat ≤ maxPayload)

/-- The index of the next payload byte (10_state.md R11). -/
def State.dataIndex (s : State) : Nat := s.rxLen.toNat - s.dRemain.toNat

/-- R119. -/
def State.feedDataByte (s : State) (b : Byte) : Out :=
  if s.dataEntry then
    .next { s with
      rxPayload := s.rxPayload.write s.dataIndex b, dRemain := s.dRemain - 1
      dstate := if s.dRemain - 1 = 0 then .chk else .data }
  else .fault .payloadIndexOutOfRange

/-- R120: the address filter. -/
def State.feedChkByte (s : State) (b : Byte) : State :=
  let s' := { s with rxChk := b, dstate := s.init }
  if s.rxDest = s.cons.localAddr then s'.setReady else s'

/-! ### Reads that draw free values -/

/-- The response bytes `RESP_BUF[0 .. RESP_LEN-1]`. Before any operation has written them they are free values: a free
length of at most 64 and that many free bytes (70_reset_and_hazards.md R261; log 33). -/
def State.freeResponse (s : State) : List Byte :=
  freeBytes (s.freeCtr + 1) (Config.freeNat s.freeCtr % (maxPayload + 1))

/-! ### What a host reads at the ports (60_exceptions.md R240) -/

/-- `cmd_ready`. -/
def State.cmdReady (s : State) : Bool := decide (s.tstate = .idle)

/-- `RESULT`, once an operation has written it (70_reset_and_hazards.md R261; log 11). -/
def State.hostResult (s : State) : Option Result := if s.resultWritten then some s.result else none

/-- The place of a result in `LOCAL_CODE`, the order of 60_exceptions.md R220. -/
def Result.index : Result → Fin 13
  | .success => 0
  | .invalidContext => 1
  | .timerNotSet => 2
  | .dataTooLarge => 3
  | .remoteTransportError => 4
  | .timeout => 5
  | .checksumMismatch => 6
  | .handError => 7
  | .unmatchedAddress => 8
  | .unmatchedCommand => 9
  | .outputBufferTooSmall => 10
  | .dataInvalid => 11
  | .sizeTooBig => 12

/-- `LOCAL_CODE(x)`: the number the instance gives a result (D17). -/
def resultCode (c : Construction) (x : Result) : Int := c.localCode[Result.index x]

/-- `RESULT` as the number of the instance, once an operation has written it. -/
def State.hostResultCode (s : State) : Option Int := s.hostResult.map (resultCode s.cons)

/-- `REMOTE_ERR`, once an operation has written it. -/
def State.hostRemoteErr (s : State) : Option Byte := if s.remoteErrWritten then some s.remoteErr else none

/-- `RESP_BUF[0 .. RESP_LEN-1]`, once an operation has written it. -/
def State.hostResponse (s : State) : Option (List Byte) :=
  if s.respWritten then memRead s.respBuf 0 s.respLen.toNat else none

end Sys2Proof.Machine
end

