-- ==== Sys2Proof/Machine/CommandIds.lean ====
section
/-! DEFINITION. The FRAME.command_id rows of the opcode table (30_encoding.md R70 to R72): the two catalogue operations the spec
fixes, the device-error response, and one transaction with an id of each range (log 22). -/

namespace Sys2Proof.Machine

/-- `CAT(GET_PROTOCOL_VERSION, dest, [])` (44_command_catalogue.md R190; log 24). -/
def execGetProtocolVersion (dest : Byte) (s : State) : Out := whenIdle s (s.startCat versionIndex dest 0 [])

/-- `CAT(CUSTOM, dest, [payload])` (44_command_catalogue.md R191; log 24). -/
def execCustom (dest : Byte) (payload : List Byte) (s : State) : Out :=
  whenIdle s (s.startCat customIndex dest 0 [.bytes payload])

/-- A response whose command id has the error bit: the device-error arm of the completion, taken when it is pending and
`RECV` waits (43_transaction.md R157; log 23). -/
def execErrorResponse (cmd : Byte) (s : State) : Out :=
  if s.errorPending && s.rxCmd == cmd then .next s.errorArm else .next s

/-- A transaction whose command id is `cmd` at the frame layer, which passes any id through
(30_encoding.md R74, 44_command_catalogue.md R187, 93_implementation_defined.md U9; log 22). A range takes it only for an id of its own. -/
def State.classTransaction (s : State) (lo hi cmd dest : Byte) (p : List Byte) (hasBuf : Bool) (cap : Byte) : Out :=
  if inRange lo hi cmd then whenIdle s (.next (s.startXfer dest cmd p hasBuf cap)) else .next s

/-- R70: GET, 0x00 to 0x1F. -/
def execClassGet (cmd dest : Byte) (payload : List Byte) (hasBuf : Bool) (cap : Byte) (s : State) : Out :=
  s.classTransaction 0x00 0x1F cmd dest payload hasBuf cap

/-- R70: AUX_GET, 0x20 to 0x23. -/
def execClassAuxGet20 (cmd dest : Byte) (payload : List Byte) (hasBuf : Bool) (cap : Byte) (s : State) : Out :=
  s.classTransaction 0x20 0x23 cmd dest payload hasBuf cap

/-- R70: AUX_GET, 0x24 and 0x25. -/
def execClassAuxGet24 (cmd dest : Byte) (payload : List Byte) (hasBuf : Bool) (cap : Byte) (s : State) : Out :=
  s.classTransaction 0x24 0x25 cmd dest payload hasBuf cap

/-- R70: unassigned, 0x26 to 0x3F. -/
def execUnassigned26 (cmd dest : Byte) (payload : List Byte) (hasBuf : Bool) (cap : Byte) (s : State) : Out :=
  s.classTransaction 0x26 0x3F cmd dest payload hasBuf cap

/-- R70: SET, 0x40 to 0x4F. -/
def execClassSet40 (cmd dest : Byte) (payload : List Byte) (hasBuf : Bool) (cap : Byte) (s : State) : Out :=
  s.classTransaction 0x40 0x4F cmd dest payload hasBuf cap

/-- R70: SET, 0x50 to 0x53. -/
def execClassSet50 (cmd dest : Byte) (payload : List Byte) (hasBuf : Bool) (cap : Byte) (s : State) : Out :=
  s.classTransaction 0x50 0x53 cmd dest payload hasBuf cap

/-- R70: SET, 0x54. -/
def execClassSet54 (dest : Byte) (payload : List Byte) (hasBuf : Bool) (cap : Byte) (s : State) : Out :=
  s.classTransaction 0x54 0x54 0x54 dest payload hasBuf cap

/-- R70: unassigned, 0x55 to 0x5E. -/
def execUnassigned55 (cmd dest : Byte) (payload : List Byte) (hasBuf : Bool) (cap : Byte) (s : State) : Out :=
  s.classTransaction 0x55 0x5E cmd dest payload hasBuf cap

/-- R70: AUX_SET, 0x60 to 0x63. -/
def execClassAuxSet60 (cmd dest : Byte) (payload : List Byte) (hasBuf : Bool) (cap : Byte) (s : State) : Out :=
  s.classTransaction 0x60 0x63 cmd dest payload hasBuf cap

/-- R70: AUX_SET, 0x64. -/
def execClassAuxSet64 (dest : Byte) (payload : List Byte) (hasBuf : Bool) (cap : Byte) (s : State) : Out :=
  s.classTransaction 0x64 0x64 0x64 dest payload hasBuf cap

/-- R70: unassigned, 0x65 to 0x7F. -/
def execUnassigned65 (cmd dest : Byte) (payload : List Byte) (hasBuf : Bool) (cap : Byte) (s : State) : Out :=
  s.classTransaction 0x65 0x7F cmd dest payload hasBuf cap

end Sys2Proof.Machine
end

