-- ==== Sys2Proof/Machine/DeviceErrors.lean ====
section
/-! DEFINITION. The device error codes (30_encoding.md R73): each row is the device-error arm of a completion whose pending error
frame carries that code (43_transaction.md R157; log 23). -/

namespace Sys2Proof.Machine

/-- 0x01 wrong-checksum. -/
def execDeverrWrongChecksum (s : State) : Out := s.deviceErrorRow 0x01

/-- 0x11 invalid-command. -/
def execDeverrInvalidCommand (s : State) : Out := s.deviceErrorRow 0x11

/-- 0x12 invalid-byte-count. -/
def execDeverrInvalidByteCount (s : State) : Out := s.deviceErrorRow 0x12

/-- 0x13 invalid-data. -/
def execDeverrInvalidData (s : State) : Out := s.deviceErrorRow 0x13

/-- 0x21 device-not-initialized. -/
def execDeverrDeviceNotInitialized (s : State) : Out := s.deviceErrorRow 0x21

/-- 0x22 device-calibrating. -/
def execDeverrDeviceCalibrating (s : State) : Out := s.deviceErrorRow 0x22

/-- 0x23 motor-stuck. -/
def execDeverrMotorStuck (s : State) : Out := s.deviceErrorRow 0x23

/-- 0x31 operation-failed. -/
def execDeverrOperationFailed (s : State) : Out := s.deviceErrorRow 0x31

/-- 0x32 save-failed. -/
def execDeverrSaveFailed (s : State) : Out := s.deviceErrorRow 0x32

end Sys2Proof.Machine
end

