-- ==== Sys2Proof/Machine/Events.lean ====
section
/-! DEFINITION. The events of the other agents (00_scope.md R7): `FEED`, `TXDONE`, `POLL`, `RESET`. -/

namespace Sys2Proof.Machine

/-- `FEED(b)`: nothing while a frame is pending, else the transition `DSTATE` selects (42_frame_decoder.md R110 to R120). -/
def execFeed (b : Byte) (s : State) : Out :=
  if s.frameReady then .next s
  else
    match s.dstate with
    | .sync0 => .next (if isSync0 b then s.feedSyncFirst else s.feedSyncRestart)
    | .sync1 => .next (if isSync1 b then s.feedSyncSecond else s.feedSyncRestart)
    | .dest => .next (s.feedDestByte b)
    | .src => .next (s.feedSrcByte b)
    | .cmd => .next (s.feedCmdByte b)
    | .len => .next (if lenAccepted b then s.feedLenByte b else s.feedLenOversized)
    | .data => s.feedDataByte b
    | .chk => .next (s.feedChkByte b)

/-- `TXDONE(ok)`, enabled only in `T_TX` (43_transaction.md R146; log 3). -/
def execTxdone (ok : Bool) (now : U32) (s : State) : Out :=
  if s.tstate = .tx then
    let s := s.clearReady
    if ok = false then .next (s.raise .remoteTransportError)
    else if s.tKind = .send then .next { s.raise .success with sendOpen := true }
    else .next (s.startReceive s.cfgTimeoutMs now)
  else .next s

/-- `POLL@now`, enabled only in `T_WAIT`, with no delay running and the clock `POLL_MS` past the poll before where clock and delay agree
(43_transaction.md R151 to R155; log 3, log 45). -/
def execPoll (now : U32) (s : State) : Out :=
  if pollEnabled s now then
    if s.frameReady then s.complete else .next (s.timeCheck now)
  else .next s

/-- `RESET` (70_reset_and_hazards.md R260, R261): the instance is constructed again from its parameters; every register R261 calls
unspecified takes a free value (log 8). The inputs still at the ports stay. -/
def execReset (s : State) : Out :=
  .next { State.construct s.cons (fun k => Config.freeNat (s.freeCtr + k)) with
    freeCtr := s.freeCtr + State.constructDraws, inbox := s.inbox }

end Sys2Proof.Machine
end

