-- ==== Sys2Proof/Machine/FeedRows.lean ====
section
/-! DEFINITION. The FEED dispatch rows of the opcode table (42_frame_decoder.md R111, R121): each is the transition it names,
taken when no frame is pending and the decode state and the byte select it, and no step otherwise (log 21). -/

namespace Sys2Proof.Machine

/-- R112, `b = 0x55`. -/
def execFeedSync0Hit (s : State) : Out := s.selectRow .sync0 true (.next s.feedSyncFirst)

/-- R112, `b != 0x55`. -/
def execFeedSync0Miss (b : Byte) (s : State) : Out := s.selectRow .sync0 (!isSync0 b) (.next s.feedSyncRestart)

/-- R113, `b = 0xAA`. -/
def execFeedSync1Hit (s : State) : Out := s.selectRow .sync1 true (.next s.feedSyncSecond)

/-- R113, `b != 0xAA`. -/
def execFeedSync1Miss (b : Byte) (s : State) : Out := s.selectRow .sync1 (!isSync1 b) (.next s.feedSyncRestart)

/-- R114. -/
def execFeedDest (b : Byte) (s : State) : Out := s.selectRow .dest true (.next (s.feedDestByte b))

/-- R115. -/
def execFeedSrc (b : Byte) (s : State) : Out := s.selectRow .src true (.next (s.feedSrcByte b))

/-- R116. -/
def execFeedCmd (b : Byte) (s : State) : Out := s.selectRow .cmd true (.next (s.feedCmdByte b))

/-- R118, `b = 0`. -/
def execFeedLenZero (s : State) : Out := s.selectRow .len true (.next (s.feedLenByte 0))

/-- R118, `1 <= b <= 64`. -/
def execFeedLenAccept (b : Byte) (s : State) : Out :=
  s.selectRow .len (lenAccepted b && b != 0) (.next (s.feedLenByte b))

/-- R117, `b > 64`. -/
def execFeedLenOver (b : Byte) (s : State) : Out := s.selectRow .len (!lenAccepted b) (.next s.feedLenOversized)

/-- R119. -/
def execFeedData (b : Byte) (s : State) : Out := s.selectRow .data true (s.feedDataByte b)

/-- R120. -/
def execFeedChk (b : Byte) (s : State) : Out := s.selectRow .chk true (.next (s.feedChkByte b))

end Sys2Proof.Machine
end

