-- ==== Sys2Proof/Machine/Functions.lean ====
section
/-! DEFINITION. The pure functions that have a row of the opcode table (30_encoding.md R80). They write no state of the engine;
their value is put in `fnOut`, the model's own (log 20). -/

namespace Sys2Proof.Machine

/-- `LRC(s)` (40_checksum.md R90). -/
def execLrc (bytes : List Byte) (s : State) : Out := .next { s with fnOut := some (.lrc (lrc bytes)) }

/-- `CHK_OK` over the decode buffer (40_checksum.md R92). The checksum unit reads the buffer only while `FRAME_READY = 1`
(10_state.md R15): with no frame pending the row takes no step, the model's reading of R15 (DEDUCED, log 32). -/
def execChkOk (s : State) : Out :=
  if s.frameReady then
    match memRead s.rxPayload 0 s.rxLen.toNat with
    | some p => .next { s with fnOut := some (.chkOk (chkOk s p)) }
    | none => .fault .readsUnwrittenByte
  else .next s

/-- `ENCODE(dest, cmd, p, n)` (41_frame_encoder.md R100, R102). -/
def execEncode (dest cmd : Byte) (payload : List Byte) (s : State) : Out :=
  match encodeFrame s.cons dest cmd payload with
  | some frame => .next { s with fnOut := some (.encoded frame) }
  | none => .next { s with fnOut := some .sizeExceeded }

/-- `PACK(shape, args)` (44_command_catalogue.md R181); bytes the arguments do not give are free (log 15). -/
def execPack (shape : List FieldType) (args : List Arg) (s : State) : Out :=
  .next { s.drawn (packDraws shape args) with fnOut := some (.packed (pack s.freeCtr shape args)) }

/-- What `UNPACK` gives on response bytes `r`. -/
def unpackOut (shape : List FieldType) (r : List Byte) : FnOut :=
  match unpack shape r with
  | some vs => .unpacked vs
  | none => .dataInvalid

/-- `UNPACK(shape, RESP_BUF, RESP_LEN)` (44_command_catalogue.md R182; log 33). -/
def execUnpack (shape : List FieldType) (s : State) : Out :=
  if s.respWritten then
    match memRead s.respBuf 0 s.respLen.toNat with
    | some r => .next { s with fnOut := some (unpackOut shape r) }
    | none => .fault .readsUnwrittenByte
  else
    .next { s with fnOut := some (unpackOut shape s.freeResponse), freeCtr := s.freeCtr + 1 + maxPayload }

end Sys2Proof.Machine
end

