-- ==== Sys2Proof/Machine/HostOps.lean ====
section
/-! DEFINITION. The host operations of the command port (30_encoding.md R80, 43_transaction.md). -/

namespace Sys2Proof.Machine

/-- `SEND` (43_transaction.md R140 to R145). A second `SEND` with no `RECV` completed since the first succeeded is refused
(93_implementation_defined.md U1; log 12). -/
def execSend (dest cmd : Byte) (payload : List Byte) (s : State) : Out :=
  whenIdle s
    (if s.sendOpen then .refused .secondSend
     else .next ((s.latchSend dest cmd).sendHalf dest cmd payload))

/-- `RECV`, its start (43_transaction.md R150; log 29). -/
def execRecv (dest cmd : Byte) (timeoutMs : U32) (hasBuf : Bool) (cap : Byte) (now : U32) (s : State) : Out :=
  whenIdle s
    (let s := { s with tKind := .recv }
     if Construction.hasClock s.cons = false then .next (s.raiseRecv .timerNotSet)
     else
       .next ({ s with tDest := dest, tCmd := cmd, tHasBuf := hasBuf, tCap := cap }.startReceive timeoutMs now))

/-- `XFER` (43_transaction.md R163). -/
def execXfer (dest cmd : Byte) (payload : List Byte) (hasBuf : Bool) (cap : Byte) (s : State) : Out :=
  whenIdle s (.next (s.startXfer dest cmd payload hasBuf cap))

/-- `SET_TIMEOUT` (43_transaction.md R165). It ends in the step that accepts it. R140 has the acceptance of every operation latch its
operands and set `T_KIND`; `T_KIND` has no value for this one and no latch but `T_TIMEOUT`, "the timeout of this `RECV`", could hold its
operand (10_state.md R24), so no latch is written (DESIGN CHOICE, log 42). -/
def execSetTimeout (timeoutMs : U32) (s : State) : Out :=
  whenIdle s (.next ({ s with cfgTimeoutMs := timeoutMs }.raise .success))

/-- `CAT` (44_command_catalogue.md R186). -/
def execCat (desc dest motorCap : Byte) (args : List Arg) (s : State) : Out :=
  whenIdle s (s.startCat desc dest motorCap args)

/-- Operation code 5: never accepted by the command port, no step (30_encoding.md R80; log 2). -/
def execReservedOp5 (s : State) : Out := .next s

/-- Operation code 6: never accepted by the command port, no step (30_encoding.md R80; log 2). -/
def execReservedOp6 (s : State) : Out := .next s

/-- Operation code 7: never accepted by the command port, no step (30_encoding.md R80; log 2). -/
def execReservedOp7 (s : State) : Out := .next s

end Sys2Proof.Machine
end

