-- ==== Sys2Proof/Machine/Dispatch.lean ====
section
/-! DEFINITION. One arm per instruction, each one call of its meaning. -/

namespace Sys2Proof.Machine

def exec (i : Instr) (s : State) : Host.Outcome State Fault Refusal :=
  match i with
  | .send dest cmd payload => Sys2Proof.Machine.execSend dest cmd payload s
  | .recv dest cmd timeoutMs hasBuf cap now => Sys2Proof.Machine.execRecv dest cmd timeoutMs hasBuf cap now s
  | .xfer dest cmd payload hasBuf cap => Sys2Proof.Machine.execXfer dest cmd payload hasBuf cap s
  | .setTimeout timeoutMs => Sys2Proof.Machine.execSetTimeout timeoutMs s
  | .cat desc dest motorCap args => Sys2Proof.Machine.execCat desc dest motorCap args s
  | .reservedOp5 => Sys2Proof.Machine.execReservedOp5 s
  | .reservedOp6 => Sys2Proof.Machine.execReservedOp6 s
  | .reservedOp7 => Sys2Proof.Machine.execReservedOp7 s
  | .feed b => Sys2Proof.Machine.execFeed b s
  | .txdone ok now => Sys2Proof.Machine.execTxdone ok now s
  | .poll now => Sys2Proof.Machine.execPoll now s
  | .reset => Sys2Proof.Machine.execReset s
  | .feedSync0Hit => Sys2Proof.Machine.execFeedSync0Hit s
  | .feedSync0Miss b => Sys2Proof.Machine.execFeedSync0Miss b s
  | .feedSync1Hit => Sys2Proof.Machine.execFeedSync1Hit s
  | .feedSync1Miss b => Sys2Proof.Machine.execFeedSync1Miss b s
  | .feedDest b => Sys2Proof.Machine.execFeedDest b s
  | .feedSrc b => Sys2Proof.Machine.execFeedSrc b s
  | .feedCmd b => Sys2Proof.Machine.execFeedCmd b s
  | .feedLenZero => Sys2Proof.Machine.execFeedLenZero s
  | .feedLenAccept b => Sys2Proof.Machine.execFeedLenAccept b s
  | .feedLenOver b => Sys2Proof.Machine.execFeedLenOver b s
  | .feedData b => Sys2Proof.Machine.execFeedData b s
  | .feedChk b => Sys2Proof.Machine.execFeedChk b s
  | .getProtocolVersion dest => Sys2Proof.Machine.execGetProtocolVersion dest s
  | .custom dest payload => Sys2Proof.Machine.execCustom dest payload s
  | .errorResponse cmd => Sys2Proof.Machine.execErrorResponse cmd s
  | .classGet cmd dest payload hasBuf cap => Sys2Proof.Machine.execClassGet cmd dest payload hasBuf cap s
  | .classAuxGet20 cmd dest payload hasBuf cap => Sys2Proof.Machine.execClassAuxGet20 cmd dest payload hasBuf cap s
  | .classAuxGet24 cmd dest payload hasBuf cap => Sys2Proof.Machine.execClassAuxGet24 cmd dest payload hasBuf cap s
  | .unassigned26 cmd dest payload hasBuf cap => Sys2Proof.Machine.execUnassigned26 cmd dest payload hasBuf cap s
  | .classSet40 cmd dest payload hasBuf cap => Sys2Proof.Machine.execClassSet40 cmd dest payload hasBuf cap s
  | .classSet50 cmd dest payload hasBuf cap => Sys2Proof.Machine.execClassSet50 cmd dest payload hasBuf cap s
  | .classSet54 dest payload hasBuf cap => Sys2Proof.Machine.execClassSet54 dest payload hasBuf cap s
  | .unassigned55 cmd dest payload hasBuf cap => Sys2Proof.Machine.execUnassigned55 cmd dest payload hasBuf cap s
  | .classAuxSet60 cmd dest payload hasBuf cap => Sys2Proof.Machine.execClassAuxSet60 cmd dest payload hasBuf cap s
  | .classAuxSet64 dest payload hasBuf cap => Sys2Proof.Machine.execClassAuxSet64 dest payload hasBuf cap s
  | .unassigned65 cmd dest payload hasBuf cap => Sys2Proof.Machine.execUnassigned65 cmd dest payload hasBuf cap s
  | .deverrWrongChecksum => Sys2Proof.Machine.execDeverrWrongChecksum s
  | .deverrInvalidCommand => Sys2Proof.Machine.execDeverrInvalidCommand s
  | .deverrInvalidByteCount => Sys2Proof.Machine.execDeverrInvalidByteCount s
  | .deverrInvalidData => Sys2Proof.Machine.execDeverrInvalidData s
  | .deverrDeviceNotInitialized => Sys2Proof.Machine.execDeverrDeviceNotInitialized s
  | .deverrDeviceCalibrating => Sys2Proof.Machine.execDeverrDeviceCalibrating s
  | .deverrMotorStuck => Sys2Proof.Machine.execDeverrMotorStuck s
  | .deverrOperationFailed => Sys2Proof.Machine.execDeverrOperationFailed s
  | .deverrSaveFailed => Sys2Proof.Machine.execDeverrSaveFailed s
  | .lrc bytes => Sys2Proof.Machine.execLrc bytes s
  | .chkOk => Sys2Proof.Machine.execChkOk s
  | .encode dest cmd payload => Sys2Proof.Machine.execEncode dest cmd payload s
  | .pack shape args => Sys2Proof.Machine.execPack shape args s
  | .unpack shape => Sys2Proof.Machine.execUnpack shape s

end Sys2Proof.Machine
end

