-- ==== Sys2Proof/Machine/Fetch.lean ====
section
/-! DEFINITION. Which of the inputs at the ports takes effect next (00_scope.md R7; 43_transaction.md R140). -/

namespace Sys2Proof.Machine

/-- The instruction is presented to the command port, which accepts it only in `T_IDLE` (43_transaction.md R140). -/
def isHostOp : Instr → Bool
  | .send _ _ _ => true
  | .recv _ _ _ _ _ _ => true
  | .xfer _ _ _ _ _ => true
  | .setTimeout _ => true
  | .cat _ _ _ _ => true
  | .reservedOp5 => true
  | .reservedOp6 => true
  | .reservedOp7 => true
  | .feed _ => false
  | .txdone _ _ => false
  | .poll _ => false
  | .reset => false
  | .feedSync0Hit => false
  | .feedSync0Miss _ => false
  | .feedSync1Hit => false
  | .feedSync1Miss _ => false
  | .feedDest _ => false
  | .feedSrc _ => false
  | .feedCmd _ => false
  | .feedLenZero => false
  | .feedLenAccept _ => false
  | .feedLenOver _ => false
  | .feedData _ => false
  | .feedChk _ => false
  | .getProtocolVersion _ => true
  | .custom _ _ => true
  | .errorResponse _ => false
  | .classGet _ _ _ _ _ => true
  | .classAuxGet20 _ _ _ _ _ => true
  | .classAuxGet24 _ _ _ _ _ => true
  | .unassigned26 _ _ _ _ _ => true
  | .classSet40 _ _ _ _ _ => true
  | .classSet50 _ _ _ _ _ => true
  | .classSet54 _ _ _ _ => true
  | .unassigned55 _ _ _ _ _ => true
  | .classAuxSet60 _ _ _ _ _ => true
  | .classAuxSet64 _ _ _ _ => true
  | .unassigned65 _ _ _ _ _ => true
  | .deverrWrongChecksum => false
  | .deverrInvalidCommand => false
  | .deverrInvalidByteCount => false
  | .deverrInvalidData => false
  | .deverrDeviceNotInitialized => false
  | .deverrDeviceCalibrating => false
  | .deverrMotorStuck => false
  | .deverrOperationFailed => false
  | .deverrSaveFailed => false
  | .lrc _ => false
  | .chkOk => false
  | .encode _ _ _ => false
  | .pack _ _ => false
  | .unpack _ => false

/-- The instruction is one of the operation codes the port never accepts (30_encoding.md R80). -/
def isReserved : Instr → Bool
  | .reservedOp5 => true
  | .reservedOp6 => true
  | .reservedOp7 => true
  | _ => false

/-- The command port accepts `i` now. -/
def accepts (s : State) (i : Instr) : Bool := s.cmdReady && !isReserved i

/-- An input stays at its port: a host operation the port does not accept now takes no step (43_transaction.md R140; log 2). -/
def held (s : State) (e : Input) : Bool :=
  match e.decode with
  | .ok i => isHostOp i && !accepts s i
  | .error _ => false

/-- The first input that is not held, and the inputs that stay. -/
def firstTaken (s : State) : List Input → Option (Input × List Input)
  | [] => none
  | e :: es =>
    if held s e then
      match firstTaken s es with
      | some (x, rest) => some (x, e :: rest)
      | none => none
    else some (e, es)

/-- The state in which a taken input takes effect: the others stay, the strobes of the input before are over (log 28). -/
def State.afterTaking (s : State) (rest : List Input) : State :=
  { s with inbox := rest, strobes := Strobes.none }

/-- An input no instruction is read from: the end of a delay (60_exceptions.md R240, R243; log 45), or bytes that are no encoding. -/
def State.takeOther (s : State) (e : Input) (why : Reject) : Out :=
  match e.port with
  | .delay => .next s.delayOver
  | _ => .refused (.undecodable why)

/-- The sequencer state in which an input of this kind is taken: a host operation needs `T_IDLE` (log 27). -/
def readyFor (e : Input) (t : TState) : TState :=
  match e.decode with
  | .ok i => if isHostOp i then .idle else t
  | .error _ => t

end Sys2Proof.Machine
end

