-- ==== Sys2Proof/Machine/Step.lean ====
section
/-! DEFINITION. One step: the next input that is not held takes effect (00_scope.md R7). -/

namespace Sys2Proof.Machine

/-- One step. With no input that can take effect the engine waits as it is (93_implementation_defined.md U13; log 4). -/
def step (s : State) : Host.Outcome State Fault Refusal :=
  match firstTaken s s.inbox with
  | none => .next s
  | some (e, rest) =>
    match e.decode with
    | .ok i => exec i (s.afterTaking rest)
    | .error r => (s.afterTaking rest).takeOther e r

/-- `s` with the instruction of a table word at the front of the inputs, and the command port ready if it is a host operation, so
that the next step runs it (log 27). -/
def State.withFetchWord (s : State) (nbits w : Nat) : State :=
  { s with inbox := inputOfWord nbits w :: s.inbox, tstate := readyFor (inputOfWord nbits w) s.tstate }

end Sys2Proof.Machine
end

