-- ==== Sys2Proof/Safety.lean ====
section
/-! DEFINITION. What holds of every state the engine reaches (`State.Inv`), and the terms statements use. -/

namespace Sys2Proof.Machine

/-- A buffer in canonical form with no index at or above its size (20_memory.md R40). -/
def bufferOk (m : Memory) (size : Nat) : Prop := m.wf = true ∧ ∀ a, (m.read a).isSome → a < size

/-- Bytes `0 .. n-1` of a buffer have been written. -/
def writtenTo (m : Memory) (n : Nat) : Prop := ∀ a, a < n → (m.read a).isSome

/-- The invariant of the engine: buffers within their sizes; the decoder's counters in range while they count
(10_state.md R11, 42_frame_decoder.md R119); a pending frame complete, addressed to this node, the decoder in `INIT`
(10_state.md R20, 43_transaction.md R162); no sync states on a bus (10_state.md R13); an operation in progress only with the
capabilities it needs (43_transaction.md R141, R142, R150); a delay only while a `RECV` waits (R151); the response buffer written up to its length (10_state.md R28). -/
structure State.Inv (s : State) : Prop where
  rxBuffer : bufferOk s.rxPayload 64
  txBuffer : bufferOk s.txBuf 70
  respBuffer : bufferOk s.respBuf 64
  data : s.dstate = .data → 1 ≤ s.dRemain.toNat ∧ s.dRemain.toNat ≤ s.rxLen.toNat ∧ s.rxLen.toNat ≤ 64 ∧
    writtenTo s.rxPayload (s.rxLen.toNat - s.dRemain.toNat)
  chk : s.dstate = .chk → s.rxLen.toNat ≤ 64 ∧ writtenTo s.rxPayload s.rxLen.toNat
  pending : s.frameReady = true → s.dstate = s.init ∧ s.rxDest = s.cons.localAddr ∧ s.rxLen.toNat ≤ 64 ∧
    writtenTo s.rxPayload s.rxLen.toNat
  bus : s.cons.proto = .bus → s.dstate ≠ .sync0 ∧ s.dstate ≠ .sync1
  transmitting : s.tstate = .tx → s.cons.capSend = true ∧ Construction.hasClock s.cons = true ∧ s.tKind ≠ .recv ∧
    5 ≤ s.txLen.toNat ∧ s.txLen.toNat ≤ 70 ∧ writtenTo s.txBuf s.txLen.toNat
  waiting : s.tstate = .wait → Construction.hasClock s.cons = true ∧ s.tKind ≠ .send
  catalogue : s.tstate ≠ .idle → s.tKind = .cat → s.tHasBuf = true ∧
    ∃ d, lookupDescriptor s.cons s.tDesc = some d ∧ s.tCmd = d.cmd ∧ s.tCap = d.respCap
  delay : s.tstate ≠ .wait → s.delay = .idle
  response : s.respWritten = true → s.respLen.toNat ≤ 64 ∧ writtenTo s.respBuf s.respLen.toNat

/-- The instruction feeds the decoder: `FEED` or one of its dispatch rows. -/
def isFeed : Instr → Bool
  | .feed _ => true
  | .feedSync0Hit => true
  | .feedSync0Miss _ => true
  | .feedSync1Hit => true
  | .feedSync1Miss _ => true
  | .feedDest _ => true
  | .feedSrc _ => true
  | .feedCmd _ => true
  | .feedLenZero => true
  | .feedLenAccept _ => true
  | .feedLenOver _ => true
  | .feedData _ => true
  | .feedChk _ => true
  | _ => false

/-- The instruction completes a waiting `RECV`: `POLL`, or one of the rows that name its device-error arm. -/
def isCompletion : Instr → Bool
  | .poll _ => true
  | .errorResponse _ => true
  | .deverrWrongChecksum => true
  | .deverrInvalidCommand => true
  | .deverrInvalidByteCount => true
  | .deverrInvalidData => true
  | .deverrDeviceNotInitialized => true
  | .deverrDeviceCalibrating => true
  | .deverrMotorStuck => true
  | .deverrOperationFailed => true
  | .deverrSaveFailed => true
  | _ => false

/-- The decode buffer (10_state.md R14) is the same in both states. -/
def sameDecodeBuffer (s t : State) : Prop :=
  t.rxDest = s.rxDest ∧ t.rxSrc = s.rxSrc ∧ t.rxCmd = s.rxCmd ∧ t.rxLen = s.rxLen ∧ t.rxChk = s.rxChk ∧
    ∀ a, t.rxPayload.read a = s.rxPayload.read a

/-- The decoder and the pending frame are the same in both states. -/
def sameDecoder (s t : State) : Prop :=
  sameDecodeBuffer s t ∧ t.dstate = s.dstate ∧ t.dRemain = s.dRemain ∧ t.frameReady = s.frameReady

/-- The transaction latches (10_state.md R24) are the same in both states. -/
def sameLatches (s t : State) : Prop :=
  t.tKind = s.tKind ∧ t.tDest = s.tDest ∧ t.tCmd = s.tCmd ∧ t.tTimeout = s.tTimeout ∧ t.tStart = s.tStart ∧
    t.tHasBuf = s.tHasBuf ∧ t.tCap = s.tCap ∧ t.tDesc = s.tDesc ∧ t.tArg0 = s.tArg0 ∧ t.tMotorCap = s.tMotorCap

/-- The transmit registers (10_state.md R25) are the same in both states. -/
def sameTransmit (s t : State) : Prop :=
  t.txLen = s.txLen ∧ t.txDest = s.txDest ∧ ∀ a, t.txBuf.read a = s.txBuf.read a

/-- `REMOTE_ERR`, the response buffer and the catalogue outputs are the same in both states. -/
def sameOutputs (s t : State) : Prop :=
  t.remoteErr = s.remoteErr ∧ t.respLen = s.respLen ∧ t.catOut = s.catOut ∧ ∀ a, t.respBuf.read a = s.respBuf.read a

/-- The configuration (10_state.md R30) is the same in both states. -/
def sameConfig (s t : State) : Prop := t.cons = s.cons ∧ t.cfgTimeoutMs = s.cfgTimeoutMs

/-- Feeding bytes one after another (30_encoding.md R81), stopping where a `FEED` stops. -/
def feedAll : List Byte → State → Out
  | [], s => .next s
  | b :: bs, s =>
    match exec (.feed b) s with
    | .next t => feedAll bs t
    | .fault f => .fault f
    | .refused r => .refused r

/-- Instructions one after another, stopping where one stops. -/
def runAll : List Instr → State → Out
  | [], s => .next s
  | i :: is, s =>
    match exec i s with
    | .next t => runAll is t
    | .fault f => .fault f
    | .refused r => .refused r

/-- The bytes of a frame from its destination address to its checksum (30_encoding.md R60, R61). -/
def frameBody (dest src cmd : Byte) (p : List Byte) : List Byte :=
  dest :: src :: cmd :: BitVec.ofNat 8 p.length :: p ++ [lrc (dest :: src :: cmd :: BitVec.ofNat 8 p.length :: p)]

/-- A whole frame on the wire: with the two sync bytes for UART, without them on a bus (30_encoding.md R60, R61). -/
def wireFrame (c : Construction) (dest cmd : Byte) (p : List Byte) : List Byte :=
  match c.proto with
  | .uart => 0x55 :: 0xAA :: frameBody dest c.localAddr cmd p
  | .bus => frameBody dest c.localAddr cmd p

/-- The bytes the validator looks at, in wire order: header, payload `p`, checksum (40_checksum.md R92, R93). -/
def checkedBytes (s : State) (p : List Byte) : List Byte := s.rxDest :: s.rxSrc :: s.rxCmd :: s.rxLen :: p ++ [s.rxChk]

/-- Every capability a `SEND` needs is configured (43_transaction.md R141, R142). -/
def canSend (s : State) : Prop := s.cons.capSend = true ∧ s.cons.capNow = true ∧ s.cons.capDelay = true

/-- `RECV` waits, its poll iteration has begun and the pending frame has payload `p` and a good checksum: what a `POLL` finds past
check (a) (43_transaction.md R151, R152, R156). -/
def goodFramePending (s : State) (p : List Byte) : Prop :=
  s.tstate = .wait ∧ pollDue s = true ∧ s.frameReady = true ∧ memRead s.rxPayload 0 s.rxLen.toNat = some p ∧ chkOk s p = true

/-- The pending response is the one asked for, and fits: checks (b) to (e) pass (43_transaction.md R155). -/
def responseAccepted (s : State) : Prop :=
  s.rxCmd.getLsbD 7 = false ∧ (s.rxSrc = s.tDest ∨ s.tDest = s.cons.broadcastAddr) ∧ s.rxCmd = s.tCmd ∧
    (s.tHasBuf = true → s.rxLen.toNat ≤ s.tCap.toNat)

/-- What every end of a `RECV` writes (00_scope.md R8): `RESULT`, `T_IDLE`, the `done` indication; no delay is left. -/
def endOfRecv (s : State) (x : Result) : State :=
  { s with
    result := x, resultWritten := true, tstate := .idle, sendOpen := false, delay := .idle
    strobes := { s.strobes with done := true } }

/-- What every other end of an operation writes (00_scope.md R8). -/
def endOfOp (s : State) (x : Result) : State :=
  { s with result := x, resultWritten := true, tstate := .idle, strobes := { s.strobes with done := true } }

/-- `t` is `s` with the frame `f` handed to the transmitter (43_transaction.md R145): the frame is in the first bytes of `TX_BUF`, no other
byte of it changes, and nothing else does but `TX_LEN`, `TX_DEST`, `TSTATE` and the strobe. -/
def frameRequested (s t : State) (dest : Byte) (f : List Byte) : Prop :=
  t = { s with
    txBuf := t.txBuf, txLen := t.txLen, txDest := dest, tstate := .tx, strobes := { s.strobes with txReq := true } } ∧
  t.txLen.toNat = f.length ∧ (∀ k, k < f.length → t.txBuf.read k = f[k]?) ∧
    ∀ k, f.length ≤ k → t.txBuf.read k = s.txBuf.read k

/-- `t` is `s` with the payload `p` copied to the response buffer (43_transaction.md R161): no byte at or above its length changes. -/
def responseCopied (s t : State) (p : List Byte) : Prop :=
  t = { s with respBuf := t.respBuf, respLen := t.respLen, respWritten := true } ∧ t.respLen.toNat = p.length ∧
    (∀ k, k < p.length → t.respBuf.read k = p[k]?) ∧ ∀ k, p.length ≤ k → t.respBuf.read k = s.respBuf.read k

/-- The operands of a transaction: `XFER` and the rows of the command id ranges (30_encoding.md R70; log 22). -/
def transactionOf : Instr → Option (Byte × Byte × List Byte × Bool × Byte)
  | .xfer dest cmd p hasBuf cap => some (dest, cmd, p, hasBuf, cap)
  | .classGet cmd dest p hasBuf cap => some (dest, cmd, p, hasBuf, cap)
  | .classAuxGet20 cmd dest p hasBuf cap => some (dest, cmd, p, hasBuf, cap)
  | .classAuxGet24 cmd dest p hasBuf cap => some (dest, cmd, p, hasBuf, cap)
  | .unassigned26 cmd dest p hasBuf cap => some (dest, cmd, p, hasBuf, cap)
  | .classSet40 cmd dest p hasBuf cap => some (dest, cmd, p, hasBuf, cap)
  | .classSet50 cmd dest p hasBuf cap => some (dest, cmd, p, hasBuf, cap)
  | .classSet54 dest p hasBuf cap => some (dest, 0x54, p, hasBuf, cap)
  | .unassigned55 cmd dest p hasBuf cap => some (dest, cmd, p, hasBuf, cap)
  | .classAuxSet60 cmd dest p hasBuf cap => some (dest, cmd, p, hasBuf, cap)
  | .classAuxSet64 dest p hasBuf cap => some (dest, 0x64, p, hasBuf, cap)
  | .unassigned65 cmd dest p hasBuf cap => some (dest, cmd, p, hasBuf, cap)
  | _ => none

/-- The operands of a catalogue operation: `CAT` and the two rows the spec fixes (44_command_catalogue.md R190, R191; log 24). -/
def catalogueOf : Instr → Option (Byte × Byte × Byte × List Arg)
  | .cat desc dest motorCap args => some (desc, dest, motorCap, args)
  | .getProtocolVersion dest => some (versionIndex, dest, 0, [])
  | .custom dest p => some (customIndex, dest, 0, [.bytes p])
  | _ => none

/-- The value a field delivers when it carries an argument of its kind that is long enough (30_encoding.md R66). -/
def fieldValue : FieldType → Arg → Option Value
  | .u8, .num v => some (.num (v.toNat % 256 : Nat))
  | .u16le, .num v => some (.num (v.toNat % 65536 : Nat))
  | .i16le, .num v =>
    some (.num (if v.toNat % 65536 < 32768 then ((v.toNat % 65536 : Nat) : Int) else ((v.toNat % 65536 : Nat) : Int) - 65536))
  | .b32le, .num v => some (.bits v)
  | .bytes n, .bytes b => if n ≤ b.length then some (.bytes (b.take n)) else none
  | .rest, .bytes b => some (.bytes b)
  | .flags _ positions, .flags b => if positions.length ≤ b.length then some (.flags (b.take positions.length)) else none
  | _, _ => none

/-- The variable-length field stands last, if at all. -/
def restLast : List FieldType → Bool
  | [] => true
  | [_] => true
  | f :: g :: fs => f != .rest && restLast (g :: fs)

end Sys2Proof.Machine
end

