-- ==== Sys2Proof/Laws/Memory.lean ====
section
/-! SUPPORT. What the buffer operations do: a byte written is read back, every other byte stays, and the canonical form is
kept (20_memory.md R40). -/

namespace Sys2Proof.Machine

@[simp] theorem Memory.read_nil (a : Nat) : Memory.read [] a = none := rfl

theorem Memory.read_write (m : Memory) (a : Nat) (b : Byte) (k : Nat) :
    (m.write a b).read k = if k = a then some b else m.read k := by
  induction m with
  | nil => simp only [Memory.write, Memory.read, eq_comm]
  | cons c m ih =>
    obtain ⟨i, v⟩ := c
    unfold Memory.write
    split
    · simp only [Memory.read, eq_comm]
    · split
      · rename_i h1 h2
        subst h2
        by_cases h : k = a
        · simp [Memory.read, h]
        · have : ¬ a = k := fun e => h e.symm
          simp [Memory.read, h, this]
      · rename_i h1 h2
        by_cases h : i = k
        · subst h
          have : ¬ i = a := fun e => h2 e.symm
          simp [Memory.read, this]
        · simp only [Memory.read, h, if_false, ih]

@[simp] theorem Memory.read_write_same (m : Memory) (a : Nat) (b : Byte) : (m.write a b).read a = some b := by
  simp [Memory.read_write]

theorem Memory.read_write_other (m : Memory) {a k : Nat} (b : Byte) (h : k ≠ a) : (m.write a b).read k = m.read k := by
  simp [Memory.read_write, h]

/-- A bound below every index of a buffer. -/
theorem Memory.write_above {m : Memory} {a i : Nat} {b : Byte} (hi : i < a)
    (h : m.all (fun c => decide (i < c.1)) = true) : (m.write a b).all (fun c => decide (i < c.1)) = true := by
  induction m with
  | nil => simp [Memory.write, hi]
  | cons c m ih =>
    obtain ⟨k, v⟩ := c
    simp only [List.all_cons, Bool.and_eq_true, decide_eq_true_eq] at h
    unfold Memory.write
    split
    · simp only [List.all_cons, Bool.and_eq_true, decide_eq_true_eq]
      exact ⟨hi, h.1, h.2⟩
    · split
      · simp only [List.all_cons, Bool.and_eq_true, decide_eq_true_eq]
        exact ⟨hi, h.2⟩
      · simp only [List.all_cons, Bool.and_eq_true, decide_eq_true_eq]
        exact ⟨h.1, ih h.2⟩

theorem Memory.write_wf {m : Memory} (a : Nat) (b : Byte) (h : m.wf = true) : (m.write a b).wf = true := by
  induction m with
  | nil => rfl
  | cons c m ih =>
    obtain ⟨k, v⟩ := c
    simp only [Memory.wf, Bool.and_eq_true] at h
    unfold Memory.write
    split
    · rename_i hlt
      simp only [Memory.wf, List.all_cons, Bool.and_eq_true, decide_eq_true_eq]
      refine ⟨⟨hlt, ?_⟩, h.1, h.2⟩
      simp only [List.all_eq_true, decide_eq_true_eq] at h ⊢
      intro x hx
      exact lt_trans hlt (h.1 x hx)
    · split
      · rename_i h2
        subst h2
        simp only [Memory.wf, Bool.and_eq_true]
        exact h
      · simp only [Memory.wf, Bool.and_eq_true]
        exact ⟨Memory.write_above (by omega) h.1, ih h.2⟩

theorem memWrite_wf {m : Memory} (i : Nat) (bs : List Byte) (h : m.wf = true) : (memWrite m i bs).wf = true := by
  induction bs generalizing m i with
  | nil => exact h
  | cons b bs ih => exact ih _ (Memory.write_wf i b h)

/-- What a byte reads as after `MemWrite`. -/
theorem read_memWrite (m : Memory) (i : Nat) (bs : List Byte) (k : Nat) :
    (memWrite m i bs).read k = if i ≤ k ∧ k < i + bs.length then bs[k - i]? else m.read k := by
  induction bs generalizing m i with
  | nil => simp only [memWrite, List.length_nil]; rw [if_neg (by omega)]
  | cons b bs ih =>
    rw [memWrite, ih, Memory.read_write]
    by_cases h : k = i
    · subst h; simp
    · by_cases h2 : i + 1 ≤ k ∧ k < i + 1 + bs.length
      · have h3 : i ≤ k ∧ k < i + (b :: bs).length := by simp; omega
        have h4 : k - i = (k - (i + 1)) + 1 := by omega
        rw [if_pos h2, if_pos h3, h4, List.getElem?_cons_succ]
      · have h3 : ¬ (i ≤ k ∧ k < i + (b :: bs).length) := by simp; omega
        rw [if_neg h2, if_neg h3, if_neg h]

theorem memRead_congr {m m' : Memory} {i n : Nat} (h : ∀ k, i ≤ k → k < i + n → m.read k = m'.read k) :
    memRead m i n = memRead m' i n := by
  induction n generalizing i with
  | zero => rfl
  | succ n ih =>
    simp only [memRead]
    rw [h i le_rfl (by omega), ih (i := i + 1) (fun k h1 h2 => h k (by omega) (by omega))]

/-- `MemRead` succeeds exactly on bytes that have been written. -/
theorem memRead_isSome {m : Memory} {i n : Nat} :
    (memRead m i n).isSome ↔ ∀ k, i ≤ k → k < i + n → (m.read k).isSome := by
  induction n generalizing i with
  | zero => simp [memRead]; intro k h1 h2; omega
  | succ n ih =>
    constructor
    · intro h k h1 h2
      rcases hr : m.read i with _ | b
      · simp [memRead, hr] at h
      · rcases hs : memRead m (i + 1) n with _ | r
        · simp [memRead, hr, hs] at h
        · by_cases hk : k = i
          · subst hk; simp [hr]
          · exact (ih (i := i + 1)).1 (by simp [hs]) k (by omega) (by omega)
    · intro h
      obtain ⟨b, hb⟩ := Option.isSome_iff_exists.1 (h i le_rfl (by omega))
      have hs : (memRead m (i + 1) n).isSome := ih.2 fun k h1 h2 => h k (by omega) (by omega)
      obtain ⟨r, hr⟩ := Option.isSome_iff_exists.1 hs
      simp [memRead, hb, hr]

theorem memRead_length {m : Memory} {i n : Nat} {r : List Byte} (h : memRead m i n = some r) : r.length = n := by
  induction n generalizing i r with
  | zero => simp [memRead] at h; simp [← h]
  | succ n ih =>
    simp only [memRead] at h
    split at h
    · rename_i b r' h1 h2
      simp only [Option.some.injEq] at h
      simp [← h, ih h2]
    · cases h

/-- Reading back what `MemWrite` has written. -/
theorem memRead_memWrite (m : Memory) (i : Nat) (bs : List Byte) : memRead (memWrite m i bs) i bs.length = some bs := by
  induction bs generalizing m i with
  | nil => rfl
  | cons b bs ih =>
    have h : (memWrite m i (b :: bs)).read i = some b := by rw [read_memWrite]; simp
    simp only [List.length_cons, memRead, h]
    rw [memWrite, ih]

theorem bufferOk_write {m : Memory} {n a : Nat} (b : Byte) (h : bufferOk m n) (ha : a < n) : bufferOk (m.write a b) n := by
  refine ⟨Memory.write_wf a b h.1, fun k hk => ?_⟩
  rw [Memory.read_write] at hk
  split at hk
  · omega
  · exact h.2 k hk

theorem bufferOk_memWrite {m : Memory} {n : Nat} {bs : List Byte} (h : bufferOk m n) (hb : bs.length ≤ n) :
    bufferOk (memWrite m 0 bs) n := by
  refine ⟨memWrite_wf 0 bs h.1, fun k hk => ?_⟩
  rw [read_memWrite] at hk
  split at hk
  · omega
  · exact h.2 k hk

theorem writtenTo_memWrite {m : Memory} {n : Nat} {bs : List Byte} (h : n ≤ bs.length) : writtenTo (memWrite m 0 bs) n := by
  intro k hk
  rw [read_memWrite, if_pos (by omega)]
  simpa using (by omega : k < bs.length)

/-- No byte of any buffer has been written at reset, so the buffers are in canonical form. -/
theorem reset_buffers : State.reset.rxPayload = [] ∧ State.reset.txBuf = [] ∧ State.reset.respBuf = [] := ⟨rfl, rfl, rfl⟩

theorem reset_buffers_wf :
    State.reset.rxPayload.wf = true ∧ State.reset.txBuf.wf = true ∧ State.reset.respBuf.wf = true := ⟨rfl, rfl, rfl⟩

end Sys2Proof.Machine
end

