-- ==== Sys2Proof/Laws/State.lean ====
section
/-! SUPPORT. One lemma per field per update of the state, so that no proof unfolds a record update. -/

namespace Sys2Proof.Machine

variable (s : State)

/-! `State.raise` -/
@[simp] theorem State.raise_cons (x : Result) : (s.raise x).cons = s.cons := rfl
@[simp] theorem State.raise_cfgTimeoutMs (x : Result) : (s.raise x).cfgTimeoutMs = s.cfgTimeoutMs := rfl
@[simp] theorem State.raise_dstate (x : Result) : (s.raise x).dstate = s.dstate := rfl
@[simp] theorem State.raise_dRemain (x : Result) : (s.raise x).dRemain = s.dRemain := rfl
@[simp] theorem State.raise_rxDest (x : Result) : (s.raise x).rxDest = s.rxDest := rfl
@[simp] theorem State.raise_rxSrc (x : Result) : (s.raise x).rxSrc = s.rxSrc := rfl
@[simp] theorem State.raise_rxCmd (x : Result) : (s.raise x).rxCmd = s.rxCmd := rfl
@[simp] theorem State.raise_rxLen (x : Result) : (s.raise x).rxLen = s.rxLen := rfl
@[simp] theorem State.raise_rxPayload (x : Result) : (s.raise x).rxPayload = s.rxPayload := rfl
@[simp] theorem State.raise_rxChk (x : Result) : (s.raise x).rxChk = s.rxChk := rfl
@[simp] theorem State.raise_frameReady (x : Result) : (s.raise x).frameReady = s.frameReady := rfl
@[simp] theorem State.raise_tstate (x : Result) : (s.raise x).tstate = .idle := rfl
@[simp] theorem State.raise_tKind (x : Result) : (s.raise x).tKind = s.tKind := rfl
@[simp] theorem State.raise_tDest (x : Result) : (s.raise x).tDest = s.tDest := rfl
@[simp] theorem State.raise_tCmd (x : Result) : (s.raise x).tCmd = s.tCmd := rfl
@[simp] theorem State.raise_tTimeout (x : Result) : (s.raise x).tTimeout = s.tTimeout := rfl
@[simp] theorem State.raise_tStart (x : Result) : (s.raise x).tStart = s.tStart := rfl
@[simp] theorem State.raise_tHasBuf (x : Result) : (s.raise x).tHasBuf = s.tHasBuf := rfl
@[simp] theorem State.raise_tCap (x : Result) : (s.raise x).tCap = s.tCap := rfl
@[simp] theorem State.raise_tDesc (x : Result) : (s.raise x).tDesc = s.tDesc := rfl
@[simp] theorem State.raise_tArg0 (x : Result) : (s.raise x).tArg0 = s.tArg0 := rfl
@[simp] theorem State.raise_tMotorCap (x : Result) : (s.raise x).tMotorCap = s.tMotorCap := rfl
@[simp] theorem State.raise_txBuf (x : Result) : (s.raise x).txBuf = s.txBuf := rfl
@[simp] theorem State.raise_txLen (x : Result) : (s.raise x).txLen = s.txLen := rfl
@[simp] theorem State.raise_txDest (x : Result) : (s.raise x).txDest = s.txDest := rfl
@[simp] theorem State.raise_result (x : Result) : (s.raise x).result = x := rfl
@[simp] theorem State.raise_remoteErr (x : Result) : (s.raise x).remoteErr = s.remoteErr := rfl
@[simp] theorem State.raise_respBuf (x : Result) : (s.raise x).respBuf = s.respBuf := rfl
@[simp] theorem State.raise_respLen (x : Result) : (s.raise x).respLen = s.respLen := rfl
@[simp] theorem State.raise_catOut (x : Result) : (s.raise x).catOut = s.catOut := rfl
@[simp] theorem State.raise_strobes (x : Result) : (s.raise x).strobes = { s.strobes with done := true } := rfl
@[simp] theorem State.raise_delay (x : Result) : (s.raise x).delay = s.delay := rfl
@[simp] theorem State.raise_sendOpen (x : Result) : (s.raise x).sendOpen = s.sendOpen := rfl
@[simp] theorem State.raise_resultWritten (x : Result) : (s.raise x).resultWritten = true := rfl
@[simp] theorem State.raise_remoteErrWritten (x : Result) : (s.raise x).remoteErrWritten = s.remoteErrWritten := rfl
@[simp] theorem State.raise_respWritten (x : Result) : (s.raise x).respWritten = s.respWritten := rfl
@[simp] theorem State.raise_fnOut (x : Result) : (s.raise x).fnOut = s.fnOut := rfl
@[simp] theorem State.raise_freeCtr (x : Result) : (s.raise x).freeCtr = s.freeCtr := rfl
@[simp] theorem State.raise_inbox (x : Result) : (s.raise x).inbox = s.inbox := rfl

/-! `State.raiseRecv` -/
@[simp] theorem State.raiseRecv_cons (x : Result) : (s.raiseRecv x).cons = s.cons := rfl
@[simp] theorem State.raiseRecv_cfgTimeoutMs (x : Result) : (s.raiseRecv x).cfgTimeoutMs = s.cfgTimeoutMs := rfl
@[simp] theorem State.raiseRecv_dstate (x : Result) : (s.raiseRecv x).dstate = s.dstate := rfl
@[simp] theorem State.raiseRecv_dRemain (x : Result) : (s.raiseRecv x).dRemain = s.dRemain := rfl
@[simp] theorem State.raiseRecv_rxDest (x : Result) : (s.raiseRecv x).rxDest = s.rxDest := rfl
@[simp] theorem State.raiseRecv_rxSrc (x : Result) : (s.raiseRecv x).rxSrc = s.rxSrc := rfl
@[simp] theorem State.raiseRecv_rxCmd (x : Result) : (s.raiseRecv x).rxCmd = s.rxCmd := rfl
@[simp] theorem State.raiseRecv_rxLen (x : Result) : (s.raiseRecv x).rxLen = s.rxLen := rfl
@[simp] theorem State.raiseRecv_rxPayload (x : Result) : (s.raiseRecv x).rxPayload = s.rxPayload := rfl
@[simp] theorem State.raiseRecv_rxChk (x : Result) : (s.raiseRecv x).rxChk = s.rxChk := rfl
@[simp] theorem State.raiseRecv_frameReady (x : Result) : (s.raiseRecv x).frameReady = s.frameReady := rfl
@[simp] theorem State.raiseRecv_tstate (x : Result) : (s.raiseRecv x).tstate = .idle := rfl
@[simp] theorem State.raiseRecv_tKind (x : Result) : (s.raiseRecv x).tKind = s.tKind := rfl
@[simp] theorem State.raiseRecv_tDest (x : Result) : (s.raiseRecv x).tDest = s.tDest := rfl
@[simp] theorem State.raiseRecv_tCmd (x : Result) : (s.raiseRecv x).tCmd = s.tCmd := rfl
@[simp] theorem State.raiseRecv_tTimeout (x : Result) : (s.raiseRecv x).tTimeout = s.tTimeout := rfl
@[simp] theorem State.raiseRecv_tStart (x : Result) : (s.raiseRecv x).tStart = s.tStart := rfl
@[simp] theorem State.raiseRecv_tHasBuf (x : Result) : (s.raiseRecv x).tHasBuf = s.tHasBuf := rfl
@[simp] theorem State.raiseRecv_tCap (x : Result) : (s.raiseRecv x).tCap = s.tCap := rfl
@[simp] theorem State.raiseRecv_tDesc (x : Result) : (s.raiseRecv x).tDesc = s.tDesc := rfl
@[simp] theorem State.raiseRecv_tArg0 (x : Result) : (s.raiseRecv x).tArg0 = s.tArg0 := rfl
@[simp] theorem State.raiseRecv_tMotorCap (x : Result) : (s.raiseRecv x).tMotorCap = s.tMotorCap := rfl
@[simp] theorem State.raiseRecv_txBuf (x : Result) : (s.raiseRecv x).txBuf = s.txBuf := rfl
@[simp] theorem State.raiseRecv_txLen (x : Result) : (s.raiseRecv x).txLen = s.txLen := rfl
@[simp] theorem State.raiseRecv_txDest (x : Result) : (s.raiseRecv x).txDest = s.txDest := rfl
@[simp] theorem State.raiseRecv_result (x : Result) : (s.raiseRecv x).result = x := rfl
@[simp] theorem State.raiseRecv_remoteErr (x : Result) : (s.raiseRecv x).remoteErr = s.remoteErr := rfl
@[simp] theorem State.raiseRecv_respBuf (x : Result) : (s.raiseRecv x).respBuf = s.respBuf := rfl
@[simp] theorem State.raiseRecv_respLen (x : Result) : (s.raiseRecv x).respLen = s.respLen := rfl
@[simp] theorem State.raiseRecv_catOut (x : Result) : (s.raiseRecv x).catOut = s.catOut := rfl
@[simp] theorem State.raiseRecv_strobes (x : Result) : (s.raiseRecv x).strobes = { s.strobes with done := true } := rfl
@[simp] theorem State.raiseRecv_delay (x : Result) : (s.raiseRecv x).delay = .idle := rfl
@[simp] theorem State.raiseRecv_sendOpen (x : Result) : (s.raiseRecv x).sendOpen = false := rfl
@[simp] theorem State.raiseRecv_resultWritten (x : Result) : (s.raiseRecv x).resultWritten = true := rfl
@[simp] theorem State.raiseRecv_remoteErrWritten (x : Result) : (s.raiseRecv x).remoteErrWritten = s.remoteErrWritten := rfl
@[simp] theorem State.raiseRecv_respWritten (x : Result) : (s.raiseRecv x).respWritten = s.respWritten := rfl
@[simp] theorem State.raiseRecv_fnOut (x : Result) : (s.raiseRecv x).fnOut = s.fnOut := rfl
@[simp] theorem State.raiseRecv_freeCtr (x : Result) : (s.raiseRecv x).freeCtr = s.freeCtr := rfl
@[simp] theorem State.raiseRecv_inbox (x : Result) : (s.raiseRecv x).inbox = s.inbox := rfl

/-! `State.clearReady` -/
@[simp] theorem State.clearReady_cons : (s.clearReady).cons = s.cons := rfl
@[simp] theorem State.clearReady_cfgTimeoutMs : (s.clearReady).cfgTimeoutMs = s.cfgTimeoutMs := rfl
@[simp] theorem State.clearReady_dstate : (s.clearReady).dstate = s.dstate := rfl
@[simp] theorem State.clearReady_dRemain : (s.clearReady).dRemain = s.dRemain := rfl
@[simp] theorem State.clearReady_rxDest : (s.clearReady).rxDest = s.rxDest := rfl
@[simp] theorem State.clearReady_rxSrc : (s.clearReady).rxSrc = s.rxSrc := rfl
@[simp] theorem State.clearReady_rxCmd : (s.clearReady).rxCmd = s.rxCmd := rfl
@[simp] theorem State.clearReady_rxLen : (s.clearReady).rxLen = s.rxLen := rfl
@[simp] theorem State.clearReady_rxPayload : (s.clearReady).rxPayload = s.rxPayload := rfl
@[simp] theorem State.clearReady_rxChk : (s.clearReady).rxChk = s.rxChk := rfl
@[simp] theorem State.clearReady_frameReady : (s.clearReady).frameReady = false := rfl
@[simp] theorem State.clearReady_tstate : (s.clearReady).tstate = s.tstate := rfl
@[simp] theorem State.clearReady_tKind : (s.clearReady).tKind = s.tKind := rfl
@[simp] theorem State.clearReady_tDest : (s.clearReady).tDest = s.tDest := rfl
@[simp] theorem State.clearReady_tCmd : (s.clearReady).tCmd = s.tCmd := rfl
@[simp] theorem State.clearReady_tTimeout : (s.clearReady).tTimeout = s.tTimeout := rfl
@[simp] theorem State.clearReady_tStart : (s.clearReady).tStart = s.tStart := rfl
@[simp] theorem State.clearReady_tHasBuf : (s.clearReady).tHasBuf = s.tHasBuf := rfl
@[simp] theorem State.clearReady_tCap : (s.clearReady).tCap = s.tCap := rfl
@[simp] theorem State.clearReady_tDesc : (s.clearReady).tDesc = s.tDesc := rfl
@[simp] theorem State.clearReady_tArg0 : (s.clearReady).tArg0 = s.tArg0 := rfl
@[simp] theorem State.clearReady_tMotorCap : (s.clearReady).tMotorCap = s.tMotorCap := rfl
@[simp] theorem State.clearReady_txBuf : (s.clearReady).txBuf = s.txBuf := rfl
@[simp] theorem State.clearReady_txLen : (s.clearReady).txLen = s.txLen := rfl
@[simp] theorem State.clearReady_txDest : (s.clearReady).txDest = s.txDest := rfl
@[simp] theorem State.clearReady_result : (s.clearReady).result = s.result := rfl
@[simp] theorem State.clearReady_remoteErr : (s.clearReady).remoteErr = s.remoteErr := rfl
@[simp] theorem State.clearReady_respBuf : (s.clearReady).respBuf = s.respBuf := rfl
@[simp] theorem State.clearReady_respLen : (s.clearReady).respLen = s.respLen := rfl
@[simp] theorem State.clearReady_catOut : (s.clearReady).catOut = s.catOut := rfl
@[simp] theorem State.clearReady_strobes : (s.clearReady).strobes = s.strobes := rfl
@[simp] theorem State.clearReady_delay : (s.clearReady).delay = s.delay := rfl
@[simp] theorem State.clearReady_sendOpen : (s.clearReady).sendOpen = s.sendOpen := rfl
@[simp] theorem State.clearReady_resultWritten : (s.clearReady).resultWritten = s.resultWritten := rfl
@[simp] theorem State.clearReady_remoteErrWritten : (s.clearReady).remoteErrWritten = s.remoteErrWritten := rfl
@[simp] theorem State.clearReady_respWritten : (s.clearReady).respWritten = s.respWritten := rfl
@[simp] theorem State.clearReady_fnOut : (s.clearReady).fnOut = s.fnOut := rfl
@[simp] theorem State.clearReady_freeCtr : (s.clearReady).freeCtr = s.freeCtr := rfl
@[simp] theorem State.clearReady_inbox : (s.clearReady).inbox = s.inbox := rfl

/-! `State.setReady` -/
@[simp] theorem State.setReady_cons : (s.setReady).cons = s.cons := rfl
@[simp] theorem State.setReady_cfgTimeoutMs : (s.setReady).cfgTimeoutMs = s.cfgTimeoutMs := rfl
@[simp] theorem State.setReady_dstate : (s.setReady).dstate = s.dstate := rfl
@[simp] theorem State.setReady_dRemain : (s.setReady).dRemain = s.dRemain := rfl
@[simp] theorem State.setReady_rxDest : (s.setReady).rxDest = s.rxDest := rfl
@[simp] theorem State.setReady_rxSrc : (s.setReady).rxSrc = s.rxSrc := rfl
@[simp] theorem State.setReady_rxCmd : (s.setReady).rxCmd = s.rxCmd := rfl
@[simp] theorem State.setReady_rxLen : (s.setReady).rxLen = s.rxLen := rfl
@[simp] theorem State.setReady_rxPayload : (s.setReady).rxPayload = s.rxPayload := rfl
@[simp] theorem State.setReady_rxChk : (s.setReady).rxChk = s.rxChk := rfl
@[simp] theorem State.setReady_frameReady : (s.setReady).frameReady = true := rfl
@[simp] theorem State.setReady_tstate : (s.setReady).tstate = s.tstate := rfl
@[simp] theorem State.setReady_tKind : (s.setReady).tKind = s.tKind := rfl
@[simp] theorem State.setReady_tDest : (s.setReady).tDest = s.tDest := rfl
@[simp] theorem State.setReady_tCmd : (s.setReady).tCmd = s.tCmd := rfl
@[simp] theorem State.setReady_tTimeout : (s.setReady).tTimeout = s.tTimeout := rfl
@[simp] theorem State.setReady_tStart : (s.setReady).tStart = s.tStart := rfl
@[simp] theorem State.setReady_tHasBuf : (s.setReady).tHasBuf = s.tHasBuf := rfl
@[simp] theorem State.setReady_tCap : (s.setReady).tCap = s.tCap := rfl
@[simp] theorem State.setReady_tDesc : (s.setReady).tDesc = s.tDesc := rfl
@[simp] theorem State.setReady_tArg0 : (s.setReady).tArg0 = s.tArg0 := rfl
@[simp] theorem State.setReady_tMotorCap : (s.setReady).tMotorCap = s.tMotorCap := rfl
@[simp] theorem State.setReady_txBuf : (s.setReady).txBuf = s.txBuf := rfl
@[simp] theorem State.setReady_txLen : (s.setReady).txLen = s.txLen := rfl
@[simp] theorem State.setReady_txDest : (s.setReady).txDest = s.txDest := rfl
@[simp] theorem State.setReady_result : (s.setReady).result = s.result := rfl
@[simp] theorem State.setReady_remoteErr : (s.setReady).remoteErr = s.remoteErr := rfl
@[simp] theorem State.setReady_respBuf : (s.setReady).respBuf = s.respBuf := rfl
@[simp] theorem State.setReady_respLen : (s.setReady).respLen = s.respLen := rfl
@[simp] theorem State.setReady_catOut : (s.setReady).catOut = s.catOut := rfl
@[simp] theorem State.setReady_strobes : (s.setReady).strobes = s.strobes := rfl
@[simp] theorem State.setReady_delay : (s.setReady).delay = s.delay := rfl
@[simp] theorem State.setReady_sendOpen : (s.setReady).sendOpen = s.sendOpen := rfl
@[simp] theorem State.setReady_resultWritten : (s.setReady).resultWritten = s.resultWritten := rfl
@[simp] theorem State.setReady_remoteErrWritten : (s.setReady).remoteErrWritten = s.remoteErrWritten := rfl
@[simp] theorem State.setReady_respWritten : (s.setReady).respWritten = s.respWritten := rfl
@[simp] theorem State.setReady_fnOut : (s.setReady).fnOut = s.fnOut := rfl
@[simp] theorem State.setReady_freeCtr : (s.setReady).freeCtr = s.freeCtr := rfl
@[simp] theorem State.setReady_inbox : (s.setReady).inbox = s.inbox := rfl

/-! `State.strobePump` -/
@[simp] theorem State.strobePump_cons : (s.strobePump).cons = s.cons := rfl
@[simp] theorem State.strobePump_cfgTimeoutMs : (s.strobePump).cfgTimeoutMs = s.cfgTimeoutMs := rfl
@[simp] theorem State.strobePump_dstate : (s.strobePump).dstate = s.dstate := rfl
@[simp] theorem State.strobePump_dRemain : (s.strobePump).dRemain = s.dRemain := rfl
@[simp] theorem State.strobePump_rxDest : (s.strobePump).rxDest = s.rxDest := rfl
@[simp] theorem State.strobePump_rxSrc : (s.strobePump).rxSrc = s.rxSrc := rfl
@[simp] theorem State.strobePump_rxCmd : (s.strobePump).rxCmd = s.rxCmd := rfl
@[simp] theorem State.strobePump_rxLen : (s.strobePump).rxLen = s.rxLen := rfl
@[simp] theorem State.strobePump_rxPayload : (s.strobePump).rxPayload = s.rxPayload := rfl
@[simp] theorem State.strobePump_rxChk : (s.strobePump).rxChk = s.rxChk := rfl
@[simp] theorem State.strobePump_frameReady : (s.strobePump).frameReady = s.frameReady := rfl
@[simp] theorem State.strobePump_tstate : (s.strobePump).tstate = s.tstate := rfl
@[simp] theorem State.strobePump_tKind : (s.strobePump).tKind = s.tKind := rfl
@[simp] theorem State.strobePump_tDest : (s.strobePump).tDest = s.tDest := rfl
@[simp] theorem State.strobePump_tCmd : (s.strobePump).tCmd = s.tCmd := rfl
@[simp] theorem State.strobePump_tTimeout : (s.strobePump).tTimeout = s.tTimeout := rfl
@[simp] theorem State.strobePump_tStart : (s.strobePump).tStart = s.tStart := rfl
@[simp] theorem State.strobePump_tHasBuf : (s.strobePump).tHasBuf = s.tHasBuf := rfl
@[simp] theorem State.strobePump_tCap : (s.strobePump).tCap = s.tCap := rfl
@[simp] theorem State.strobePump_tDesc : (s.strobePump).tDesc = s.tDesc := rfl
@[simp] theorem State.strobePump_tArg0 : (s.strobePump).tArg0 = s.tArg0 := rfl
@[simp] theorem State.strobePump_tMotorCap : (s.strobePump).tMotorCap = s.tMotorCap := rfl
@[simp] theorem State.strobePump_txBuf : (s.strobePump).txBuf = s.txBuf := rfl
@[simp] theorem State.strobePump_txLen : (s.strobePump).txLen = s.txLen := rfl
@[simp] theorem State.strobePump_txDest : (s.strobePump).txDest = s.txDest := rfl
@[simp] theorem State.strobePump_result : (s.strobePump).result = s.result := rfl
@[simp] theorem State.strobePump_remoteErr : (s.strobePump).remoteErr = s.remoteErr := rfl
@[simp] theorem State.strobePump_respBuf : (s.strobePump).respBuf = s.respBuf := rfl
@[simp] theorem State.strobePump_respLen : (s.strobePump).respLen = s.respLen := rfl
@[simp] theorem State.strobePump_catOut : (s.strobePump).catOut = s.catOut := rfl
@[simp] theorem State.strobePump_strobes : (s.strobePump).strobes = { s.strobes with pump := s.cons.capPump } := rfl
@[simp] theorem State.strobePump_delay : (s.strobePump).delay = s.delay := rfl
@[simp] theorem State.strobePump_sendOpen : (s.strobePump).sendOpen = s.sendOpen := rfl
@[simp] theorem State.strobePump_resultWritten : (s.strobePump).resultWritten = s.resultWritten := rfl
@[simp] theorem State.strobePump_remoteErrWritten : (s.strobePump).remoteErrWritten = s.remoteErrWritten := rfl
@[simp] theorem State.strobePump_respWritten : (s.strobePump).respWritten = s.respWritten := rfl
@[simp] theorem State.strobePump_fnOut : (s.strobePump).fnOut = s.fnOut := rfl
@[simp] theorem State.strobePump_freeCtr : (s.strobePump).freeCtr = s.freeCtr := rfl
@[simp] theorem State.strobePump_inbox : (s.strobePump).inbox = s.inbox := rfl

/-! `State.requestDelay` -/
@[simp] theorem State.requestDelay_cons (now : U32) : (s.requestDelay now).cons = s.cons := rfl
@[simp] theorem State.requestDelay_cfgTimeoutMs (now : U32) : (s.requestDelay now).cfgTimeoutMs = s.cfgTimeoutMs := rfl
@[simp] theorem State.requestDelay_dstate (now : U32) : (s.requestDelay now).dstate = s.dstate := rfl
@[simp] theorem State.requestDelay_dRemain (now : U32) : (s.requestDelay now).dRemain = s.dRemain := rfl
@[simp] theorem State.requestDelay_rxDest (now : U32) : (s.requestDelay now).rxDest = s.rxDest := rfl
@[simp] theorem State.requestDelay_rxSrc (now : U32) : (s.requestDelay now).rxSrc = s.rxSrc := rfl
@[simp] theorem State.requestDelay_rxCmd (now : U32) : (s.requestDelay now).rxCmd = s.rxCmd := rfl
@[simp] theorem State.requestDelay_rxLen (now : U32) : (s.requestDelay now).rxLen = s.rxLen := rfl
@[simp] theorem State.requestDelay_rxPayload (now : U32) : (s.requestDelay now).rxPayload = s.rxPayload := rfl
@[simp] theorem State.requestDelay_rxChk (now : U32) : (s.requestDelay now).rxChk = s.rxChk := rfl
@[simp] theorem State.requestDelay_frameReady (now : U32) : (s.requestDelay now).frameReady = s.frameReady := rfl
@[simp] theorem State.requestDelay_tstate (now : U32) : (s.requestDelay now).tstate = s.tstate := rfl
@[simp] theorem State.requestDelay_tKind (now : U32) : (s.requestDelay now).tKind = s.tKind := rfl
@[simp] theorem State.requestDelay_tDest (now : U32) : (s.requestDelay now).tDest = s.tDest := rfl
@[simp] theorem State.requestDelay_tCmd (now : U32) : (s.requestDelay now).tCmd = s.tCmd := rfl
@[simp] theorem State.requestDelay_tTimeout (now : U32) : (s.requestDelay now).tTimeout = s.tTimeout := rfl
@[simp] theorem State.requestDelay_tStart (now : U32) : (s.requestDelay now).tStart = s.tStart := rfl
@[simp] theorem State.requestDelay_tHasBuf (now : U32) : (s.requestDelay now).tHasBuf = s.tHasBuf := rfl
@[simp] theorem State.requestDelay_tCap (now : U32) : (s.requestDelay now).tCap = s.tCap := rfl
@[simp] theorem State.requestDelay_tDesc (now : U32) : (s.requestDelay now).tDesc = s.tDesc := rfl
@[simp] theorem State.requestDelay_tArg0 (now : U32) : (s.requestDelay now).tArg0 = s.tArg0 := rfl
@[simp] theorem State.requestDelay_tMotorCap (now : U32) : (s.requestDelay now).tMotorCap = s.tMotorCap := rfl
@[simp] theorem State.requestDelay_txBuf (now : U32) : (s.requestDelay now).txBuf = s.txBuf := rfl
@[simp] theorem State.requestDelay_txLen (now : U32) : (s.requestDelay now).txLen = s.txLen := rfl
@[simp] theorem State.requestDelay_txDest (now : U32) : (s.requestDelay now).txDest = s.txDest := rfl
@[simp] theorem State.requestDelay_result (now : U32) : (s.requestDelay now).result = s.result := rfl
@[simp] theorem State.requestDelay_remoteErr (now : U32) : (s.requestDelay now).remoteErr = s.remoteErr := rfl
@[simp] theorem State.requestDelay_respBuf (now : U32) : (s.requestDelay now).respBuf = s.respBuf := rfl
@[simp] theorem State.requestDelay_respLen (now : U32) : (s.requestDelay now).respLen = s.respLen := rfl
@[simp] theorem State.requestDelay_catOut (now : U32) : (s.requestDelay now).catOut = s.catOut := rfl
@[simp] theorem State.requestDelay_strobes (now : U32) : (s.requestDelay now).strobes = { s.strobes with delayReq := some pollMs } := rfl
@[simp] theorem State.requestDelay_delay (now : U32) : (s.requestDelay now).delay = .running now := rfl
@[simp] theorem State.requestDelay_sendOpen (now : U32) : (s.requestDelay now).sendOpen = s.sendOpen := rfl
@[simp] theorem State.requestDelay_resultWritten (now : U32) : (s.requestDelay now).resultWritten = s.resultWritten := rfl
@[simp] theorem State.requestDelay_remoteErrWritten (now : U32) : (s.requestDelay now).remoteErrWritten = s.remoteErrWritten := rfl
@[simp] theorem State.requestDelay_respWritten (now : U32) : (s.requestDelay now).respWritten = s.respWritten := rfl
@[simp] theorem State.requestDelay_fnOut (now : U32) : (s.requestDelay now).fnOut = s.fnOut := rfl
@[simp] theorem State.requestDelay_freeCtr (now : U32) : (s.requestDelay now).freeCtr = s.freeCtr := rfl
@[simp] theorem State.requestDelay_inbox (now : U32) : (s.requestDelay now).inbox = s.inbox := rfl

/-! `State.drawn` -/
@[simp] theorem State.drawn_cons (n : Nat) : (s.drawn n).cons = s.cons := rfl
@[simp] theorem State.drawn_cfgTimeoutMs (n : Nat) : (s.drawn n).cfgTimeoutMs = s.cfgTimeoutMs := rfl
@[simp] theorem State.drawn_dstate (n : Nat) : (s.drawn n).dstate = s.dstate := rfl
@[simp] theorem State.drawn_dRemain (n : Nat) : (s.drawn n).dRemain = s.dRemain := rfl
@[simp] theorem State.drawn_rxDest (n : Nat) : (s.drawn n).rxDest = s.rxDest := rfl
@[simp] theorem State.drawn_rxSrc (n : Nat) : (s.drawn n).rxSrc = s.rxSrc := rfl
@[simp] theorem State.drawn_rxCmd (n : Nat) : (s.drawn n).rxCmd = s.rxCmd := rfl
@[simp] theorem State.drawn_rxLen (n : Nat) : (s.drawn n).rxLen = s.rxLen := rfl
@[simp] theorem State.drawn_rxPayload (n : Nat) : (s.drawn n).rxPayload = s.rxPayload := rfl
@[simp] theorem State.drawn_rxChk (n : Nat) : (s.drawn n).rxChk = s.rxChk := rfl
@[simp] theorem State.drawn_frameReady (n : Nat) : (s.drawn n).frameReady = s.frameReady := rfl
@[simp] theorem State.drawn_tstate (n : Nat) : (s.drawn n).tstate = s.tstate := rfl
@[simp] theorem State.drawn_tKind (n : Nat) : (s.drawn n).tKind = s.tKind := rfl
@[simp] theorem State.drawn_tDest (n : Nat) : (s.drawn n).tDest = s.tDest := rfl
@[simp] theorem State.drawn_tCmd (n : Nat) : (s.drawn n).tCmd = s.tCmd := rfl
@[simp] theorem State.drawn_tTimeout (n : Nat) : (s.drawn n).tTimeout = s.tTimeout := rfl
@[simp] theorem State.drawn_tStart (n : Nat) : (s.drawn n).tStart = s.tStart := rfl
@[simp] theorem State.drawn_tHasBuf (n : Nat) : (s.drawn n).tHasBuf = s.tHasBuf := rfl
@[simp] theorem State.drawn_tCap (n : Nat) : (s.drawn n).tCap = s.tCap := rfl
@[simp] theorem State.drawn_tDesc (n : Nat) : (s.drawn n).tDesc = s.tDesc := rfl
@[simp] theorem State.drawn_tArg0 (n : Nat) : (s.drawn n).tArg0 = s.tArg0 := rfl
@[simp] theorem State.drawn_tMotorCap (n : Nat) : (s.drawn n).tMotorCap = s.tMotorCap := rfl
@[simp] theorem State.drawn_txBuf (n : Nat) : (s.drawn n).txBuf = s.txBuf := rfl
@[simp] theorem State.drawn_txLen (n : Nat) : (s.drawn n).txLen = s.txLen := rfl
@[simp] theorem State.drawn_txDest (n : Nat) : (s.drawn n).txDest = s.txDest := rfl
@[simp] theorem State.drawn_result (n : Nat) : (s.drawn n).result = s.result := rfl
@[simp] theorem State.drawn_remoteErr (n : Nat) : (s.drawn n).remoteErr = s.remoteErr := rfl
@[simp] theorem State.drawn_respBuf (n : Nat) : (s.drawn n).respBuf = s.respBuf := rfl
@[simp] theorem State.drawn_respLen (n : Nat) : (s.drawn n).respLen = s.respLen := rfl
@[simp] theorem State.drawn_catOut (n : Nat) : (s.drawn n).catOut = s.catOut := rfl
@[simp] theorem State.drawn_strobes (n : Nat) : (s.drawn n).strobes = s.strobes := rfl
@[simp] theorem State.drawn_delay (n : Nat) : (s.drawn n).delay = s.delay := rfl
@[simp] theorem State.drawn_sendOpen (n : Nat) : (s.drawn n).sendOpen = s.sendOpen := rfl
@[simp] theorem State.drawn_resultWritten (n : Nat) : (s.drawn n).resultWritten = s.resultWritten := rfl
@[simp] theorem State.drawn_remoteErrWritten (n : Nat) : (s.drawn n).remoteErrWritten = s.remoteErrWritten := rfl
@[simp] theorem State.drawn_respWritten (n : Nat) : (s.drawn n).respWritten = s.respWritten := rfl
@[simp] theorem State.drawn_fnOut (n : Nat) : (s.drawn n).fnOut = s.fnOut := rfl
@[simp] theorem State.drawn_freeCtr (n : Nat) : (s.drawn n).freeCtr = s.freeCtr + n := rfl
@[simp] theorem State.drawn_inbox (n : Nat) : (s.drawn n).inbox = s.inbox := rfl

/-! `State.latchSend` -/
@[simp] theorem State.latchSend_cons (dest cmd : Byte) : (s.latchSend dest cmd).cons = s.cons := rfl
@[simp] theorem State.latchSend_cfgTimeoutMs (dest cmd : Byte) : (s.latchSend dest cmd).cfgTimeoutMs = s.cfgTimeoutMs := rfl
@[simp] theorem State.latchSend_dstate (dest cmd : Byte) : (s.latchSend dest cmd).dstate = s.dstate := rfl
@[simp] theorem State.latchSend_dRemain (dest cmd : Byte) : (s.latchSend dest cmd).dRemain = s.dRemain := rfl
@[simp] theorem State.latchSend_rxDest (dest cmd : Byte) : (s.latchSend dest cmd).rxDest = s.rxDest := rfl
@[simp] theorem State.latchSend_rxSrc (dest cmd : Byte) : (s.latchSend dest cmd).rxSrc = s.rxSrc := rfl
@[simp] theorem State.latchSend_rxCmd (dest cmd : Byte) : (s.latchSend dest cmd).rxCmd = s.rxCmd := rfl
@[simp] theorem State.latchSend_rxLen (dest cmd : Byte) : (s.latchSend dest cmd).rxLen = s.rxLen := rfl
@[simp] theorem State.latchSend_rxPayload (dest cmd : Byte) : (s.latchSend dest cmd).rxPayload = s.rxPayload := rfl
@[simp] theorem State.latchSend_rxChk (dest cmd : Byte) : (s.latchSend dest cmd).rxChk = s.rxChk := rfl
@[simp] theorem State.latchSend_frameReady (dest cmd : Byte) : (s.latchSend dest cmd).frameReady = s.frameReady := rfl
@[simp] theorem State.latchSend_tstate (dest cmd : Byte) : (s.latchSend dest cmd).tstate = s.tstate := rfl
@[simp] theorem State.latchSend_tKind (dest cmd : Byte) : (s.latchSend dest cmd).tKind = .send := rfl
@[simp] theorem State.latchSend_tDest (dest cmd : Byte) : (s.latchSend dest cmd).tDest = dest := rfl
@[simp] theorem State.latchSend_tCmd (dest cmd : Byte) : (s.latchSend dest cmd).tCmd = cmd := rfl
@[simp] theorem State.latchSend_tTimeout (dest cmd : Byte) : (s.latchSend dest cmd).tTimeout = s.tTimeout := rfl
@[simp] theorem State.latchSend_tStart (dest cmd : Byte) : (s.latchSend dest cmd).tStart = s.tStart := rfl
@[simp] theorem State.latchSend_tHasBuf (dest cmd : Byte) : (s.latchSend dest cmd).tHasBuf = s.tHasBuf := rfl
@[simp] theorem State.latchSend_tCap (dest cmd : Byte) : (s.latchSend dest cmd).tCap = s.tCap := rfl
@[simp] theorem State.latchSend_tDesc (dest cmd : Byte) : (s.latchSend dest cmd).tDesc = s.tDesc := rfl
@[simp] theorem State.latchSend_tArg0 (dest cmd : Byte) : (s.latchSend dest cmd).tArg0 = s.tArg0 := rfl
@[simp] theorem State.latchSend_tMotorCap (dest cmd : Byte) : (s.latchSend dest cmd).tMotorCap = s.tMotorCap := rfl
@[simp] theorem State.latchSend_txBuf (dest cmd : Byte) : (s.latchSend dest cmd).txBuf = s.txBuf := rfl
@[simp] theorem State.latchSend_txLen (dest cmd : Byte) : (s.latchSend dest cmd).txLen = s.txLen := rfl
@[simp] theorem State.latchSend_txDest (dest cmd : Byte) : (s.latchSend dest cmd).txDest = s.txDest := rfl
@[simp] theorem State.latchSend_result (dest cmd : Byte) : (s.latchSend dest cmd).result = s.result := rfl
@[simp] theorem State.latchSend_remoteErr (dest cmd : Byte) : (s.latchSend dest cmd).remoteErr = s.remoteErr := rfl
@[simp] theorem State.latchSend_respBuf (dest cmd : Byte) : (s.latchSend dest cmd).respBuf = s.respBuf := rfl
@[simp] theorem State.latchSend_respLen (dest cmd : Byte) : (s.latchSend dest cmd).respLen = s.respLen := rfl
@[simp] theorem State.latchSend_catOut (dest cmd : Byte) : (s.latchSend dest cmd).catOut = s.catOut := rfl
@[simp] theorem State.latchSend_strobes (dest cmd : Byte) : (s.latchSend dest cmd).strobes = s.strobes := rfl
@[simp] theorem State.latchSend_delay (dest cmd : Byte) : (s.latchSend dest cmd).delay = s.delay := rfl
@[simp] theorem State.latchSend_sendOpen (dest cmd : Byte) : (s.latchSend dest cmd).sendOpen = s.sendOpen := rfl
@[simp] theorem State.latchSend_resultWritten (dest cmd : Byte) : (s.latchSend dest cmd).resultWritten = s.resultWritten := rfl
@[simp] theorem State.latchSend_remoteErrWritten (dest cmd : Byte) : (s.latchSend dest cmd).remoteErrWritten = s.remoteErrWritten := rfl
@[simp] theorem State.latchSend_respWritten (dest cmd : Byte) : (s.latchSend dest cmd).respWritten = s.respWritten := rfl
@[simp] theorem State.latchSend_fnOut (dest cmd : Byte) : (s.latchSend dest cmd).fnOut = s.fnOut := rfl
@[simp] theorem State.latchSend_freeCtr (dest cmd : Byte) : (s.latchSend dest cmd).freeCtr = s.freeCtr := rfl
@[simp] theorem State.latchSend_inbox (dest cmd : Byte) : (s.latchSend dest cmd).inbox = s.inbox := rfl

/-! `State.latchXfer` -/
@[simp] theorem State.latchXfer_cons (dest cmd : Byte) (hasBuf : Bool) (cap : Byte) : (s.latchXfer dest cmd hasBuf cap).cons = s.cons := rfl
@[simp] theorem State.latchXfer_cfgTimeoutMs (dest cmd : Byte) (hasBuf : Bool) (cap : Byte) : (s.latchXfer dest cmd hasBuf cap).cfgTimeoutMs = s.cfgTimeoutMs := rfl
@[simp] theorem State.latchXfer_dstate (dest cmd : Byte) (hasBuf : Bool) (cap : Byte) : (s.latchXfer dest cmd hasBuf cap).dstate = s.dstate := rfl
@[simp] theorem State.latchXfer_dRemain (dest cmd : Byte) (hasBuf : Bool) (cap : Byte) : (s.latchXfer dest cmd hasBuf cap).dRemain = s.dRemain := rfl
@[simp] theorem State.latchXfer_rxDest (dest cmd : Byte) (hasBuf : Bool) (cap : Byte) : (s.latchXfer dest cmd hasBuf cap).rxDest = s.rxDest := rfl
@[simp] theorem State.latchXfer_rxSrc (dest cmd : Byte) (hasBuf : Bool) (cap : Byte) : (s.latchXfer dest cmd hasBuf cap).rxSrc = s.rxSrc := rfl
@[simp] theorem State.latchXfer_rxCmd (dest cmd : Byte) (hasBuf : Bool) (cap : Byte) : (s.latchXfer dest cmd hasBuf cap).rxCmd = s.rxCmd := rfl
@[simp] theorem State.latchXfer_rxLen (dest cmd : Byte) (hasBuf : Bool) (cap : Byte) : (s.latchXfer dest cmd hasBuf cap).rxLen = s.rxLen := rfl
@[simp] theorem State.latchXfer_rxPayload (dest cmd : Byte) (hasBuf : Bool) (cap : Byte) : (s.latchXfer dest cmd hasBuf cap).rxPayload = s.rxPayload := rfl
@[simp] theorem State.latchXfer_rxChk (dest cmd : Byte) (hasBuf : Bool) (cap : Byte) : (s.latchXfer dest cmd hasBuf cap).rxChk = s.rxChk := rfl
@[simp] theorem State.latchXfer_frameReady (dest cmd : Byte) (hasBuf : Bool) (cap : Byte) : (s.latchXfer dest cmd hasBuf cap).frameReady = s.frameReady := rfl
@[simp] theorem State.latchXfer_tstate (dest cmd : Byte) (hasBuf : Bool) (cap : Byte) : (s.latchXfer dest cmd hasBuf cap).tstate = s.tstate := rfl
@[simp] theorem State.latchXfer_tKind (dest cmd : Byte) (hasBuf : Bool) (cap : Byte) : (s.latchXfer dest cmd hasBuf cap).tKind = .xfer := rfl
@[simp] theorem State.latchXfer_tDest (dest cmd : Byte) (hasBuf : Bool) (cap : Byte) : (s.latchXfer dest cmd hasBuf cap).tDest = dest := rfl
@[simp] theorem State.latchXfer_tCmd (dest cmd : Byte) (hasBuf : Bool) (cap : Byte) : (s.latchXfer dest cmd hasBuf cap).tCmd = cmd := rfl
@[simp] theorem State.latchXfer_tTimeout (dest cmd : Byte) (hasBuf : Bool) (cap : Byte) : (s.latchXfer dest cmd hasBuf cap).tTimeout = s.tTimeout := rfl
@[simp] theorem State.latchXfer_tStart (dest cmd : Byte) (hasBuf : Bool) (cap : Byte) : (s.latchXfer dest cmd hasBuf cap).tStart = s.tStart := rfl
@[simp] theorem State.latchXfer_tHasBuf (dest cmd : Byte) (hasBuf : Bool) (cap : Byte) : (s.latchXfer dest cmd hasBuf cap).tHasBuf = hasBuf := rfl
@[simp] theorem State.latchXfer_tCap (dest cmd : Byte) (hasBuf : Bool) (cap : Byte) : (s.latchXfer dest cmd hasBuf cap).tCap = cap := rfl
@[simp] theorem State.latchXfer_tDesc (dest cmd : Byte) (hasBuf : Bool) (cap : Byte) : (s.latchXfer dest cmd hasBuf cap).tDesc = s.tDesc := rfl
@[simp] theorem State.latchXfer_tArg0 (dest cmd : Byte) (hasBuf : Bool) (cap : Byte) : (s.latchXfer dest cmd hasBuf cap).tArg0 = s.tArg0 := rfl
@[simp] theorem State.latchXfer_tMotorCap (dest cmd : Byte) (hasBuf : Bool) (cap : Byte) : (s.latchXfer dest cmd hasBuf cap).tMotorCap = s.tMotorCap := rfl
@[simp] theorem State.latchXfer_txBuf (dest cmd : Byte) (hasBuf : Bool) (cap : Byte) : (s.latchXfer dest cmd hasBuf cap).txBuf = s.txBuf := rfl
@[simp] theorem State.latchXfer_txLen (dest cmd : Byte) (hasBuf : Bool) (cap : Byte) : (s.latchXfer dest cmd hasBuf cap).txLen = s.txLen := rfl
@[simp] theorem State.latchXfer_txDest (dest cmd : Byte) (hasBuf : Bool) (cap : Byte) : (s.latchXfer dest cmd hasBuf cap).txDest = s.txDest := rfl
@[simp] theorem State.latchXfer_result (dest cmd : Byte) (hasBuf : Bool) (cap : Byte) : (s.latchXfer dest cmd hasBuf cap).result = s.result := rfl
@[simp] theorem State.latchXfer_remoteErr (dest cmd : Byte) (hasBuf : Bool) (cap : Byte) : (s.latchXfer dest cmd hasBuf cap).remoteErr = s.remoteErr := rfl
@[simp] theorem State.latchXfer_respBuf (dest cmd : Byte) (hasBuf : Bool) (cap : Byte) : (s.latchXfer dest cmd hasBuf cap).respBuf = s.respBuf := rfl
@[simp] theorem State.latchXfer_respLen (dest cmd : Byte) (hasBuf : Bool) (cap : Byte) : (s.latchXfer dest cmd hasBuf cap).respLen = s.respLen := rfl
@[simp] theorem State.latchXfer_catOut (dest cmd : Byte) (hasBuf : Bool) (cap : Byte) : (s.latchXfer dest cmd hasBuf cap).catOut = s.catOut := rfl
@[simp] theorem State.latchXfer_strobes (dest cmd : Byte) (hasBuf : Bool) (cap : Byte) : (s.latchXfer dest cmd hasBuf cap).strobes = s.strobes := rfl
@[simp] theorem State.latchXfer_delay (dest cmd : Byte) (hasBuf : Bool) (cap : Byte) : (s.latchXfer dest cmd hasBuf cap).delay = s.delay := rfl
@[simp] theorem State.latchXfer_sendOpen (dest cmd : Byte) (hasBuf : Bool) (cap : Byte) : (s.latchXfer dest cmd hasBuf cap).sendOpen = s.sendOpen := rfl
@[simp] theorem State.latchXfer_resultWritten (dest cmd : Byte) (hasBuf : Bool) (cap : Byte) : (s.latchXfer dest cmd hasBuf cap).resultWritten = s.resultWritten := rfl
@[simp] theorem State.latchXfer_remoteErrWritten (dest cmd : Byte) (hasBuf : Bool) (cap : Byte) : (s.latchXfer dest cmd hasBuf cap).remoteErrWritten = s.remoteErrWritten := rfl
@[simp] theorem State.latchXfer_respWritten (dest cmd : Byte) (hasBuf : Bool) (cap : Byte) : (s.latchXfer dest cmd hasBuf cap).respWritten = s.respWritten := rfl
@[simp] theorem State.latchXfer_fnOut (dest cmd : Byte) (hasBuf : Bool) (cap : Byte) : (s.latchXfer dest cmd hasBuf cap).fnOut = s.fnOut := rfl
@[simp] theorem State.latchXfer_freeCtr (dest cmd : Byte) (hasBuf : Bool) (cap : Byte) : (s.latchXfer dest cmd hasBuf cap).freeCtr = s.freeCtr := rfl
@[simp] theorem State.latchXfer_inbox (dest cmd : Byte) (hasBuf : Bool) (cap : Byte) : (s.latchXfer dest cmd hasBuf cap).inbox = s.inbox := rfl

/-! `State.latchCat` -/
@[simp] theorem State.latchCat_cons (idx dest : Byte) (d : Descriptor) (arg0 motorCap : Byte) : (s.latchCat idx dest d arg0 motorCap).cons = s.cons := rfl
@[simp] theorem State.latchCat_cfgTimeoutMs (idx dest : Byte) (d : Descriptor) (arg0 motorCap : Byte) : (s.latchCat idx dest d arg0 motorCap).cfgTimeoutMs = s.cfgTimeoutMs := rfl
@[simp] theorem State.latchCat_dstate (idx dest : Byte) (d : Descriptor) (arg0 motorCap : Byte) : (s.latchCat idx dest d arg0 motorCap).dstate = s.dstate := rfl
@[simp] theorem State.latchCat_dRemain (idx dest : Byte) (d : Descriptor) (arg0 motorCap : Byte) : (s.latchCat idx dest d arg0 motorCap).dRemain = s.dRemain := rfl
@[simp] theorem State.latchCat_rxDest (idx dest : Byte) (d : Descriptor) (arg0 motorCap : Byte) : (s.latchCat idx dest d arg0 motorCap).rxDest = s.rxDest := rfl
@[simp] theorem State.latchCat_rxSrc (idx dest : Byte) (d : Descriptor) (arg0 motorCap : Byte) : (s.latchCat idx dest d arg0 motorCap).rxSrc = s.rxSrc := rfl
@[simp] theorem State.latchCat_rxCmd (idx dest : Byte) (d : Descriptor) (arg0 motorCap : Byte) : (s.latchCat idx dest d arg0 motorCap).rxCmd = s.rxCmd := rfl
@[simp] theorem State.latchCat_rxLen (idx dest : Byte) (d : Descriptor) (arg0 motorCap : Byte) : (s.latchCat idx dest d arg0 motorCap).rxLen = s.rxLen := rfl
@[simp] theorem State.latchCat_rxPayload (idx dest : Byte) (d : Descriptor) (arg0 motorCap : Byte) : (s.latchCat idx dest d arg0 motorCap).rxPayload = s.rxPayload := rfl
@[simp] theorem State.latchCat_rxChk (idx dest : Byte) (d : Descriptor) (arg0 motorCap : Byte) : (s.latchCat idx dest d arg0 motorCap).rxChk = s.rxChk := rfl
@[simp] theorem State.latchCat_frameReady (idx dest : Byte) (d : Descriptor) (arg0 motorCap : Byte) : (s.latchCat idx dest d arg0 motorCap).frameReady = s.frameReady := rfl
@[simp] theorem State.latchCat_tstate (idx dest : Byte) (d : Descriptor) (arg0 motorCap : Byte) : (s.latchCat idx dest d arg0 motorCap).tstate = s.tstate := rfl
@[simp] theorem State.latchCat_tKind (idx dest : Byte) (d : Descriptor) (arg0 motorCap : Byte) : (s.latchCat idx dest d arg0 motorCap).tKind = .cat := rfl
@[simp] theorem State.latchCat_tDest (idx dest : Byte) (d : Descriptor) (arg0 motorCap : Byte) : (s.latchCat idx dest d arg0 motorCap).tDest = dest := rfl
@[simp] theorem State.latchCat_tCmd (idx dest : Byte) (d : Descriptor) (arg0 motorCap : Byte) : (s.latchCat idx dest d arg0 motorCap).tCmd = d.cmd := rfl
@[simp] theorem State.latchCat_tTimeout (idx dest : Byte) (d : Descriptor) (arg0 motorCap : Byte) : (s.latchCat idx dest d arg0 motorCap).tTimeout = s.tTimeout := rfl
@[simp] theorem State.latchCat_tStart (idx dest : Byte) (d : Descriptor) (arg0 motorCap : Byte) : (s.latchCat idx dest d arg0 motorCap).tStart = s.tStart := rfl
@[simp] theorem State.latchCat_tHasBuf (idx dest : Byte) (d : Descriptor) (arg0 motorCap : Byte) : (s.latchCat idx dest d arg0 motorCap).tHasBuf = true := rfl
@[simp] theorem State.latchCat_tCap (idx dest : Byte) (d : Descriptor) (arg0 motorCap : Byte) : (s.latchCat idx dest d arg0 motorCap).tCap = d.respCap := rfl
@[simp] theorem State.latchCat_tDesc (idx dest : Byte) (d : Descriptor) (arg0 motorCap : Byte) : (s.latchCat idx dest d arg0 motorCap).tDesc = idx := rfl
@[simp] theorem State.latchCat_tArg0 (idx dest : Byte) (d : Descriptor) (arg0 motorCap : Byte) : (s.latchCat idx dest d arg0 motorCap).tArg0 = arg0 := rfl
@[simp] theorem State.latchCat_tMotorCap (idx dest : Byte) (d : Descriptor) (arg0 motorCap : Byte) : (s.latchCat idx dest d arg0 motorCap).tMotorCap = motorCap := rfl
@[simp] theorem State.latchCat_txBuf (idx dest : Byte) (d : Descriptor) (arg0 motorCap : Byte) : (s.latchCat idx dest d arg0 motorCap).txBuf = s.txBuf := rfl
@[simp] theorem State.latchCat_txLen (idx dest : Byte) (d : Descriptor) (arg0 motorCap : Byte) : (s.latchCat idx dest d arg0 motorCap).txLen = s.txLen := rfl
@[simp] theorem State.latchCat_txDest (idx dest : Byte) (d : Descriptor) (arg0 motorCap : Byte) : (s.latchCat idx dest d arg0 motorCap).txDest = s.txDest := rfl
@[simp] theorem State.latchCat_result (idx dest : Byte) (d : Descriptor) (arg0 motorCap : Byte) : (s.latchCat idx dest d arg0 motorCap).result = s.result := rfl
@[simp] theorem State.latchCat_remoteErr (idx dest : Byte) (d : Descriptor) (arg0 motorCap : Byte) : (s.latchCat idx dest d arg0 motorCap).remoteErr = s.remoteErr := rfl
@[simp] theorem State.latchCat_respBuf (idx dest : Byte) (d : Descriptor) (arg0 motorCap : Byte) : (s.latchCat idx dest d arg0 motorCap).respBuf = s.respBuf := rfl
@[simp] theorem State.latchCat_respLen (idx dest : Byte) (d : Descriptor) (arg0 motorCap : Byte) : (s.latchCat idx dest d arg0 motorCap).respLen = s.respLen := rfl
@[simp] theorem State.latchCat_catOut (idx dest : Byte) (d : Descriptor) (arg0 motorCap : Byte) : (s.latchCat idx dest d arg0 motorCap).catOut = s.catOut := rfl
@[simp] theorem State.latchCat_strobes (idx dest : Byte) (d : Descriptor) (arg0 motorCap : Byte) : (s.latchCat idx dest d arg0 motorCap).strobes = s.strobes := rfl
@[simp] theorem State.latchCat_delay (idx dest : Byte) (d : Descriptor) (arg0 motorCap : Byte) : (s.latchCat idx dest d arg0 motorCap).delay = s.delay := rfl
@[simp] theorem State.latchCat_sendOpen (idx dest : Byte) (d : Descriptor) (arg0 motorCap : Byte) : (s.latchCat idx dest d arg0 motorCap).sendOpen = s.sendOpen := rfl
@[simp] theorem State.latchCat_resultWritten (idx dest : Byte) (d : Descriptor) (arg0 motorCap : Byte) : (s.latchCat idx dest d arg0 motorCap).resultWritten = s.resultWritten := rfl
@[simp] theorem State.latchCat_remoteErrWritten (idx dest : Byte) (d : Descriptor) (arg0 motorCap : Byte) : (s.latchCat idx dest d arg0 motorCap).remoteErrWritten = s.remoteErrWritten := rfl
@[simp] theorem State.latchCat_respWritten (idx dest : Byte) (d : Descriptor) (arg0 motorCap : Byte) : (s.latchCat idx dest d arg0 motorCap).respWritten = s.respWritten := rfl
@[simp] theorem State.latchCat_fnOut (idx dest : Byte) (d : Descriptor) (arg0 motorCap : Byte) : (s.latchCat idx dest d arg0 motorCap).fnOut = s.fnOut := rfl
@[simp] theorem State.latchCat_freeCtr (idx dest : Byte) (d : Descriptor) (arg0 motorCap : Byte) : (s.latchCat idx dest d arg0 motorCap).freeCtr = s.freeCtr := rfl
@[simp] theorem State.latchCat_inbox (idx dest : Byte) (d : Descriptor) (arg0 motorCap : Byte) : (s.latchCat idx dest d arg0 motorCap).inbox = s.inbox := rfl

/-! `State.transmit` -/
@[simp] theorem State.transmit_cons (dest : Byte) (f : List Byte) : (s.transmit dest f).cons = s.cons := rfl
@[simp] theorem State.transmit_cfgTimeoutMs (dest : Byte) (f : List Byte) : (s.transmit dest f).cfgTimeoutMs = s.cfgTimeoutMs := rfl
@[simp] theorem State.transmit_dstate (dest : Byte) (f : List Byte) : (s.transmit dest f).dstate = s.dstate := rfl
@[simp] theorem State.transmit_dRemain (dest : Byte) (f : List Byte) : (s.transmit dest f).dRemain = s.dRemain := rfl
@[simp] theorem State.transmit_rxDest (dest : Byte) (f : List Byte) : (s.transmit dest f).rxDest = s.rxDest := rfl
@[simp] theorem State.transmit_rxSrc (dest : Byte) (f : List Byte) : (s.transmit dest f).rxSrc = s.rxSrc := rfl
@[simp] theorem State.transmit_rxCmd (dest : Byte) (f : List Byte) : (s.transmit dest f).rxCmd = s.rxCmd := rfl
@[simp] theorem State.transmit_rxLen (dest : Byte) (f : List Byte) : (s.transmit dest f).rxLen = s.rxLen := rfl
@[simp] theorem State.transmit_rxPayload (dest : Byte) (f : List Byte) : (s.transmit dest f).rxPayload = s.rxPayload := rfl
@[simp] theorem State.transmit_rxChk (dest : Byte) (f : List Byte) : (s.transmit dest f).rxChk = s.rxChk := rfl
@[simp] theorem State.transmit_frameReady (dest : Byte) (f : List Byte) : (s.transmit dest f).frameReady = s.frameReady := rfl
@[simp] theorem State.transmit_tstate (dest : Byte) (f : List Byte) : (s.transmit dest f).tstate = .tx := rfl
@[simp] theorem State.transmit_tKind (dest : Byte) (f : List Byte) : (s.transmit dest f).tKind = s.tKind := rfl
@[simp] theorem State.transmit_tDest (dest : Byte) (f : List Byte) : (s.transmit dest f).tDest = s.tDest := rfl
@[simp] theorem State.transmit_tCmd (dest : Byte) (f : List Byte) : (s.transmit dest f).tCmd = s.tCmd := rfl
@[simp] theorem State.transmit_tTimeout (dest : Byte) (f : List Byte) : (s.transmit dest f).tTimeout = s.tTimeout := rfl
@[simp] theorem State.transmit_tStart (dest : Byte) (f : List Byte) : (s.transmit dest f).tStart = s.tStart := rfl
@[simp] theorem State.transmit_tHasBuf (dest : Byte) (f : List Byte) : (s.transmit dest f).tHasBuf = s.tHasBuf := rfl
@[simp] theorem State.transmit_tCap (dest : Byte) (f : List Byte) : (s.transmit dest f).tCap = s.tCap := rfl
@[simp] theorem State.transmit_tDesc (dest : Byte) (f : List Byte) : (s.transmit dest f).tDesc = s.tDesc := rfl
@[simp] theorem State.transmit_tArg0 (dest : Byte) (f : List Byte) : (s.transmit dest f).tArg0 = s.tArg0 := rfl
@[simp] theorem State.transmit_tMotorCap (dest : Byte) (f : List Byte) : (s.transmit dest f).tMotorCap = s.tMotorCap := rfl
@[simp] theorem State.transmit_txBuf (dest : Byte) (f : List Byte) : (s.transmit dest f).txBuf = memWrite s.txBuf 0 f := rfl
@[simp] theorem State.transmit_txLen (dest : Byte) (f : List Byte) : (s.transmit dest f).txLen = BitVec.ofNat 7 f.length := rfl
@[simp] theorem State.transmit_txDest (dest : Byte) (f : List Byte) : (s.transmit dest f).txDest = dest := rfl
@[simp] theorem State.transmit_result (dest : Byte) (f : List Byte) : (s.transmit dest f).result = s.result := rfl
@[simp] theorem State.transmit_remoteErr (dest : Byte) (f : List Byte) : (s.transmit dest f).remoteErr = s.remoteErr := rfl
@[simp] theorem State.transmit_respBuf (dest : Byte) (f : List Byte) : (s.transmit dest f).respBuf = s.respBuf := rfl
@[simp] theorem State.transmit_respLen (dest : Byte) (f : List Byte) : (s.transmit dest f).respLen = s.respLen := rfl
@[simp] theorem State.transmit_catOut (dest : Byte) (f : List Byte) : (s.transmit dest f).catOut = s.catOut := rfl
@[simp] theorem State.transmit_strobes (dest : Byte) (f : List Byte) : (s.transmit dest f).strobes = { s.strobes with txReq := true } := rfl
@[simp] theorem State.transmit_delay (dest : Byte) (f : List Byte) : (s.transmit dest f).delay = s.delay := rfl
@[simp] theorem State.transmit_sendOpen (dest : Byte) (f : List Byte) : (s.transmit dest f).sendOpen = s.sendOpen := rfl
@[simp] theorem State.transmit_resultWritten (dest : Byte) (f : List Byte) : (s.transmit dest f).resultWritten = s.resultWritten := rfl
@[simp] theorem State.transmit_remoteErrWritten (dest : Byte) (f : List Byte) : (s.transmit dest f).remoteErrWritten = s.remoteErrWritten := rfl
@[simp] theorem State.transmit_respWritten (dest : Byte) (f : List Byte) : (s.transmit dest f).respWritten = s.respWritten := rfl
@[simp] theorem State.transmit_fnOut (dest : Byte) (f : List Byte) : (s.transmit dest f).fnOut = s.fnOut := rfl
@[simp] theorem State.transmit_freeCtr (dest : Byte) (f : List Byte) : (s.transmit dest f).freeCtr = s.freeCtr := rfl
@[simp] theorem State.transmit_inbox (dest : Byte) (f : List Byte) : (s.transmit dest f).inbox = s.inbox := rfl

/-! `State.startReceive` -/
@[simp] theorem State.startReceive_cons (t now : U32) : (s.startReceive t now).cons = s.cons := rfl
@[simp] theorem State.startReceive_cfgTimeoutMs (t now : U32) : (s.startReceive t now).cfgTimeoutMs = s.cfgTimeoutMs := rfl
@[simp] theorem State.startReceive_dstate (t now : U32) : (s.startReceive t now).dstate = s.dstate := rfl
@[simp] theorem State.startReceive_dRemain (t now : U32) : (s.startReceive t now).dRemain = s.dRemain := rfl
@[simp] theorem State.startReceive_rxDest (t now : U32) : (s.startReceive t now).rxDest = s.rxDest := rfl
@[simp] theorem State.startReceive_rxSrc (t now : U32) : (s.startReceive t now).rxSrc = s.rxSrc := rfl
@[simp] theorem State.startReceive_rxCmd (t now : U32) : (s.startReceive t now).rxCmd = s.rxCmd := rfl
@[simp] theorem State.startReceive_rxLen (t now : U32) : (s.startReceive t now).rxLen = s.rxLen := rfl
@[simp] theorem State.startReceive_rxPayload (t now : U32) : (s.startReceive t now).rxPayload = s.rxPayload := rfl
@[simp] theorem State.startReceive_rxChk (t now : U32) : (s.startReceive t now).rxChk = s.rxChk := rfl
@[simp] theorem State.startReceive_frameReady (t now : U32) : (s.startReceive t now).frameReady = s.frameReady := rfl
@[simp] theorem State.startReceive_tstate (t now : U32) : (s.startReceive t now).tstate = .wait := rfl
@[simp] theorem State.startReceive_tKind (t now : U32) : (s.startReceive t now).tKind = s.tKind := rfl
@[simp] theorem State.startReceive_tDest (t now : U32) : (s.startReceive t now).tDest = s.tDest := rfl
@[simp] theorem State.startReceive_tCmd (t now : U32) : (s.startReceive t now).tCmd = s.tCmd := rfl
@[simp] theorem State.startReceive_tTimeout (t now : U32) : (s.startReceive t now).tTimeout = t := rfl
@[simp] theorem State.startReceive_tStart (t now : U32) : (s.startReceive t now).tStart = now := rfl
@[simp] theorem State.startReceive_tHasBuf (t now : U32) : (s.startReceive t now).tHasBuf = s.tHasBuf := rfl
@[simp] theorem State.startReceive_tCap (t now : U32) : (s.startReceive t now).tCap = s.tCap := rfl
@[simp] theorem State.startReceive_tDesc (t now : U32) : (s.startReceive t now).tDesc = s.tDesc := rfl
@[simp] theorem State.startReceive_tArg0 (t now : U32) : (s.startReceive t now).tArg0 = s.tArg0 := rfl
@[simp] theorem State.startReceive_tMotorCap (t now : U32) : (s.startReceive t now).tMotorCap = s.tMotorCap := rfl
@[simp] theorem State.startReceive_txBuf (t now : U32) : (s.startReceive t now).txBuf = s.txBuf := rfl
@[simp] theorem State.startReceive_txLen (t now : U32) : (s.startReceive t now).txLen = s.txLen := rfl
@[simp] theorem State.startReceive_txDest (t now : U32) : (s.startReceive t now).txDest = s.txDest := rfl
@[simp] theorem State.startReceive_result (t now : U32) : (s.startReceive t now).result = s.result := rfl
@[simp] theorem State.startReceive_remoteErr (t now : U32) : (s.startReceive t now).remoteErr = s.remoteErr := rfl
@[simp] theorem State.startReceive_respBuf (t now : U32) : (s.startReceive t now).respBuf = s.respBuf := rfl
@[simp] theorem State.startReceive_respLen (t now : U32) : (s.startReceive t now).respLen = s.respLen := rfl
@[simp] theorem State.startReceive_catOut (t now : U32) : (s.startReceive t now).catOut = s.catOut := rfl
@[simp] theorem State.startReceive_strobes (t now : U32) : (s.startReceive t now).strobes = { s.strobes with pump := s.cons.capPump } := rfl
@[simp] theorem State.startReceive_delay (t now : U32) : (s.startReceive t now).delay = .idle := rfl
@[simp] theorem State.startReceive_sendOpen (t now : U32) : (s.startReceive t now).sendOpen = s.sendOpen := rfl
@[simp] theorem State.startReceive_resultWritten (t now : U32) : (s.startReceive t now).resultWritten = s.resultWritten := rfl
@[simp] theorem State.startReceive_remoteErrWritten (t now : U32) : (s.startReceive t now).remoteErrWritten = s.remoteErrWritten := rfl
@[simp] theorem State.startReceive_respWritten (t now : U32) : (s.startReceive t now).respWritten = s.respWritten := rfl
@[simp] theorem State.startReceive_fnOut (t now : U32) : (s.startReceive t now).fnOut = s.fnOut := rfl
@[simp] theorem State.startReceive_freeCtr (t now : U32) : (s.startReceive t now).freeCtr = s.freeCtr := rfl
@[simp] theorem State.startReceive_inbox (t now : U32) : (s.startReceive t now).inbox = s.inbox := rfl

/-! `State.errorArm` -/
@[simp] theorem State.errorArm_cons : (s.errorArm).cons = s.cons := rfl
@[simp] theorem State.errorArm_cfgTimeoutMs : (s.errorArm).cfgTimeoutMs = s.cfgTimeoutMs := rfl
@[simp] theorem State.errorArm_dstate : (s.errorArm).dstate = s.dstate := rfl
@[simp] theorem State.errorArm_dRemain : (s.errorArm).dRemain = s.dRemain := rfl
@[simp] theorem State.errorArm_rxDest : (s.errorArm).rxDest = s.rxDest := rfl
@[simp] theorem State.errorArm_rxSrc : (s.errorArm).rxSrc = s.rxSrc := rfl
@[simp] theorem State.errorArm_rxCmd : (s.errorArm).rxCmd = s.rxCmd := rfl
@[simp] theorem State.errorArm_rxLen : (s.errorArm).rxLen = s.rxLen := rfl
@[simp] theorem State.errorArm_rxPayload : (s.errorArm).rxPayload = s.rxPayload := rfl
@[simp] theorem State.errorArm_rxChk : (s.errorArm).rxChk = s.rxChk := rfl
@[simp] theorem State.errorArm_frameReady : (s.errorArm).frameReady = false := rfl
@[simp] theorem State.errorArm_tstate : (s.errorArm).tstate = .idle := rfl
@[simp] theorem State.errorArm_tKind : (s.errorArm).tKind = s.tKind := rfl
@[simp] theorem State.errorArm_tDest : (s.errorArm).tDest = s.tDest := rfl
@[simp] theorem State.errorArm_tCmd : (s.errorArm).tCmd = s.tCmd := rfl
@[simp] theorem State.errorArm_tTimeout : (s.errorArm).tTimeout = s.tTimeout := rfl
@[simp] theorem State.errorArm_tStart : (s.errorArm).tStart = s.tStart := rfl
@[simp] theorem State.errorArm_tHasBuf : (s.errorArm).tHasBuf = s.tHasBuf := rfl
@[simp] theorem State.errorArm_tCap : (s.errorArm).tCap = s.tCap := rfl
@[simp] theorem State.errorArm_tDesc : (s.errorArm).tDesc = s.tDesc := rfl
@[simp] theorem State.errorArm_tArg0 : (s.errorArm).tArg0 = s.tArg0 := rfl
@[simp] theorem State.errorArm_tMotorCap : (s.errorArm).tMotorCap = s.tMotorCap := rfl
@[simp] theorem State.errorArm_txBuf : (s.errorArm).txBuf = s.txBuf := rfl
@[simp] theorem State.errorArm_txLen : (s.errorArm).txLen = s.txLen := rfl
@[simp] theorem State.errorArm_txDest : (s.errorArm).txDest = s.txDest := rfl
@[simp] theorem State.errorArm_result : (s.errorArm).result = .handError := rfl
@[simp] theorem State.errorArm_remoteErr : (s.errorArm).remoteErr = s.deviceCode := rfl
@[simp] theorem State.errorArm_respBuf : (s.errorArm).respBuf = s.respBuf := rfl
@[simp] theorem State.errorArm_respLen : (s.errorArm).respLen = s.respLen := rfl
@[simp] theorem State.errorArm_catOut : (s.errorArm).catOut = s.catOut := rfl
@[simp] theorem State.errorArm_strobes : (s.errorArm).strobes = { s.strobes with done := true } := rfl
@[simp] theorem State.errorArm_delay : (s.errorArm).delay = .idle := rfl
@[simp] theorem State.errorArm_sendOpen : (s.errorArm).sendOpen = false := rfl
@[simp] theorem State.errorArm_resultWritten : (s.errorArm).resultWritten = true := rfl
@[simp] theorem State.errorArm_remoteErrWritten : (s.errorArm).remoteErrWritten = true := rfl
@[simp] theorem State.errorArm_respWritten : (s.errorArm).respWritten = s.respWritten := rfl
@[simp] theorem State.errorArm_fnOut : (s.errorArm).fnOut = s.fnOut := rfl
@[simp] theorem State.errorArm_freeCtr : (s.errorArm).freeCtr = s.deviceCodeCtr := rfl
@[simp] theorem State.errorArm_inbox : (s.errorArm).inbox = s.inbox := rfl

/-! `State.afterTaking` -/
@[simp] theorem State.afterTaking_cons (rest : List Input) : (s.afterTaking rest).cons = s.cons := rfl
@[simp] theorem State.afterTaking_cfgTimeoutMs (rest : List Input) : (s.afterTaking rest).cfgTimeoutMs = s.cfgTimeoutMs := rfl
@[simp] theorem State.afterTaking_dstate (rest : List Input) : (s.afterTaking rest).dstate = s.dstate := rfl
@[simp] theorem State.afterTaking_dRemain (rest : List Input) : (s.afterTaking rest).dRemain = s.dRemain := rfl
@[simp] theorem State.afterTaking_rxDest (rest : List Input) : (s.afterTaking rest).rxDest = s.rxDest := rfl
@[simp] theorem State.afterTaking_rxSrc (rest : List Input) : (s.afterTaking rest).rxSrc = s.rxSrc := rfl
@[simp] theorem State.afterTaking_rxCmd (rest : List Input) : (s.afterTaking rest).rxCmd = s.rxCmd := rfl
@[simp] theorem State.afterTaking_rxLen (rest : List Input) : (s.afterTaking rest).rxLen = s.rxLen := rfl
@[simp] theorem State.afterTaking_rxPayload (rest : List Input) : (s.afterTaking rest).rxPayload = s.rxPayload := rfl
@[simp] theorem State.afterTaking_rxChk (rest : List Input) : (s.afterTaking rest).rxChk = s.rxChk := rfl
@[simp] theorem State.afterTaking_frameReady (rest : List Input) : (s.afterTaking rest).frameReady = s.frameReady := rfl
@[simp] theorem State.afterTaking_tstate (rest : List Input) : (s.afterTaking rest).tstate = s.tstate := rfl
@[simp] theorem State.afterTaking_tKind (rest : List Input) : (s.afterTaking rest).tKind = s.tKind := rfl
@[simp] theorem State.afterTaking_tDest (rest : List Input) : (s.afterTaking rest).tDest = s.tDest := rfl
@[simp] theorem State.afterTaking_tCmd (rest : List Input) : (s.afterTaking rest).tCmd = s.tCmd := rfl
@[simp] theorem State.afterTaking_tTimeout (rest : List Input) : (s.afterTaking rest).tTimeout = s.tTimeout := rfl
@[simp] theorem State.afterTaking_tStart (rest : List Input) : (s.afterTaking rest).tStart = s.tStart := rfl
@[simp] theorem State.afterTaking_tHasBuf (rest : List Input) : (s.afterTaking rest).tHasBuf = s.tHasBuf := rfl
@[simp] theorem State.afterTaking_tCap (rest : List Input) : (s.afterTaking rest).tCap = s.tCap := rfl
@[simp] theorem State.afterTaking_tDesc (rest : List Input) : (s.afterTaking rest).tDesc = s.tDesc := rfl
@[simp] theorem State.afterTaking_tArg0 (rest : List Input) : (s.afterTaking rest).tArg0 = s.tArg0 := rfl
@[simp] theorem State.afterTaking_tMotorCap (rest : List Input) : (s.afterTaking rest).tMotorCap = s.tMotorCap := rfl
@[simp] theorem State.afterTaking_txBuf (rest : List Input) : (s.afterTaking rest).txBuf = s.txBuf := rfl
@[simp] theorem State.afterTaking_txLen (rest : List Input) : (s.afterTaking rest).txLen = s.txLen := rfl
@[simp] theorem State.afterTaking_txDest (rest : List Input) : (s.afterTaking rest).txDest = s.txDest := rfl
@[simp] theorem State.afterTaking_result (rest : List Input) : (s.afterTaking rest).result = s.result := rfl
@[simp] theorem State.afterTaking_remoteErr (rest : List Input) : (s.afterTaking rest).remoteErr = s.remoteErr := rfl
@[simp] theorem State.afterTaking_respBuf (rest : List Input) : (s.afterTaking rest).respBuf = s.respBuf := rfl
@[simp] theorem State.afterTaking_respLen (rest : List Input) : (s.afterTaking rest).respLen = s.respLen := rfl
@[simp] theorem State.afterTaking_catOut (rest : List Input) : (s.afterTaking rest).catOut = s.catOut := rfl
@[simp] theorem State.afterTaking_strobes (rest : List Input) : (s.afterTaking rest).strobes = Strobes.none := rfl
@[simp] theorem State.afterTaking_delay (rest : List Input) : (s.afterTaking rest).delay = s.delay := rfl
@[simp] theorem State.afterTaking_sendOpen (rest : List Input) : (s.afterTaking rest).sendOpen = s.sendOpen := rfl
@[simp] theorem State.afterTaking_resultWritten (rest : List Input) : (s.afterTaking rest).resultWritten = s.resultWritten := rfl
@[simp] theorem State.afterTaking_remoteErrWritten (rest : List Input) : (s.afterTaking rest).remoteErrWritten = s.remoteErrWritten := rfl
@[simp] theorem State.afterTaking_respWritten (rest : List Input) : (s.afterTaking rest).respWritten = s.respWritten := rfl
@[simp] theorem State.afterTaking_fnOut (rest : List Input) : (s.afterTaking rest).fnOut = s.fnOut := rfl
@[simp] theorem State.afterTaking_freeCtr (rest : List Input) : (s.afterTaking rest).freeCtr = s.freeCtr := rfl
@[simp] theorem State.afterTaking_inbox (rest : List Input) : (s.afterTaking rest).inbox = rest := rfl

/-! `State.feedSyncFirst` -/
@[simp] theorem State.feedSyncFirst_cons : (s.feedSyncFirst).cons = s.cons := rfl
@[simp] theorem State.feedSyncFirst_cfgTimeoutMs : (s.feedSyncFirst).cfgTimeoutMs = s.cfgTimeoutMs := rfl
@[simp] theorem State.feedSyncFirst_dstate : (s.feedSyncFirst).dstate = .sync1 := rfl
@[simp] theorem State.feedSyncFirst_dRemain : (s.feedSyncFirst).dRemain = s.dRemain := rfl
@[simp] theorem State.feedSyncFirst_rxDest : (s.feedSyncFirst).rxDest = s.rxDest := rfl
@[simp] theorem State.feedSyncFirst_rxSrc : (s.feedSyncFirst).rxSrc = s.rxSrc := rfl
@[simp] theorem State.feedSyncFirst_rxCmd : (s.feedSyncFirst).rxCmd = s.rxCmd := rfl
@[simp] theorem State.feedSyncFirst_rxLen : (s.feedSyncFirst).rxLen = s.rxLen := rfl
@[simp] theorem State.feedSyncFirst_rxPayload : (s.feedSyncFirst).rxPayload = s.rxPayload := rfl
@[simp] theorem State.feedSyncFirst_rxChk : (s.feedSyncFirst).rxChk = s.rxChk := rfl
@[simp] theorem State.feedSyncFirst_frameReady : (s.feedSyncFirst).frameReady = s.frameReady := rfl
@[simp] theorem State.feedSyncFirst_tstate : (s.feedSyncFirst).tstate = s.tstate := rfl
@[simp] theorem State.feedSyncFirst_tKind : (s.feedSyncFirst).tKind = s.tKind := rfl
@[simp] theorem State.feedSyncFirst_tDest : (s.feedSyncFirst).tDest = s.tDest := rfl
@[simp] theorem State.feedSyncFirst_tCmd : (s.feedSyncFirst).tCmd = s.tCmd := rfl
@[simp] theorem State.feedSyncFirst_tTimeout : (s.feedSyncFirst).tTimeout = s.tTimeout := rfl
@[simp] theorem State.feedSyncFirst_tStart : (s.feedSyncFirst).tStart = s.tStart := rfl
@[simp] theorem State.feedSyncFirst_tHasBuf : (s.feedSyncFirst).tHasBuf = s.tHasBuf := rfl
@[simp] theorem State.feedSyncFirst_tCap : (s.feedSyncFirst).tCap = s.tCap := rfl
@[simp] theorem State.feedSyncFirst_tDesc : (s.feedSyncFirst).tDesc = s.tDesc := rfl
@[simp] theorem State.feedSyncFirst_tArg0 : (s.feedSyncFirst).tArg0 = s.tArg0 := rfl
@[simp] theorem State.feedSyncFirst_tMotorCap : (s.feedSyncFirst).tMotorCap = s.tMotorCap := rfl
@[simp] theorem State.feedSyncFirst_txBuf : (s.feedSyncFirst).txBuf = s.txBuf := rfl
@[simp] theorem State.feedSyncFirst_txLen : (s.feedSyncFirst).txLen = s.txLen := rfl
@[simp] theorem State.feedSyncFirst_txDest : (s.feedSyncFirst).txDest = s.txDest := rfl
@[simp] theorem State.feedSyncFirst_result : (s.feedSyncFirst).result = s.result := rfl
@[simp] theorem State.feedSyncFirst_remoteErr : (s.feedSyncFirst).remoteErr = s.remoteErr := rfl
@[simp] theorem State.feedSyncFirst_respBuf : (s.feedSyncFirst).respBuf = s.respBuf := rfl
@[simp] theorem State.feedSyncFirst_respLen : (s.feedSyncFirst).respLen = s.respLen := rfl
@[simp] theorem State.feedSyncFirst_catOut : (s.feedSyncFirst).catOut = s.catOut := rfl
@[simp] theorem State.feedSyncFirst_strobes : (s.feedSyncFirst).strobes = s.strobes := rfl
@[simp] theorem State.feedSyncFirst_delay : (s.feedSyncFirst).delay = s.delay := rfl
@[simp] theorem State.feedSyncFirst_sendOpen : (s.feedSyncFirst).sendOpen = s.sendOpen := rfl
@[simp] theorem State.feedSyncFirst_resultWritten : (s.feedSyncFirst).resultWritten = s.resultWritten := rfl
@[simp] theorem State.feedSyncFirst_remoteErrWritten : (s.feedSyncFirst).remoteErrWritten = s.remoteErrWritten := rfl
@[simp] theorem State.feedSyncFirst_respWritten : (s.feedSyncFirst).respWritten = s.respWritten := rfl
@[simp] theorem State.feedSyncFirst_fnOut : (s.feedSyncFirst).fnOut = s.fnOut := rfl
@[simp] theorem State.feedSyncFirst_freeCtr : (s.feedSyncFirst).freeCtr = s.freeCtr := rfl
@[simp] theorem State.feedSyncFirst_inbox : (s.feedSyncFirst).inbox = s.inbox := rfl

/-! `State.feedSyncRestart` -/
@[simp] theorem State.feedSyncRestart_cons : (s.feedSyncRestart).cons = s.cons := rfl
@[simp] theorem State.feedSyncRestart_cfgTimeoutMs : (s.feedSyncRestart).cfgTimeoutMs = s.cfgTimeoutMs := rfl
@[simp] theorem State.feedSyncRestart_dstate : (s.feedSyncRestart).dstate = .sync0 := rfl
@[simp] theorem State.feedSyncRestart_dRemain : (s.feedSyncRestart).dRemain = s.dRemain := rfl
@[simp] theorem State.feedSyncRestart_rxDest : (s.feedSyncRestart).rxDest = s.rxDest := rfl
@[simp] theorem State.feedSyncRestart_rxSrc : (s.feedSyncRestart).rxSrc = s.rxSrc := rfl
@[simp] theorem State.feedSyncRestart_rxCmd : (s.feedSyncRestart).rxCmd = s.rxCmd := rfl
@[simp] theorem State.feedSyncRestart_rxLen : (s.feedSyncRestart).rxLen = s.rxLen := rfl
@[simp] theorem State.feedSyncRestart_rxPayload : (s.feedSyncRestart).rxPayload = s.rxPayload := rfl
@[simp] theorem State.feedSyncRestart_rxChk : (s.feedSyncRestart).rxChk = s.rxChk := rfl
@[simp] theorem State.feedSyncRestart_frameReady : (s.feedSyncRestart).frameReady = s.frameReady := rfl
@[simp] theorem State.feedSyncRestart_tstate : (s.feedSyncRestart).tstate = s.tstate := rfl
@[simp] theorem State.feedSyncRestart_tKind : (s.feedSyncRestart).tKind = s.tKind := rfl
@[simp] theorem State.feedSyncRestart_tDest : (s.feedSyncRestart).tDest = s.tDest := rfl
@[simp] theorem State.feedSyncRestart_tCmd : (s.feedSyncRestart).tCmd = s.tCmd := rfl
@[simp] theorem State.feedSyncRestart_tTimeout : (s.feedSyncRestart).tTimeout = s.tTimeout := rfl
@[simp] theorem State.feedSyncRestart_tStart : (s.feedSyncRestart).tStart = s.tStart := rfl
@[simp] theorem State.feedSyncRestart_tHasBuf : (s.feedSyncRestart).tHasBuf = s.tHasBuf := rfl
@[simp] theorem State.feedSyncRestart_tCap : (s.feedSyncRestart).tCap = s.tCap := rfl
@[simp] theorem State.feedSyncRestart_tDesc : (s.feedSyncRestart).tDesc = s.tDesc := rfl
@[simp] theorem State.feedSyncRestart_tArg0 : (s.feedSyncRestart).tArg0 = s.tArg0 := rfl
@[simp] theorem State.feedSyncRestart_tMotorCap : (s.feedSyncRestart).tMotorCap = s.tMotorCap := rfl
@[simp] theorem State.feedSyncRestart_txBuf : (s.feedSyncRestart).txBuf = s.txBuf := rfl
@[simp] theorem State.feedSyncRestart_txLen : (s.feedSyncRestart).txLen = s.txLen := rfl
@[simp] theorem State.feedSyncRestart_txDest : (s.feedSyncRestart).txDest = s.txDest := rfl
@[simp] theorem State.feedSyncRestart_result : (s.feedSyncRestart).result = s.result := rfl
@[simp] theorem State.feedSyncRestart_remoteErr : (s.feedSyncRestart).remoteErr = s.remoteErr := rfl
@[simp] theorem State.feedSyncRestart_respBuf : (s.feedSyncRestart).respBuf = s.respBuf := rfl
@[simp] theorem State.feedSyncRestart_respLen : (s.feedSyncRestart).respLen = s.respLen := rfl
@[simp] theorem State.feedSyncRestart_catOut : (s.feedSyncRestart).catOut = s.catOut := rfl
@[simp] theorem State.feedSyncRestart_strobes : (s.feedSyncRestart).strobes = s.strobes := rfl
@[simp] theorem State.feedSyncRestart_delay : (s.feedSyncRestart).delay = s.delay := rfl
@[simp] theorem State.feedSyncRestart_sendOpen : (s.feedSyncRestart).sendOpen = s.sendOpen := rfl
@[simp] theorem State.feedSyncRestart_resultWritten : (s.feedSyncRestart).resultWritten = s.resultWritten := rfl
@[simp] theorem State.feedSyncRestart_remoteErrWritten : (s.feedSyncRestart).remoteErrWritten = s.remoteErrWritten := rfl
@[simp] theorem State.feedSyncRestart_respWritten : (s.feedSyncRestart).respWritten = s.respWritten := rfl
@[simp] theorem State.feedSyncRestart_fnOut : (s.feedSyncRestart).fnOut = s.fnOut := rfl
@[simp] theorem State.feedSyncRestart_freeCtr : (s.feedSyncRestart).freeCtr = s.freeCtr := rfl
@[simp] theorem State.feedSyncRestart_inbox : (s.feedSyncRestart).inbox = s.inbox := rfl

/-! `State.feedSyncSecond` -/
@[simp] theorem State.feedSyncSecond_cons : (s.feedSyncSecond).cons = s.cons := rfl
@[simp] theorem State.feedSyncSecond_cfgTimeoutMs : (s.feedSyncSecond).cfgTimeoutMs = s.cfgTimeoutMs := rfl
@[simp] theorem State.feedSyncSecond_dstate : (s.feedSyncSecond).dstate = .dest := rfl
@[simp] theorem State.feedSyncSecond_dRemain : (s.feedSyncSecond).dRemain = s.dRemain := rfl
@[simp] theorem State.feedSyncSecond_rxDest : (s.feedSyncSecond).rxDest = s.rxDest := rfl
@[simp] theorem State.feedSyncSecond_rxSrc : (s.feedSyncSecond).rxSrc = s.rxSrc := rfl
@[simp] theorem State.feedSyncSecond_rxCmd : (s.feedSyncSecond).rxCmd = s.rxCmd := rfl
@[simp] theorem State.feedSyncSecond_rxLen : (s.feedSyncSecond).rxLen = s.rxLen := rfl
@[simp] theorem State.feedSyncSecond_rxPayload : (s.feedSyncSecond).rxPayload = s.rxPayload := rfl
@[simp] theorem State.feedSyncSecond_rxChk : (s.feedSyncSecond).rxChk = s.rxChk := rfl
@[simp] theorem State.feedSyncSecond_frameReady : (s.feedSyncSecond).frameReady = s.frameReady := rfl
@[simp] theorem State.feedSyncSecond_tstate : (s.feedSyncSecond).tstate = s.tstate := rfl
@[simp] theorem State.feedSyncSecond_tKind : (s.feedSyncSecond).tKind = s.tKind := rfl
@[simp] theorem State.feedSyncSecond_tDest : (s.feedSyncSecond).tDest = s.tDest := rfl
@[simp] theorem State.feedSyncSecond_tCmd : (s.feedSyncSecond).tCmd = s.tCmd := rfl
@[simp] theorem State.feedSyncSecond_tTimeout : (s.feedSyncSecond).tTimeout = s.tTimeout := rfl
@[simp] theorem State.feedSyncSecond_tStart : (s.feedSyncSecond).tStart = s.tStart := rfl
@[simp] theorem State.feedSyncSecond_tHasBuf : (s.feedSyncSecond).tHasBuf = s.tHasBuf := rfl
@[simp] theorem State.feedSyncSecond_tCap : (s.feedSyncSecond).tCap = s.tCap := rfl
@[simp] theorem State.feedSyncSecond_tDesc : (s.feedSyncSecond).tDesc = s.tDesc := rfl
@[simp] theorem State.feedSyncSecond_tArg0 : (s.feedSyncSecond).tArg0 = s.tArg0 := rfl
@[simp] theorem State.feedSyncSecond_tMotorCap : (s.feedSyncSecond).tMotorCap = s.tMotorCap := rfl
@[simp] theorem State.feedSyncSecond_txBuf : (s.feedSyncSecond).txBuf = s.txBuf := rfl
@[simp] theorem State.feedSyncSecond_txLen : (s.feedSyncSecond).txLen = s.txLen := rfl
@[simp] theorem State.feedSyncSecond_txDest : (s.feedSyncSecond).txDest = s.txDest := rfl
@[simp] theorem State.feedSyncSecond_result : (s.feedSyncSecond).result = s.result := rfl
@[simp] theorem State.feedSyncSecond_remoteErr : (s.feedSyncSecond).remoteErr = s.remoteErr := rfl
@[simp] theorem State.feedSyncSecond_respBuf : (s.feedSyncSecond).respBuf = s.respBuf := rfl
@[simp] theorem State.feedSyncSecond_respLen : (s.feedSyncSecond).respLen = s.respLen := rfl
@[simp] theorem State.feedSyncSecond_catOut : (s.feedSyncSecond).catOut = s.catOut := rfl
@[simp] theorem State.feedSyncSecond_strobes : (s.feedSyncSecond).strobes = s.strobes := rfl
@[simp] theorem State.feedSyncSecond_delay : (s.feedSyncSecond).delay = s.delay := rfl
@[simp] theorem State.feedSyncSecond_sendOpen : (s.feedSyncSecond).sendOpen = s.sendOpen := rfl
@[simp] theorem State.feedSyncSecond_resultWritten : (s.feedSyncSecond).resultWritten = s.resultWritten := rfl
@[simp] theorem State.feedSyncSecond_remoteErrWritten : (s.feedSyncSecond).remoteErrWritten = s.remoteErrWritten := rfl
@[simp] theorem State.feedSyncSecond_respWritten : (s.feedSyncSecond).respWritten = s.respWritten := rfl
@[simp] theorem State.feedSyncSecond_fnOut : (s.feedSyncSecond).fnOut = s.fnOut := rfl
@[simp] theorem State.feedSyncSecond_freeCtr : (s.feedSyncSecond).freeCtr = s.freeCtr := rfl
@[simp] theorem State.feedSyncSecond_inbox : (s.feedSyncSecond).inbox = s.inbox := rfl

/-! `State.feedDestByte` -/
@[simp] theorem State.feedDestByte_cons (b : Byte) : (s.feedDestByte b).cons = s.cons := rfl
@[simp] theorem State.feedDestByte_cfgTimeoutMs (b : Byte) : (s.feedDestByte b).cfgTimeoutMs = s.cfgTimeoutMs := rfl
@[simp] theorem State.feedDestByte_dstate (b : Byte) : (s.feedDestByte b).dstate = .src := rfl
@[simp] theorem State.feedDestByte_dRemain (b : Byte) : (s.feedDestByte b).dRemain = s.dRemain := rfl
@[simp] theorem State.feedDestByte_rxDest (b : Byte) : (s.feedDestByte b).rxDest = b := rfl
@[simp] theorem State.feedDestByte_rxSrc (b : Byte) : (s.feedDestByte b).rxSrc = s.rxSrc := rfl
@[simp] theorem State.feedDestByte_rxCmd (b : Byte) : (s.feedDestByte b).rxCmd = s.rxCmd := rfl
@[simp] theorem State.feedDestByte_rxLen (b : Byte) : (s.feedDestByte b).rxLen = s.rxLen := rfl
@[simp] theorem State.feedDestByte_rxPayload (b : Byte) : (s.feedDestByte b).rxPayload = s.rxPayload := rfl
@[simp] theorem State.feedDestByte_rxChk (b : Byte) : (s.feedDestByte b).rxChk = s.rxChk := rfl
@[simp] theorem State.feedDestByte_frameReady (b : Byte) : (s.feedDestByte b).frameReady = s.frameReady := rfl
@[simp] theorem State.feedDestByte_tstate (b : Byte) : (s.feedDestByte b).tstate = s.tstate := rfl
@[simp] theorem State.feedDestByte_tKind (b : Byte) : (s.feedDestByte b).tKind = s.tKind := rfl
@[simp] theorem State.feedDestByte_tDest (b : Byte) : (s.feedDestByte b).tDest = s.tDest := rfl
@[simp] theorem State.feedDestByte_tCmd (b : Byte) : (s.feedDestByte b).tCmd = s.tCmd := rfl
@[simp] theorem State.feedDestByte_tTimeout (b : Byte) : (s.feedDestByte b).tTimeout = s.tTimeout := rfl
@[simp] theorem State.feedDestByte_tStart (b : Byte) : (s.feedDestByte b).tStart = s.tStart := rfl
@[simp] theorem State.feedDestByte_tHasBuf (b : Byte) : (s.feedDestByte b).tHasBuf = s.tHasBuf := rfl
@[simp] theorem State.feedDestByte_tCap (b : Byte) : (s.feedDestByte b).tCap = s.tCap := rfl
@[simp] theorem State.feedDestByte_tDesc (b : Byte) : (s.feedDestByte b).tDesc = s.tDesc := rfl
@[simp] theorem State.feedDestByte_tArg0 (b : Byte) : (s.feedDestByte b).tArg0 = s.tArg0 := rfl
@[simp] theorem State.feedDestByte_tMotorCap (b : Byte) : (s.feedDestByte b).tMotorCap = s.tMotorCap := rfl
@[simp] theorem State.feedDestByte_txBuf (b : Byte) : (s.feedDestByte b).txBuf = s.txBuf := rfl
@[simp] theorem State.feedDestByte_txLen (b : Byte) : (s.feedDestByte b).txLen = s.txLen := rfl
@[simp] theorem State.feedDestByte_txDest (b : Byte) : (s.feedDestByte b).txDest = s.txDest := rfl
@[simp] theorem State.feedDestByte_result (b : Byte) : (s.feedDestByte b).result = s.result := rfl
@[simp] theorem State.feedDestByte_remoteErr (b : Byte) : (s.feedDestByte b).remoteErr = s.remoteErr := rfl
@[simp] theorem State.feedDestByte_respBuf (b : Byte) : (s.feedDestByte b).respBuf = s.respBuf := rfl
@[simp] theorem State.feedDestByte_respLen (b : Byte) : (s.feedDestByte b).respLen = s.respLen := rfl
@[simp] theorem State.feedDestByte_catOut (b : Byte) : (s.feedDestByte b).catOut = s.catOut := rfl
@[simp] theorem State.feedDestByte_strobes (b : Byte) : (s.feedDestByte b).strobes = s.strobes := rfl
@[simp] theorem State.feedDestByte_delay (b : Byte) : (s.feedDestByte b).delay = s.delay := rfl
@[simp] theorem State.feedDestByte_sendOpen (b : Byte) : (s.feedDestByte b).sendOpen = s.sendOpen := rfl
@[simp] theorem State.feedDestByte_resultWritten (b : Byte) : (s.feedDestByte b).resultWritten = s.resultWritten := rfl
@[simp] theorem State.feedDestByte_remoteErrWritten (b : Byte) : (s.feedDestByte b).remoteErrWritten = s.remoteErrWritten := rfl
@[simp] theorem State.feedDestByte_respWritten (b : Byte) : (s.feedDestByte b).respWritten = s.respWritten := rfl
@[simp] theorem State.feedDestByte_fnOut (b : Byte) : (s.feedDestByte b).fnOut = s.fnOut := rfl
@[simp] theorem State.feedDestByte_freeCtr (b : Byte) : (s.feedDestByte b).freeCtr = s.freeCtr := rfl
@[simp] theorem State.feedDestByte_inbox (b : Byte) : (s.feedDestByte b).inbox = s.inbox := rfl

/-! `State.feedSrcByte` -/
@[simp] theorem State.feedSrcByte_cons (b : Byte) : (s.feedSrcByte b).cons = s.cons := rfl
@[simp] theorem State.feedSrcByte_cfgTimeoutMs (b : Byte) : (s.feedSrcByte b).cfgTimeoutMs = s.cfgTimeoutMs := rfl
@[simp] theorem State.feedSrcByte_dstate (b : Byte) : (s.feedSrcByte b).dstate = .cmd := rfl
@[simp] theorem State.feedSrcByte_dRemain (b : Byte) : (s.feedSrcByte b).dRemain = s.dRemain := rfl
@[simp] theorem State.feedSrcByte_rxDest (b : Byte) : (s.feedSrcByte b).rxDest = s.rxDest := rfl
@[simp] theorem State.feedSrcByte_rxSrc (b : Byte) : (s.feedSrcByte b).rxSrc = b := rfl
@[simp] theorem State.feedSrcByte_rxCmd (b : Byte) : (s.feedSrcByte b).rxCmd = s.rxCmd := rfl
@[simp] theorem State.feedSrcByte_rxLen (b : Byte) : (s.feedSrcByte b).rxLen = s.rxLen := rfl
@[simp] theorem State.feedSrcByte_rxPayload (b : Byte) : (s.feedSrcByte b).rxPayload = s.rxPayload := rfl
@[simp] theorem State.feedSrcByte_rxChk (b : Byte) : (s.feedSrcByte b).rxChk = s.rxChk := rfl
@[simp] theorem State.feedSrcByte_frameReady (b : Byte) : (s.feedSrcByte b).frameReady = s.frameReady := rfl
@[simp] theorem State.feedSrcByte_tstate (b : Byte) : (s.feedSrcByte b).tstate = s.tstate := rfl
@[simp] theorem State.feedSrcByte_tKind (b : Byte) : (s.feedSrcByte b).tKind = s.tKind := rfl
@[simp] theorem State.feedSrcByte_tDest (b : Byte) : (s.feedSrcByte b).tDest = s.tDest := rfl
@[simp] theorem State.feedSrcByte_tCmd (b : Byte) : (s.feedSrcByte b).tCmd = s.tCmd := rfl
@[simp] theorem State.feedSrcByte_tTimeout (b : Byte) : (s.feedSrcByte b).tTimeout = s.tTimeout := rfl
@[simp] theorem State.feedSrcByte_tStart (b : Byte) : (s.feedSrcByte b).tStart = s.tStart := rfl
@[simp] theorem State.feedSrcByte_tHasBuf (b : Byte) : (s.feedSrcByte b).tHasBuf = s.tHasBuf := rfl
@[simp] theorem State.feedSrcByte_tCap (b : Byte) : (s.feedSrcByte b).tCap = s.tCap := rfl
@[simp] theorem State.feedSrcByte_tDesc (b : Byte) : (s.feedSrcByte b).tDesc = s.tDesc := rfl
@[simp] theorem State.feedSrcByte_tArg0 (b : Byte) : (s.feedSrcByte b).tArg0 = s.tArg0 := rfl
@[simp] theorem State.feedSrcByte_tMotorCap (b : Byte) : (s.feedSrcByte b).tMotorCap = s.tMotorCap := rfl
@[simp] theorem State.feedSrcByte_txBuf (b : Byte) : (s.feedSrcByte b).txBuf = s.txBuf := rfl
@[simp] theorem State.feedSrcByte_txLen (b : Byte) : (s.feedSrcByte b).txLen = s.txLen := rfl
@[simp] theorem State.feedSrcByte_txDest (b : Byte) : (s.feedSrcByte b).txDest = s.txDest := rfl
@[simp] theorem State.feedSrcByte_result (b : Byte) : (s.feedSrcByte b).result = s.result := rfl
@[simp] theorem State.feedSrcByte_remoteErr (b : Byte) : (s.feedSrcByte b).remoteErr = s.remoteErr := rfl
@[simp] theorem State.feedSrcByte_respBuf (b : Byte) : (s.feedSrcByte b).respBuf = s.respBuf := rfl
@[simp] theorem State.feedSrcByte_respLen (b : Byte) : (s.feedSrcByte b).respLen = s.respLen := rfl
@[simp] theorem State.feedSrcByte_catOut (b : Byte) : (s.feedSrcByte b).catOut = s.catOut := rfl
@[simp] theorem State.feedSrcByte_strobes (b : Byte) : (s.feedSrcByte b).strobes = s.strobes := rfl
@[simp] theorem State.feedSrcByte_delay (b : Byte) : (s.feedSrcByte b).delay = s.delay := rfl
@[simp] theorem State.feedSrcByte_sendOpen (b : Byte) : (s.feedSrcByte b).sendOpen = s.sendOpen := rfl
@[simp] theorem State.feedSrcByte_resultWritten (b : Byte) : (s.feedSrcByte b).resultWritten = s.resultWritten := rfl
@[simp] theorem State.feedSrcByte_remoteErrWritten (b : Byte) : (s.feedSrcByte b).remoteErrWritten = s.remoteErrWritten := rfl
@[simp] theorem State.feedSrcByte_respWritten (b : Byte) : (s.feedSrcByte b).respWritten = s.respWritten := rfl
@[simp] theorem State.feedSrcByte_fnOut (b : Byte) : (s.feedSrcByte b).fnOut = s.fnOut := rfl
@[simp] theorem State.feedSrcByte_freeCtr (b : Byte) : (s.feedSrcByte b).freeCtr = s.freeCtr := rfl
@[simp] theorem State.feedSrcByte_inbox (b : Byte) : (s.feedSrcByte b).inbox = s.inbox := rfl

/-! `State.feedCmdByte` -/
@[simp] theorem State.feedCmdByte_cons (b : Byte) : (s.feedCmdByte b).cons = s.cons := rfl
@[simp] theorem State.feedCmdByte_cfgTimeoutMs (b : Byte) : (s.feedCmdByte b).cfgTimeoutMs = s.cfgTimeoutMs := rfl
@[simp] theorem State.feedCmdByte_dstate (b : Byte) : (s.feedCmdByte b).dstate = .len := rfl
@[simp] theorem State.feedCmdByte_dRemain (b : Byte) : (s.feedCmdByte b).dRemain = s.dRemain := rfl
@[simp] theorem State.feedCmdByte_rxDest (b : Byte) : (s.feedCmdByte b).rxDest = s.rxDest := rfl
@[simp] theorem State.feedCmdByte_rxSrc (b : Byte) : (s.feedCmdByte b).rxSrc = s.rxSrc := rfl
@[simp] theorem State.feedCmdByte_rxCmd (b : Byte) : (s.feedCmdByte b).rxCmd = b := rfl
@[simp] theorem State.feedCmdByte_rxLen (b : Byte) : (s.feedCmdByte b).rxLen = s.rxLen := rfl
@[simp] theorem State.feedCmdByte_rxPayload (b : Byte) : (s.feedCmdByte b).rxPayload = s.rxPayload := rfl
@[simp] theorem State.feedCmdByte_rxChk (b : Byte) : (s.feedCmdByte b).rxChk = s.rxChk := rfl
@[simp] theorem State.feedCmdByte_frameReady (b : Byte) : (s.feedCmdByte b).frameReady = s.frameReady := rfl
@[simp] theorem State.feedCmdByte_tstate (b : Byte) : (s.feedCmdByte b).tstate = s.tstate := rfl
@[simp] theorem State.feedCmdByte_tKind (b : Byte) : (s.feedCmdByte b).tKind = s.tKind := rfl
@[simp] theorem State.feedCmdByte_tDest (b : Byte) : (s.feedCmdByte b).tDest = s.tDest := rfl
@[simp] theorem State.feedCmdByte_tCmd (b : Byte) : (s.feedCmdByte b).tCmd = s.tCmd := rfl
@[simp] theorem State.feedCmdByte_tTimeout (b : Byte) : (s.feedCmdByte b).tTimeout = s.tTimeout := rfl
@[simp] theorem State.feedCmdByte_tStart (b : Byte) : (s.feedCmdByte b).tStart = s.tStart := rfl
@[simp] theorem State.feedCmdByte_tHasBuf (b : Byte) : (s.feedCmdByte b).tHasBuf = s.tHasBuf := rfl
@[simp] theorem State.feedCmdByte_tCap (b : Byte) : (s.feedCmdByte b).tCap = s.tCap := rfl
@[simp] theorem State.feedCmdByte_tDesc (b : Byte) : (s.feedCmdByte b).tDesc = s.tDesc := rfl
@[simp] theorem State.feedCmdByte_tArg0 (b : Byte) : (s.feedCmdByte b).tArg0 = s.tArg0 := rfl
@[simp] theorem State.feedCmdByte_tMotorCap (b : Byte) : (s.feedCmdByte b).tMotorCap = s.tMotorCap := rfl
@[simp] theorem State.feedCmdByte_txBuf (b : Byte) : (s.feedCmdByte b).txBuf = s.txBuf := rfl
@[simp] theorem State.feedCmdByte_txLen (b : Byte) : (s.feedCmdByte b).txLen = s.txLen := rfl
@[simp] theorem State.feedCmdByte_txDest (b : Byte) : (s.feedCmdByte b).txDest = s.txDest := rfl
@[simp] theorem State.feedCmdByte_result (b : Byte) : (s.feedCmdByte b).result = s.result := rfl
@[simp] theorem State.feedCmdByte_remoteErr (b : Byte) : (s.feedCmdByte b).remoteErr = s.remoteErr := rfl
@[simp] theorem State.feedCmdByte_respBuf (b : Byte) : (s.feedCmdByte b).respBuf = s.respBuf := rfl
@[simp] theorem State.feedCmdByte_respLen (b : Byte) : (s.feedCmdByte b).respLen = s.respLen := rfl
@[simp] theorem State.feedCmdByte_catOut (b : Byte) : (s.feedCmdByte b).catOut = s.catOut := rfl
@[simp] theorem State.feedCmdByte_strobes (b : Byte) : (s.feedCmdByte b).strobes = s.strobes := rfl
@[simp] theorem State.feedCmdByte_delay (b : Byte) : (s.feedCmdByte b).delay = s.delay := rfl
@[simp] theorem State.feedCmdByte_sendOpen (b : Byte) : (s.feedCmdByte b).sendOpen = s.sendOpen := rfl
@[simp] theorem State.feedCmdByte_resultWritten (b : Byte) : (s.feedCmdByte b).resultWritten = s.resultWritten := rfl
@[simp] theorem State.feedCmdByte_remoteErrWritten (b : Byte) : (s.feedCmdByte b).remoteErrWritten = s.remoteErrWritten := rfl
@[simp] theorem State.feedCmdByte_respWritten (b : Byte) : (s.feedCmdByte b).respWritten = s.respWritten := rfl
@[simp] theorem State.feedCmdByte_fnOut (b : Byte) : (s.feedCmdByte b).fnOut = s.fnOut := rfl
@[simp] theorem State.feedCmdByte_freeCtr (b : Byte) : (s.feedCmdByte b).freeCtr = s.freeCtr := rfl
@[simp] theorem State.feedCmdByte_inbox (b : Byte) : (s.feedCmdByte b).inbox = s.inbox := rfl

/-! `State.feedLenOversized` -/
@[simp] theorem State.feedLenOversized_cons : (s.feedLenOversized).cons = s.cons := rfl
@[simp] theorem State.feedLenOversized_cfgTimeoutMs : (s.feedLenOversized).cfgTimeoutMs = s.cfgTimeoutMs := rfl
@[simp] theorem State.feedLenOversized_dstate : (s.feedLenOversized).dstate = s.init := rfl
@[simp] theorem State.feedLenOversized_dRemain : (s.feedLenOversized).dRemain = s.dRemain := rfl
@[simp] theorem State.feedLenOversized_rxDest : (s.feedLenOversized).rxDest = s.rxDest := rfl
@[simp] theorem State.feedLenOversized_rxSrc : (s.feedLenOversized).rxSrc = s.rxSrc := rfl
@[simp] theorem State.feedLenOversized_rxCmd : (s.feedLenOversized).rxCmd = s.rxCmd := rfl
@[simp] theorem State.feedLenOversized_rxLen : (s.feedLenOversized).rxLen = s.rxLen := rfl
@[simp] theorem State.feedLenOversized_rxPayload : (s.feedLenOversized).rxPayload = s.rxPayload := rfl
@[simp] theorem State.feedLenOversized_rxChk : (s.feedLenOversized).rxChk = s.rxChk := rfl
@[simp] theorem State.feedLenOversized_frameReady : (s.feedLenOversized).frameReady = s.frameReady := rfl
@[simp] theorem State.feedLenOversized_tstate : (s.feedLenOversized).tstate = s.tstate := rfl
@[simp] theorem State.feedLenOversized_tKind : (s.feedLenOversized).tKind = s.tKind := rfl
@[simp] theorem State.feedLenOversized_tDest : (s.feedLenOversized).tDest = s.tDest := rfl
@[simp] theorem State.feedLenOversized_tCmd : (s.feedLenOversized).tCmd = s.tCmd := rfl
@[simp] theorem State.feedLenOversized_tTimeout : (s.feedLenOversized).tTimeout = s.tTimeout := rfl
@[simp] theorem State.feedLenOversized_tStart : (s.feedLenOversized).tStart = s.tStart := rfl
@[simp] theorem State.feedLenOversized_tHasBuf : (s.feedLenOversized).tHasBuf = s.tHasBuf := rfl
@[simp] theorem State.feedLenOversized_tCap : (s.feedLenOversized).tCap = s.tCap := rfl
@[simp] theorem State.feedLenOversized_tDesc : (s.feedLenOversized).tDesc = s.tDesc := rfl
@[simp] theorem State.feedLenOversized_tArg0 : (s.feedLenOversized).tArg0 = s.tArg0 := rfl
@[simp] theorem State.feedLenOversized_tMotorCap : (s.feedLenOversized).tMotorCap = s.tMotorCap := rfl
@[simp] theorem State.feedLenOversized_txBuf : (s.feedLenOversized).txBuf = s.txBuf := rfl
@[simp] theorem State.feedLenOversized_txLen : (s.feedLenOversized).txLen = s.txLen := rfl
@[simp] theorem State.feedLenOversized_txDest : (s.feedLenOversized).txDest = s.txDest := rfl
@[simp] theorem State.feedLenOversized_result : (s.feedLenOversized).result = s.result := rfl
@[simp] theorem State.feedLenOversized_remoteErr : (s.feedLenOversized).remoteErr = s.remoteErr := rfl
@[simp] theorem State.feedLenOversized_respBuf : (s.feedLenOversized).respBuf = s.respBuf := rfl
@[simp] theorem State.feedLenOversized_respLen : (s.feedLenOversized).respLen = s.respLen := rfl
@[simp] theorem State.feedLenOversized_catOut : (s.feedLenOversized).catOut = s.catOut := rfl
@[simp] theorem State.feedLenOversized_strobes : (s.feedLenOversized).strobes = s.strobes := rfl
@[simp] theorem State.feedLenOversized_delay : (s.feedLenOversized).delay = s.delay := rfl
@[simp] theorem State.feedLenOversized_sendOpen : (s.feedLenOversized).sendOpen = s.sendOpen := rfl
@[simp] theorem State.feedLenOversized_resultWritten : (s.feedLenOversized).resultWritten = s.resultWritten := rfl
@[simp] theorem State.feedLenOversized_remoteErrWritten : (s.feedLenOversized).remoteErrWritten = s.remoteErrWritten := rfl
@[simp] theorem State.feedLenOversized_respWritten : (s.feedLenOversized).respWritten = s.respWritten := rfl
@[simp] theorem State.feedLenOversized_fnOut : (s.feedLenOversized).fnOut = s.fnOut := rfl
@[simp] theorem State.feedLenOversized_freeCtr : (s.feedLenOversized).freeCtr = s.freeCtr := rfl
@[simp] theorem State.feedLenOversized_inbox : (s.feedLenOversized).inbox = s.inbox := rfl

/-! `State.feedLenByte` -/
@[simp] theorem State.feedLenByte_cons (b : Byte) : (s.feedLenByte b).cons = s.cons := rfl
@[simp] theorem State.feedLenByte_cfgTimeoutMs (b : Byte) : (s.feedLenByte b).cfgTimeoutMs = s.cfgTimeoutMs := rfl
@[simp] theorem State.feedLenByte_dstate (b : Byte) : (s.feedLenByte b).dstate = if b = 0 then .chk else .data := rfl
@[simp] theorem State.feedLenByte_dRemain (b : Byte) : (s.feedLenByte b).dRemain = b.setWidth 7 := rfl
@[simp] theorem State.feedLenByte_rxDest (b : Byte) : (s.feedLenByte b).rxDest = s.rxDest := rfl
@[simp] theorem State.feedLenByte_rxSrc (b : Byte) : (s.feedLenByte b).rxSrc = s.rxSrc := rfl
@[simp] theorem State.feedLenByte_rxCmd (b : Byte) : (s.feedLenByte b).rxCmd = s.rxCmd := rfl
@[simp] theorem State.feedLenByte_rxLen (b : Byte) : (s.feedLenByte b).rxLen = b := rfl
@[simp] theorem State.feedLenByte_rxPayload (b : Byte) : (s.feedLenByte b).rxPayload = s.rxPayload := rfl
@[simp] theorem State.feedLenByte_rxChk (b : Byte) : (s.feedLenByte b).rxChk = s.rxChk := rfl
@[simp] theorem State.feedLenByte_frameReady (b : Byte) : (s.feedLenByte b).frameReady = s.frameReady := rfl
@[simp] theorem State.feedLenByte_tstate (b : Byte) : (s.feedLenByte b).tstate = s.tstate := rfl
@[simp] theorem State.feedLenByte_tKind (b : Byte) : (s.feedLenByte b).tKind = s.tKind := rfl
@[simp] theorem State.feedLenByte_tDest (b : Byte) : (s.feedLenByte b).tDest = s.tDest := rfl
@[simp] theorem State.feedLenByte_tCmd (b : Byte) : (s.feedLenByte b).tCmd = s.tCmd := rfl
@[simp] theorem State.feedLenByte_tTimeout (b : Byte) : (s.feedLenByte b).tTimeout = s.tTimeout := rfl
@[simp] theorem State.feedLenByte_tStart (b : Byte) : (s.feedLenByte b).tStart = s.tStart := rfl
@[simp] theorem State.feedLenByte_tHasBuf (b : Byte) : (s.feedLenByte b).tHasBuf = s.tHasBuf := rfl
@[simp] theorem State.feedLenByte_tCap (b : Byte) : (s.feedLenByte b).tCap = s.tCap := rfl
@[simp] theorem State.feedLenByte_tDesc (b : Byte) : (s.feedLenByte b).tDesc = s.tDesc := rfl
@[simp] theorem State.feedLenByte_tArg0 (b : Byte) : (s.feedLenByte b).tArg0 = s.tArg0 := rfl
@[simp] theorem State.feedLenByte_tMotorCap (b : Byte) : (s.feedLenByte b).tMotorCap = s.tMotorCap := rfl
@[simp] theorem State.feedLenByte_txBuf (b : Byte) : (s.feedLenByte b).txBuf = s.txBuf := rfl
@[simp] theorem State.feedLenByte_txLen (b : Byte) : (s.feedLenByte b).txLen = s.txLen := rfl
@[simp] theorem State.feedLenByte_txDest (b : Byte) : (s.feedLenByte b).txDest = s.txDest := rfl
@[simp] theorem State.feedLenByte_result (b : Byte) : (s.feedLenByte b).result = s.result := rfl
@[simp] theorem State.feedLenByte_remoteErr (b : Byte) : (s.feedLenByte b).remoteErr = s.remoteErr := rfl
@[simp] theorem State.feedLenByte_respBuf (b : Byte) : (s.feedLenByte b).respBuf = s.respBuf := rfl
@[simp] theorem State.feedLenByte_respLen (b : Byte) : (s.feedLenByte b).respLen = s.respLen := rfl
@[simp] theorem State.feedLenByte_catOut (b : Byte) : (s.feedLenByte b).catOut = s.catOut := rfl
@[simp] theorem State.feedLenByte_strobes (b : Byte) : (s.feedLenByte b).strobes = s.strobes := rfl
@[simp] theorem State.feedLenByte_delay (b : Byte) : (s.feedLenByte b).delay = s.delay := rfl
@[simp] theorem State.feedLenByte_sendOpen (b : Byte) : (s.feedLenByte b).sendOpen = s.sendOpen := rfl
@[simp] theorem State.feedLenByte_resultWritten (b : Byte) : (s.feedLenByte b).resultWritten = s.resultWritten := rfl
@[simp] theorem State.feedLenByte_remoteErrWritten (b : Byte) : (s.feedLenByte b).remoteErrWritten = s.remoteErrWritten := rfl
@[simp] theorem State.feedLenByte_respWritten (b : Byte) : (s.feedLenByte b).respWritten = s.respWritten := rfl
@[simp] theorem State.feedLenByte_fnOut (b : Byte) : (s.feedLenByte b).fnOut = s.fnOut := rfl
@[simp] theorem State.feedLenByte_freeCtr (b : Byte) : (s.feedLenByte b).freeCtr = s.freeCtr := rfl
@[simp] theorem State.feedLenByte_inbox (b : Byte) : (s.feedLenByte b).inbox = s.inbox := rfl

/-! `State.delayOver` -/
/-- The end of a delay gives the pump strobe and marks the delay over; with no delay running it does nothing. -/
theorem State.delayOver_cases :
    (∃ since, s.delay = .running since ∧ s.delayOver = { s.strobePump with delay := .ended since }) ∨
    (pollDue s = true ∧ s.delayOver = s) := by
  unfold State.delayOver pollDue
  cases s.delay with
  | idle => exact .inr ⟨rfl, rfl⟩
  | running since => exact .inl ⟨since, rfl, rfl⟩
  | ended since => exact .inr ⟨rfl, rfl⟩

end Sys2Proof.Machine
end

