-- ==== Sys2Proof/Certificates/Slice0/Obligations.lean ====
section
/-! DEFINITION. The statements about this machine. Each docstring says what it states and which rules or sections of the spec
it follows. -/

open Sys2Proof Sys2Proof.Machine

/-- For every well-formed instruction, its encoding presented at its port decodes to exactly that instruction with no
byte left. The layout of operands after the spec's selector bytes is the model's (log 25). Rests on 30_encoding.md
sections 3 and 4 (operation codes, command ids, device error codes); log 25 (DESIGN CHOICE: operand layout). -/
def Obligations.DecodeOfEncodeIsTheInstruction : Prop :=
  ∀ i : Instr, i.wf = true → decode i.port (encode i) = .ok (i, [])

/-- If the decoder reads an instruction from bytes at a port, the instruction is well formed (its fed byte, command id
and lengths are in its row) and is presented at that port. Rests on 30_encoding.md sections 3 and 4;
42_frame_decoder.md Whole-machine properties (transition table); log 25 (DESIGN CHOICE: operand layout). -/
def Obligations.DecodedInstructionsAreWellFormedAndAtTheirPort : Prop :=
  ∀ (port : Port) (bs rest : List Byte) (i : Instr), decode port bs = .ok (i, rest) → i.wf = true ∧ i.port = port

/-- The command-port bytes of SEND(02, 00, [], 0) and SET_TIMEOUT(100), the bytes 55 and AA in the two sync states, 40
and 41 in S_LEN, the command ids 00, 54, 64, 7F and 80, and the device error code 23 decode to their rows. Rests on
30_encoding.md section 4 (operation codes); 30_encoding.md section 3 (command ids, device error codes);
42_frame_decoder.md Whole-machine properties (transition table); log 25 (DESIGN CHOICE: operand layout). -/
def Obligations.SpecWordsDecodeToTheirInstructions : Prop :=
  decode .command [0, 0x02, 0x00, 0] = .ok (.send 0x02 0x00 [], []) ∧
  decode .command [3, 100, 0, 0, 0] = .ok (.setTimeout 100, []) ∧
  decode (.feedRow .sync0) [0x55] = .ok (.feedSync0Hit, []) ∧
  decode (.feedRow .sync1) [0xAA] = .ok (.feedSync1Hit, []) ∧
  decode (.feedRow .len) [0x40] = .ok (.feedLenAccept 0x40, []) ∧
  decode (.feedRow .len) [0x41] = .ok (.feedLenOver 0x41, []) ∧
  decode .commandId [0x00, 0x02] = .ok (.getProtocolVersion 0x02, []) ∧
  decode .commandId [0x54, 0x02, 0, 0, 0] = .ok (.classSet54 0x02 [] false 0, []) ∧
  decode .commandId [0x64, 0x02, 0, 0, 0] = .ok (.classAuxSet64 0x02 [] false 0, []) ∧
  decode .commandId [0x7F, 0x02, 0, 0, 0] = .ok (.unassigned65 0x7F 0x02 [] false 0, []) ∧
  decode .commandId [0x80] = .ok (.errorResponse 0x80, []) ∧
  decode .deviceError [0x23] = .ok (.deverrMotorStuck, [])

/-- If every input before e is held at the command port and e is not, and e decodes to i, the step is exec of i on the
state without e and with the strobes of the input before over. Rests on 00_scope.md section 5 (events); log 1 (DESIGN
CHOICE: inputs in order); log 2 (DEDUCED: held operations); log 28 (DESIGN CHOICE: strobes). -/
def Obligations.StepRunsTheDecodedInput : Prop :=
  ∀ (s : State) (before after : List Input) (e : Input) (i : Instr),
    s.inbox = before ++ e :: after → (∀ x ∈ before, held s x = true) → held s e = false → e.decode = .ok i →
    step s = exec i { s with inbox := before ++ after, strobes := ⟨false, false, none, false⟩ }

/-- With TSTATE not T_IDLE, exec of any host operation leaves the state as it is, and after any step every host operation
that was among the inputs still is. Rests on 43_transaction.md section 1 (accepting an operation; decision D19);
60_exceptions.md section 5; log 2 (DEDUCED). -/
def Obligations.BusyCommandPortAcceptsNothing : Prop :=
  (∀ (i : Instr) (s : State), isHostOp i = true → s.tstate ≠ .idle → exec i s = .next s) ∧
  ∀ (s t : State) (e : Input) (i : Instr), s.tstate ≠ .idle → e ∈ s.inbox → e.decode = .ok i → isHostOp i = true →
    step s = .next t → e ∈ t.inbox

/-- In every state exec of a reserved operation code answers the same state, and a step whose only input is one of them
leaves the state as it is, the input still presented. TXDONE is enabled only in T_TX and POLL only in T_WAIT; in
another sequencer state the model lets them take no step (log 3). Rests on 30_encoding.md section 4 (op codes 5 to 7;
decision D3); 93_implementation_defined.md U11; 43_transaction.md R146 and R152 (enabled only when); log 2 (DEDUCED);
log 3 (DEDUCED: the model's choice that such an event changes nothing). -/
def Obligations.InputsThatAreNeverOrNotYetEnabledTakeNoStep : Prop :=
  (∀ (i : Instr) (s : State), i = .reservedOp5 ∨ i = .reservedOp6 ∨ i = .reservedOp7 →
    exec i s = .next s ∧ (s.inbox = [⟨.command, encode i⟩] → step s = .next s)) ∧
  (∀ (ok : Bool) (now : U32) (s : State), s.tstate ≠ .tx → exec (.txdone ok now) s = .next s) ∧
  ∀ (now : U32) (s : State), s.tstate ≠ .wait → exec (.poll now) s = .next s

/-- Bit j of LRC(s) is the parity of the bits j of the bytes of s; LRC([]) = 0, LRC([b]) = b, LRC(s ++ [LRC(s)]) = 0, the
order of the bytes does not matter; the row LRC writes no engine state and delivers LRC of its operand. Rests on
40_checksum.md Generation (R90; its corner cases are derived there); 30_encoding.md section 4 (R80); log 20 (DESIGN
CHOICE: where the row LRC puts its value). -/
def Obligations.LrcIsTheBitwiseExclusiveOr : Prop :=
  (∀ (s : List Byte) (j : Nat), j < 8 →
    (lrc s).getLsbD j = decide (s.countP (fun b => b.getLsbD j) % 2 = 1)) ∧
  lrc [] = 0x00 ∧ (∀ b : Byte, lrc [b] = b) ∧ (∀ s : List Byte, lrc (s ++ [lrc s]) = 0x00) ∧
  (∀ s r : List Byte, s.Perm r → lrc s = lrc r) ∧
  ∀ (bytes : List Byte) (s : State), exec (.lrc bytes) s = .next { s with fnOut := some (.lrc (lrc bytes)) }

/-- With FRAME_READY = 1 the row CHK_OK delivers whether the exclusive-or of the header bytes and the first RX_LEN
payload bytes equals RX_CHK, reading no other byte. With FRAME_READY = 0 the checksum unit reads nothing and the row
takes no step, the model's reading of R15 (log 32). Rests on 40_checksum.md Validation (R92); 10_state.md section 2
(R15); log 32 (DEDUCED: no frame pending); log 20 (DESIGN CHOICE: where the value goes). -/
def Obligations.ChkOkComparesTheRecomputedChecksum : Prop :=
  (∀ (s : State) (p : List Byte), s.frameReady = true → memRead s.rxPayload 0 s.rxLen.toNat = some p →
    exec .chkOk s = .next { s with
      fnOut := some (.chkOk (lrc (s.rxDest :: s.rxSrc :: s.rxCmd :: s.rxLen :: p) == s.rxChk)) }) ∧
  ∀ s : State, s.frameReady = false → exec .chkOk s = .next s

/-- If CHK_OK holds of a buffer (header, payload and checksum bytes), it fails for every buffer of the same shape that
differs from it in one bit of one byte (the number of payload bytes held fixed), and holds for every one that differs
in the same bit of two different bytes. Rests on 40_checksum.md Validation (R93; that a flip of RX_CHK is detected
and two flips in one position are not is derived there). -/
def Obligations.SingleBitFlipsAreDetected : Prop :=
  ∀ (s s' : State) (p p' : List Byte) (j : Nat), j < 8 → chkOk s p = true →
    (∀ (pre post : List Byte) (b : Byte), checkedBytes s p = pre ++ b :: post →
      checkedBytes s' p' = pre ++ (b ^^^ (1#8 <<< j)) :: post → chkOk s' p' = false) ∧
    ∀ (pre mid post : List Byte) (b c : Byte), checkedBytes s p = pre ++ b :: mid ++ c :: post →
      checkedBytes s' p' = pre ++ (b ^^^ (1#8 <<< j)) :: mid ++ (c ^^^ (1#8 <<< j)) :: post → chkOk s' p' = true

/-- For a payload below 64 bytes ENCODE gives, for UART, 55 AA then dest, local address, cmd, n, payload and the
exclusive-or from dest to the last payload byte; on a bus the same without the sync bytes; its length is n + 7 or n +
5. For 64 bytes or more it delivers SizeExceeded. No engine state changes. Rests on 41_frame_encoder.md ENCODE (R100,
R101, R102); 40_checksum.md Generation (R91); 30_encoding.md section 4 (R80); log 20 (DESIGN CHOICE: ENCODE as an
instruction that puts its value in FN_OUT). -/
def Obligations.EncoderBuildsTheFrameOrRefuses : Prop :=
  ∀ (dest cmd : Byte) (p : List Byte) (s : State),
    (p.length < 64 → exec (.encode dest cmd p) s = .next { s with fnOut := some (.encoded (wireFrame s.cons dest cmd p)) } ∧
      (wireFrame s.cons dest cmd p).length = p.length + (match s.cons.proto with | .uart => 7 | .bus => 5)) ∧
    (64 ≤ p.length → exec (.encode dest cmd p) s = .next { s with fnOut := some .sizeExceeded })

/-- An engine encodes a payload below 64 bytes; fed byte by byte to an engine of the same protocol kind that is in INIT
with no pending frame, the frame leaves it in INIT; if its local address is the destination, the frame is pending
with the fields sent and CHK_OK holds, else no frame is pending. Rests on 41_frame_encoder.md ENCODE (R105, derived
there from R100 and R112 to R120); 90_conflicts.md C8. -/
def Obligations.EncodedFramesRoundTripThroughTheDecoder : Prop :=
  ∀ (a : Construction) (s : State) (dest cmd : Byte) (p : List Byte),
    p.length < 64 → a.proto = s.cons.proto → s.dstate = s.init → s.frameReady = false →
    ∃ f t, encodeFrame a dest cmd p = some f ∧ feedAll f s = .next t ∧ t.dstate = s.init ∧
      (dest = s.cons.localAddr →
        t.frameReady = true ∧ t.rxDest = dest ∧ t.rxSrc = a.localAddr ∧ t.rxCmd = cmd ∧ t.rxLen.toNat = p.length ∧
          memRead t.rxPayload 0 p.length = some p ∧ chkOk t p = true) ∧
      (dest ≠ s.cons.localAddr → t.frameReady = false)

/-- With FRAME_READY = 1 a FEED leaves the whole state as it is; so does every FEED dispatch row presented as an
instruction, the model's choice (log 21). Rests on 42_frame_decoder.md The FEED event (R110); 10_state.md section 3
(R22); log 21 (DEDUCED: so does a dispatch row). -/
def Obligations.FedBytesAreIgnoredWhileAFrameIsPending : Prop :=
  ∀ (i : Instr) (s : State), isFeed i = true → s.frameReady = true → exec i s = .next s

/-- With no frame pending, FEED(b) is the dispatch row the transition table gives for DSTATE and b. A dispatch row of
decode state d, in a state whose DSTATE is not d, leaves the state as it is (the model's choice, log 21). Rests on
42_frame_decoder.md The FEED event (R111; decisions D5, D7); 42_frame_decoder.md Whole-machine properties (transition
table); log 21 (DEDUCED: the rows as instructions; a row that is not selected takes no step). -/
def Obligations.FeedTakesTheDispatchRowItsStateSelects : Prop :=
  (∀ (b : Byte) (s : State), s.frameReady = false → exec (.feed b) s = exec (feedRowOf s.dstate b) s) ∧
  ∀ (i : Instr) (d : DState) (s : State), i.port = .feedRow d → s.dstate ≠ d → exec i s = .next s

/-- In S_SYNC0 with no frame pending, FEED(0x55) and its row only set DSTATE to S_SYNC1; FEED of another byte and its row
leave DSTATE in S_SYNC0. In S_SYNC1, FEED(0xAA) and its row set DSTATE to S_DEST, FEED of another byte and its row to
S_SYNC0 (decision D5). Nothing else changes. Rests on 42_frame_decoder.md State by state (R112); 42_frame_decoder.md
State by state (R113; the wrong byte is the spec's choice, D5); log 21 (DEDUCED: the rows as instructions). -/
def Obligations.SyncSearchFindsTheTwoSyncBytes : Prop :=
  ∀ s : State, s.frameReady = false →
    (s.dstate = .sync0 →
      exec (.feed 0x55) s = .next { s with dstate := .sync1 } ∧
      exec .feedSync0Hit s = .next { s with dstate := .sync1 } ∧
      ∀ b : Byte, b ≠ 0x55 →
        exec (.feed b) s = .next { s with dstate := .sync0 } ∧
        exec (.feedSync0Miss b) s = .next { s with dstate := .sync0 }) ∧
    (s.dstate = .sync1 →
      exec (.feed 0xAA) s = .next { s with dstate := .dest } ∧
      exec .feedSync1Hit s = .next { s with dstate := .dest } ∧
      ∀ b : Byte, b ≠ 0xAA →
        exec (.feed b) s = .next { s with dstate := .sync0 } ∧
        exec (.feedSync1Miss b) s = .next { s with dstate := .sync0 })

/-- With no frame pending, FEED(b) and the row in S_DEST write RX_DEST and go to S_SRC, in S_SRC write RX_SRC and go to
S_CMD, in S_CMD write RX_CMD and go to S_LEN; nothing else changes. Rests on 42_frame_decoder.md State by state
(R114, R115, R116); log 21 (DEDUCED: the rows as instructions). -/
def Obligations.HeaderBytesGoToTheirRegisters : Prop :=
  ∀ (b : Byte) (s : State), s.frameReady = false →
    (s.dstate = .dest → exec (.feed b) s = .next { s with rxDest := b, dstate := .src } ∧
      exec (.feedDest b) s = .next { s with rxDest := b, dstate := .src }) ∧
    (s.dstate = .src → exec (.feed b) s = .next { s with rxSrc := b, dstate := .cmd } ∧
      exec (.feedSrc b) s = .next { s with rxSrc := b, dstate := .cmd }) ∧
    (s.dstate = .cmd → exec (.feed b) s = .next { s with rxCmd := b, dstate := .len } ∧
      exec (.feedCmd b) s = .next { s with rxCmd := b, dstate := .len })

/-- In S_LEN with no frame pending: above 64, FEED and the row set DSTATE to INIT only; 0 sets RX_LEN and D_REMAIN to 0
and goes to S_CHK; 1 to 64 sets both to the count and goes to S_DATA; nothing else changes. Rests on
42_frame_decoder.md State by state (R117, R118; decisions D6, D7); 90_conflicts.md C1; log 21 (DEDUCED: the rows as
instructions). -/
def Obligations.ByteCountIsAcceptedUpToSixtyFour : Prop :=
  ∀ s : State, s.frameReady = false → s.dstate = .len →
    (∀ b : Byte, 64 < b.toNat →
      exec (.feed b) s = .next { s with dstate := s.init } ∧ exec (.feedLenOver b) s = .next { s with dstate := s.init }) ∧
    (exec (.feed 0) s = .next { s with rxLen := 0, dRemain := 0, dstate := .chk } ∧
      exec .feedLenZero s = .next { s with rxLen := 0, dRemain := 0, dstate := .chk }) ∧
    ∀ b : Byte, 1 ≤ b.toNat → b.toNat ≤ 64 →
      exec (.feed b) s = .next { s with rxLen := b, dRemain := BitVec.ofNat 7 b.toNat, dstate := .data } ∧
      exec (.feedLenAccept b) s = .next { s with rxLen := b, dRemain := BitVec.ofNat 7 b.toNat, dstate := .data }

/-- In S_DATA with no frame pending and 1 <= D_REMAIN <= RX_LEN <= 64, FEED(b) and the row write b at index RX_LEN -
D_REMAIN of RX_PAYLOAD and no other byte, lower D_REMAIN by one, and go to S_CHK when it reaches 0, else stay in
S_DATA; nothing else changes. Rests on 42_frame_decoder.md State by state (R119); 10_state.md section 1 (R11); log 21
(DEDUCED: the row as an instruction). -/
def Obligations.PayloadBytesAreStoredInArrivalOrder : Prop :=
  ∀ (b : Byte) (s : State), s.frameReady = false → s.dstate = .data →
    1 ≤ s.dRemain.toNat → s.dRemain.toNat ≤ s.rxLen.toNat → s.rxLen.toNat ≤ 64 →
    ∃ t, exec (.feed b) s = .next t ∧ exec (.feedData b) s = .next t ∧
      t = { s with rxPayload := t.rxPayload, dRemain := t.dRemain, dstate := t.dstate } ∧
      t.dRemain.toNat = s.dRemain.toNat - 1 ∧
      t.dstate = (if s.dRemain.toNat = 1 then .chk else .data) ∧
      t.rxPayload.read (s.rxLen.toNat - s.dRemain.toNat) = some b ∧
      ∀ a, a ≠ s.rxLen.toNat - s.dRemain.toNat → t.rxPayload.read a = s.rxPayload.read a

/-- In S_CHK with no frame pending, FEED(b) and the row write RX_CHK and set DSTATE to INIT; FRAME_READY becomes 1 if
RX_DEST is the local address and stays 0 if not; nothing else changes. Rests on 42_frame_decoder.md State by state
(R120); log 21 (DEDUCED: the row as an instruction). -/
def Obligations.ChecksumByteAppliesTheAddressFilter : Prop :=
  ∀ (b : Byte) (s : State), s.frameReady = false → s.dstate = .chk →
    let t := { s with rxChk := b, dstate := s.init, frameReady := decide (s.rxDest = s.cons.localAddr) }
    exec (.feed b) s = .next t ∧ exec (.feedChk b) s = .next t

/-- With no frame pending, from every decode state (the two sync states on a UART only, as on every run; in S_DATA with
the counter in range), among any 69 bytes fed, 70 from S_SYNC1 and 71 from S_SYNC0, some first k of them, k at least
1, lead to INIT or to a pending frame. Rests on 42_frame_decoder.md Whole-machine properties (R122, derived there
from R121). -/
def Obligations.DecoderCannotHang : Prop :=
  ∀ (s : State) (bs : List Byte), s.frameReady = false → (s.dstate = .sync0 ∨ s.dstate = .sync1 → s.cons.proto = .uart) →
    (s.dstate = .data → 1 ≤ s.dRemain.toNat ∧ s.dRemain.toNat ≤ s.rxLen.toNat ∧ s.rxLen.toNat ≤ 64) →
    bs.length = (if s.dstate = .sync0 then 71 else if s.dstate = .sync1 then 70 else 69) →
    ∃ k t, 1 ≤ k ∧ k ≤ bs.length ∧ feedAll (bs.take k) s = .next t ∧ (t.dstate = t.init ∨ t.frameReady = true)

/-- If an instruction answers a state with another DSTATE, it is a FEED or a dispatch row with FRAME_READY = 0, or a POLL
in T_WAIT with no pending frame that ends in Timeout and sets INIT, or RESET. Rests on 10_state.md section 1 (R13);
log 21 (DEDUCED: the FEED dispatch rows). -/
def Obligations.DecodeStateChangesOnlyByFeedTimeoutAndReset : Prop :=
  ∀ (i : Instr) (s t : State), exec i s = .next t → t.dstate ≠ s.dstate →
    (isFeed i = true ∧ s.frameReady = false) ∨
    (∃ now, i = .poll now ∧ s.tstate = .wait ∧ s.frameReady = false ∧ t.dstate = s.init ∧ t.result = .timeout ∧
      t.tstate = .idle) ∨
    i = .reset

/-- An instruction that is not RESET leaves the decode buffer and every byte of RX_PAYLOAD as they are unless it is a
FEED or a dispatch row and FRAME_READY = 0. Rests on 10_state.md section 2 (R15); 20_memory.md section 6 (R51, R52);
log 21 (DEDUCED: the FEED dispatch rows). -/
def Obligations.DecodeBufferIsWrittenOnlyByFeedWithNoFramePending : Prop :=
  ∀ (i : Instr) (s t : State), exec i s = .next t → i ≠ .reset → isFeed i = false ∨ s.frameReady = true →
    sameDecodeBuffer s t

/-- If FRAME_READY goes from 0 to 1 the instruction is a FEED, or a FEED dispatch row (an instruction by the model's
choice, log 21), of a byte in S_CHK with RX_DEST the local address. If it goes from 1 to 0 the instruction is RESET,
TXDONE in T_TX, or a POLL, or a row of its device-error arm (an instruction by the model's choice, log 23), that
ended the RECV in T_WAIT with another result than ChecksumMismatch. TXDONE in T_TX and RESET leave it 0. A POLL that
ends the RECV on a pending frame clears it exactly when the result is not ChecksumMismatch. Rests on 10_state.md
section 3 (R21); 43_transaction.md sections 2 and 3 (R146, R156 to R161); log 21 (DEDUCED: the FEED dispatch rows as
instructions); log 23 (DEDUCED: the ERROR_RESPONSE and device error code rows as completions). -/
def Obligations.FrameReadyIsSetByTheAddressFilterAndClearedByItsConsumers : Prop :=
  ∀ (i : Instr) (s t : State), exec i s = .next t →
    (s.frameReady = false → t.frameReady = true → isFeed i = true ∧ s.dstate = .chk ∧ s.rxDest = s.cons.localAddr) ∧
    (s.frameReady = true → t.frameReady = false →
      i = .reset ∨ (∃ ok now, i = .txdone ok now ∧ s.tstate = .tx) ∨
      (isCompletion i = true ∧ s.tstate = .wait ∧ t.tstate = .idle ∧ t.result ≠ .checksumMismatch)) ∧
    (∀ ok now, i = .txdone ok now → s.tstate = .tx → t.frameReady = false) ∧
    (i = .reset → t.frameReady = false) ∧
    (∀ now, i = .poll now → s.tstate = .wait → s.frameReady = true → t.tstate = .idle →
      (t.frameReady = false ↔ t.result ≠ .checksumMismatch))

/-- If an instruction other than RESET answers a state with another REMOTE_ERR, it completed a waiting RECV on a pending
frame with the error bit, the result is HandError, and REMOTE_ERR is the content of RX_PAYLOAD[0] if that has one.
Rests on 10_state.md section 5 (R27; decision D15); 43_transaction.md section 3 (R157); log 10 (free value where
nothing has been written). -/
def Obligations.RemoteErrorIsWrittenOnlyByTheDeviceErrorArm : Prop :=
  ∀ (i : Instr) (s t : State), exec i s = .next t → i ≠ .reset → t.remoteErr ≠ s.remoteErr →
    isCompletion i = true ∧ s.tstate = .wait ∧ s.frameReady = true ∧ s.rxCmd.getLsbD 7 = true ∧ t.result = .handError ∧
      ∀ b, s.rxPayload.read 0 = some b → t.remoteErr = b

/-- If an instruction other than RESET changes RESP_LEN or a byte of RESP_BUF, it is a POLL in T_WAIT on a pending frame
with a good checksum whose checks (b) to (e) pass, with a buffer supplied, and the byte's index is below RX_LEN.
Rests on 10_state.md section 5 (R28; decision D31); 43_transaction.md section 3 (R160, R161). -/
def Obligations.ResponseBufferIsWrittenOnlyByAnAcceptedResponse : Prop :=
  ∀ (i : Instr) (s t : State), exec i s = .next t → i ≠ .reset →
    (t.respLen ≠ s.respLen ∨ ∃ a, t.respBuf.read a ≠ s.respBuf.read a) →
    (∃ now, i = .poll now) ∧ (∃ p, goodFramePending s p) ∧ responseAccepted s ∧ s.tHasBuf = true ∧
      ∀ a, s.rxLen.toNat ≤ a → t.respBuf.read a = s.respBuf.read a

/-- SET_TIMEOUT accepted in T_IDLE writes CFG_TIMEOUT_MS, every value legal, and ends in Success; nothing else changes,
no latch either (log 42). Every next state of every instruction has the same construction parameters. If
CFG_TIMEOUT_MS differs, the instruction is RESET or a SET_TIMEOUT of the new value accepted in T_IDLE. Rests on
60_exceptions.md section 6 (R228; decision D26); 20_memory.md section 7 (R54; decision D20); 10_state.md section 6
(R30); 43_transaction.md section 5 (R165; decision D20); log 42 (DESIGN CHOICE: SET_TIMEOUT writes no latch). -/
def Obligations.ConfigurationIsImmutableButForTheTimeout : Prop :=
  (∀ (v : U32) (s : State), s.tstate = .idle →
    exec (.setTimeout v) s = .next (endOfOp { s with cfgTimeoutMs := v } .success)) ∧
  ∀ (i : Instr) (s t : State), exec i s = .next t →
    t.cons = s.cons ∧
    (t.cfgTimeoutMs ≠ s.cfgTimeoutMs → i = .reset ∨ (∃ v, i = .setTimeout v ∧ s.tstate = .idle ∧ t.cfgTimeoutMs = v))

/-- If TSTATE is not T_IDLE before and after an instruction, T_KIND, T_DEST, T_CMD, T_HASBUF, T_CAP, T_DESC and the
model's two further latches are unchanged, and so are T_TIMEOUT and T_START unless the instruction is TXDONE. Rests
on 10_state.md section 4 (R24; decision D2); 43_transaction.md section 1 (R140); log 16 (DEDUCED: two further
latches). -/
def Obligations.LatchesAreConstantDuringAnOperation : Prop :=
  ∀ (i : Instr) (s t : State), exec i s = .next t → s.tstate ≠ .idle → t.tstate ≠ .idle →
    t.tKind = s.tKind ∧ t.tDest = s.tDest ∧ t.tCmd = s.tCmd ∧ t.tHasBuf = s.tHasBuf ∧ t.tCap = s.tCap ∧
      t.tDesc = s.tDesc ∧ t.tArg0 = s.tArg0 ∧ t.tMotorCap = s.tMotorCap ∧
      ((∀ ok now, i ≠ .txdone ok now) → t.tTimeout = s.tTimeout ∧ t.tStart = s.tStart)

/-- If an instruction other than RESET changes TX_LEN, TX_DEST or a byte of TX_BUF, it is a host operation, TSTATE was
T_IDLE and is T_TX. Rests on 10_state.md section 4 (R25); 43_transaction.md section 2 (R145; decision D30). -/
def Obligations.TransmitRegistersAreWrittenOnlyByASend : Prop :=
  ∀ (i : Instr) (s t : State), exec i s = .next t → i ≠ .reset → ¬ sameTransmit s t →
    isHostOp i = true ∧ s.tstate = .idle ∧ t.tstate = .tx

/-- If TSTATE goes from another state to T_IDLE, the instruction is RESET or RESULT has been written and done is given.
If RESULT changes, the instruction is RESET or TSTATE is T_IDLE and done is given. Rests on 43_transaction.md section
6 (R166); 10_state.md section 5 (R26); 60_exceptions.md section 2 (R223); log 28 (DESIGN CHOICE: strobes). -/
def Obligations.AnOperationEndsExactlyWithAResult : Prop :=
  ∀ (i : Instr) (s t : State), exec i s = .next t →
    (s.tstate ≠ .idle → t.tstate = .idle → i = .reset ∨ (t.resultWritten = true ∧ t.strobes.done = true)) ∧
    (t.result ≠ s.result → i = .reset ∨ (t.tstate = .idle ∧ t.strobes.done = true))

/-- If State.Inv holds of s and the step answers a next state, State.Inv holds of it: buffer indexes rising and in range,
1 <= D_REMAIN <= RX_LEN <= 64 in S_DATA, a pending frame complete, addressed to this node and the decoder in INIT,
S_SYNC0 and S_SYNC1 never on a bus, an operation in progress only with its capabilities, a delay only while a RECV
waits, RESP_BUF written up to RESP_LEN. Rests on 10_state.md sections 1 to 5 (R11, R13, R14, R20, R25, R28);
43_transaction.md section 3 (R151, R162); 20_memory.md section 1 (R40); log 45 (DESIGN CHOICE: the delay). -/
def Obligations.EveryStepKeepsTheInvariant : Prop :=
  ∀ s t : State, s.Inv → step s = .next t → t.Inv

/-- State.Inv holds of State.reset and of every construction of an instance, with every value of the registers R261
leaves unspecified. Rests on 70_reset_and_hazards.md section 1 (R260, R261; decision D18); log 7 (DESIGN CHOICE); log
6 (DESIGN CHOICE). -/
def Obligations.EveryConstructedInstanceMeetsTheInvariant : Prop :=
  State.reset.Inv ∧ ∀ (c : Construction) (draw : Nat → Nat), (State.construct c draw).Inv

/-- If State.Inv holds of s, the step gives no fault; and exec of POLL, TXDONE, RESET, a FEED or a dispatch row gives a
next state. Rests on 42_frame_decoder.md State by state (R119, invariant on entry); 70_reset_and_hazards.md section 1
(R261); log 21 (DEDUCED: the FEED dispatch rows); log 23 (DEDUCED: the completion rows); log 31 (the two faults). -/
def Obligations.NoFaultFromAStateThatMeetsTheInvariant : Prop :=
  ∀ s : State, s.Inv →
    (∀ f, step s ≠ .fault f) ∧
    ∀ i : Instr, isFeed i = true ∨ isCompletion i = true ∨ i = .reset ∨ (∃ ok now, i = .txdone ok now) →
      ∃ t, exec i s = .next t

/-- In every state RESET answers a state with DSTATE = INIT, D_REMAIN = 0, FRAME_READY = 0, TSTATE = T_IDLE,
CFG_TIMEOUT_MS = TIMEOUT_INIT, the same construction parameters and no done indication; in State.reset, the UART
instance of log 6, these hold too. The model's choices: no buffer byte holds a value (log 9), RESULT, REMOTE_ERR and
the response buffer count as not written (log 11), CAT_OUT and FN_OUT hold nothing (log 43), no delay is asked for
(log 45), the other inputs stay. Rests on 70_reset_and_hazards.md section 1 (R260, R261; FRAME_READY, TSTATE and
D_REMAIN are the spec's choice, D18); log 6 (DESIGN CHOICE: the instance of State.reset); log 8 (DEDUCED: unspecified
registers are free values); log 9 (DESIGN CHOICE: no buffer byte has a value); log 11 (DESIGN CHOICE: RESULT,
REMOTE_ERR, response not written); log 43 (DESIGN CHOICE: CAT_OUT and FN_OUT hold nothing); log 45 (DESIGN CHOICE: no
delay). -/
def Obligations.ResetConstructsTheInstanceAgain : Prop :=
  (∀ s : State, ∃ t, exec .reset s = .next t ∧
    t.dstate = (match s.cons.proto with | .uart => .sync0 | .bus => .dest) ∧ t.dRemain = 0 ∧ t.frameReady = false ∧
    t.tstate = .idle ∧ t.cfgTimeoutMs = s.cons.timeoutInit ∧ t.cons = s.cons ∧
    (∀ a, t.rxPayload.read a = none ∧ t.txBuf.read a = none ∧ t.respBuf.read a = none) ∧
    t.hostResult = none ∧ t.hostRemoteErr = none ∧ t.hostResponse = none ∧ t.catOut = none ∧ t.fnOut = none ∧
    t.delay = .idle ∧ t.strobes.done = false ∧ t.inbox = s.inbox) ∧
  State.reset.dstate = .sync0 ∧ State.reset.cons.proto = .uart ∧ State.reset.dRemain = 0 ∧ State.reset.frameReady = false ∧
  State.reset.tstate = .idle ∧ State.reset.cfgTimeoutMs = State.reset.cons.timeoutInit ∧ State.reset.catOut = none ∧
  State.reset.fnOut = none

/-- SEND accepted with CAP_SEND = 0 ends at once in InvalidContext, whatever else holds; with all capabilities it ends in
DataTooLarge for a payload of 64 bytes or more, and goes on to the transmit for fewer. At either failure RESULT,
TSTATE and done are written and no other state of the spec but the latches of R24, of which nothing is said here:
nothing is encoded or transmitted, FRAME_READY is not touched. Formalises R141; R143. -/
def Obligations.SendFailsWithoutTransportOrWithALargePayload : Prop :=
  ∀ (dest cmd : Byte) (p : List Byte) (s : State), s.tstate = .idle → s.sendOpen = false →
    (s.cons.capSend = false → ∃ t, exec (.send dest cmd p) s = .next t ∧
      t = { endOfOp s .invalidContext with
        tKind := t.tKind, tDest := t.tDest, tCmd := t.tCmd, resultWritten := t.resultWritten }) ∧
    (canSend s → 64 ≤ p.length → ∃ t, exec (.send dest cmd p) s = .next t ∧
      t = { endOfOp s .dataTooLarge with
        tKind := t.tKind, tDest := t.tDest, tCmd := t.tCmd, resultWritten := t.resultWritten }) ∧
    (canSend s → p.length < 64 → ∃ t, exec (.send dest cmd p) s = .next t ∧ t.tstate = .tx)

/-- SEND accepted with all capabilities and n < 64 latches its operands, puts the frame in the first bytes of TX_BUF and
no other byte, its length in TX_LEN, the destination in TX_DEST, gives tx_req and goes to T_TX; nothing else changes,
DSTATE and FRAME_READY among it. Rests on 43_transaction.md section 2 (R145; T_TX is the spec's rendering, D30);
41_frame_encoder.md ENCODE (R100, R103). -/
def Obligations.SendHandsTheFrameToTheTransmitter : Prop :=
  ∀ (dest cmd : Byte) (p : List Byte) (s : State), s.tstate = .idle → s.sendOpen = false → canSend s → p.length < 64 →
    ∃ t, exec (.send dest cmd p) s = .next t ∧
      frameRequested { s with tKind := .send, tDest := dest, tCmd := cmd } t dest (wireFrame s.cons dest cmd p)

/-- With SEND_OPEN set SEND in T_IDLE is refused as secondSend; SEND_OPEN is set only by TXDONE(true) of a SEND. CAT in
T_IDLE is refused as descriptorNotInTable when the table holds no admitted descriptor of the index. Every host
operation but these, a CAT of a descriptor in the table among them whatever its arguments and whatever capability is
missing, answers a next state. Rests on 70_reset_and_hazards.md section 3 (R270; decision D19);
93_implementation_defined.md U1, U9; 92_eei_decisions.md D21; 44_command_catalogue.md section 2 (R181); log 12
(DEDUCED); log 14 (DESIGN CHOICE); log 15 (DESIGN CHOICE). -/
def Obligations.StopsAreExactlyTheNamedOnes : Prop :=
  (∀ (dest cmd : Byte) (p : List Byte) (s : State), s.tstate = .idle → s.sendOpen = true →
    exec (.send dest cmd p) s = .refused .secondSend) ∧
  (∀ (i : Instr) (s t : State), exec i s = .next t → s.sendOpen = false → t.sendOpen = true →
    (∃ now, i = .txdone true now) ∧ s.tstate = .tx ∧ s.tKind = .send) ∧
  (∀ (desc dest motorCap : Byte) (args : List Arg) (s : State), s.tstate = .idle → lookupDescriptor s.cons desc = none →
    exec (.cat desc dest motorCap args) s = .refused .descriptorNotInTable) ∧
  ∀ (i : Instr) (s : State), isHostOp i = true →
    (∀ dest cmd p, i = .send dest cmd p → s.sendOpen = false) →
    (∀ desc dest motorCap args, i = .cat desc dest motorCap args → lookupDescriptor s.cons desc ≠ none) →
    ∃ t, exec i s = .next t

/-- For XFER and each row of the command id ranges (well formed), accepted with all capabilities and a payload below 64
bytes: the operands are latched, the frame with that command id is put in TX_BUF and requested, TSTATE is T_TX;
nothing else changes. Rests on 43_transaction.md section 4 (R163); 44_command_catalogue.md section 4 (R187);
30_encoding.md section 3 (R70, R74); log 22 (DEDUCED: the rows of the command id ranges). -/
def Obligations.TransactionsHandTheirFrameToTheTransmitter : Prop :=
  ∀ (i : Instr) (dest cmd : Byte) (p : List Byte) (hasBuf : Bool) (cap : Byte) (s : State),
    transactionOf i = some (dest, cmd, p, hasBuf, cap) → i.wf = true → s.tstate = .idle → canSend s → p.length < 64 →
    ∃ t, exec i s = .next t ∧
      frameRequested { s with tKind := .xfer, tDest := dest, tCmd := cmd, tHasBuf := hasBuf, tCap := cap } t dest
        (wireFrame s.cons dest cmd p)

/-- For SEND, XFER and each row of the command id ranges (well formed), accepted: with CAP_SEND = 0 the result is
InvalidContext; else with a clock capability missing TimerNotSet; else with 64 bytes or more DataTooLarge. RESULT,
TSTATE and done are written, and the operands latched on acceptance stay latched, the model's reading of R140 (log
38); nothing else changes. CAT and the two catalogue rows have a statement of their own. Rests on 43_transaction.md
section 1 (R140); 43_transaction.md sections 2 and 4 (R141 to R144, R163; decisions D10, D34); log 22 (DEDUCED: the
rows of the command id ranges); log 38 (DEDUCED from R140, unsafe: the operands of a failing operation stay latched). -/
def Obligations.TransactionsFailAsSendDoes : Prop :=
  (∀ (dest cmd : Byte) (p : List Byte) (s : State), s.tstate = .idle → s.sendOpen = false →
    let s' : State := { s with tKind := .send, tDest := dest, tCmd := cmd }
    (s.cons.capSend = false → exec (.send dest cmd p) s = .next (endOfOp s' .invalidContext)) ∧
    (s.cons.capSend = true → (s.cons.capNow = false ∨ s.cons.capDelay = false) →
      exec (.send dest cmd p) s = .next (endOfOp s' .timerNotSet)) ∧
    (canSend s → 64 ≤ p.length → exec (.send dest cmd p) s = .next (endOfOp s' .dataTooLarge))) ∧
  ∀ (i : Instr) (dest cmd : Byte) (p : List Byte) (hasBuf : Bool) (cap : Byte) (s : State),
    transactionOf i = some (dest, cmd, p, hasBuf, cap) → i.wf = true → s.tstate = .idle →
    let s' : State := { s with tKind := .xfer, tDest := dest, tCmd := cmd, tHasBuf := hasBuf, tCap := cap }
    (s.cons.capSend = false → exec i s = .next (endOfOp s' .invalidContext)) ∧
    (s.cons.capSend = true → (s.cons.capNow = false ∨ s.cons.capDelay = false) →
      exec i s = .next (endOfOp s' .timerNotSet)) ∧
    (canSend s → 64 ≤ p.length → exec i s = .next (endOfOp s' .dataTooLarge))

/-- In T_TX, TXDONE(false) clears FRAME_READY and ends in RemoteTransportError; TXDONE(true) clears it and ends a SEND in
Success, or for another operation sets T_TIMEOUT to CFG_TIMEOUT_MS, T_START to now_ms and TSTATE to T_WAIT and begins
the first poll iteration with its pump strobe; the decoder's state and buffer are not written. Rests on
43_transaction.md section 2 (R146; where the flag is cleared is decision D10); 43_transaction.md section 3 (R150,
R151); log 12 (SEND_OPEN); log 28 (DESIGN CHOICE: strobes). -/
def Obligations.TxdoneEndsTheSendOrStartsTheReceive : Prop :=
  ∀ (now : U32) (s : State), s.tstate = .tx →
    exec (.txdone false now) s = .next (endOfOp { s with frameReady := false } .remoteTransportError) ∧
    (s.tKind = .send →
      exec (.txdone true now) s = .next { endOfOp { s with frameReady := false } .success with sendOpen := true }) ∧
    (s.tKind ≠ .send →
      exec (.txdone true now) s = .next { s with
        frameReady := false, tTimeout := s.cfgTimeoutMs, tStart := now, tstate := .wait, delay := .idle
        strobes := { s.strobes with pump := s.cons.capPump } })

/-- RECV accepted with both clock capabilities latches its operands, T_START = now_ms, goes to T_WAIT and begins the
first poll iteration with its pump strobe, FRAME_READY and the decoder untouched; with one missing it ends at once in
TimerNotSet. Rests on 43_transaction.md section 3 (R150; TimerNotSet is the spec's choice, D12); 43_transaction.md
section 3 (R151); log 28 (DESIGN CHOICE: strobes); log 29 (DEDUCED: which latches a failing RECV writes). -/
def Obligations.RecvStartsWaitingOrNeedsAClock : Prop :=
  ∀ (dest cmd : Byte) (timeoutMs : U32) (hasBuf : Bool) (cap : Byte) (now : U32) (s : State), s.tstate = .idle →
    (s.cons.capNow = true → s.cons.capDelay = true →
      exec (.recv dest cmd timeoutMs hasBuf cap now) s = .next { s with
        tKind := .recv, tDest := dest, tCmd := cmd, tTimeout := timeoutMs, tHasBuf := hasBuf, tCap := cap, tStart := now
        tstate := .wait, delay := .idle, strobes := { s.strobes with pump := s.cons.capPump } }) ∧
    (s.cons.capNow = false ∨ s.cons.capDelay = false →
      exec (.recv dest cmd timeoutMs hasBuf cap now) s = .next (endOfRecv { s with tKind := .recv } .timerNotSet))

/-- An enabled POLL with FRAME_READY = 0: if (now_ms - T_START) mod 2^32 > T_TIMEOUT, it sets DSTATE to INIT and ends in
Timeout, else it gives delay_req with delay_ms = 1, stays in T_WAIT and waits for that delay; nothing else changes.
Rests on 43_transaction.md section 3 (R154; 32-bit modular clock is decision D8); 43_transaction.md section 3 (R151);
60_exceptions.md section 7 (R240, R243; decision D9); 00_scope.md section 4 (R4); log 28 (DESIGN CHOICE: strobes);
log 45 (DESIGN CHOICE: the delay). -/
def Obligations.PollTimesOutWhenElapsedExceedsTheTimeout : Prop :=
  ∀ (now : U32) (s : State), pollEnabled s now = true → s.frameReady = false →
    let elapsed := (now.toNat + (2 ^ 32 - s.tStart.toNat)) % 2 ^ 32
    (s.tTimeout.toNat < elapsed → exec (.poll now) s = .next { endOfRecv s .timeout with dstate := s.init }) ∧
    (elapsed ≤ s.tTimeout.toNat → exec (.poll now) s = .next { s with
      strobes := { s.strobes with delayReq := some 1 }, delay := .running now })

/-- POLL is enabled exactly in T_WAIT with no delay asked for yet, or with the last one over and, where clock and delay
agree, now_ms at least 1 past the poll that asked for it. A POLL that is not enabled takes no step, the model's
choice (log 3 outside T_WAIT, log 45 before its time), and neither does, while the delay runs, any row of its
device-error arm, an instruction by the model's choice (log 23). A step that takes delay_done while a delay runs
marks it over and gives the pump strobe if the pump is configured; with none running it changes nothing but the
strobes (logs 28, 45). Rests on 43_transaction.md section 3 (R151, R152; decision D9); 60_exceptions.md section 7
(R240, R243); 00_scope.md section 4 (R4, POLL_MS); 93_implementation_defined.md U16; log 3 (DEDUCED: a POLL that is
not enabled changes nothing); log 23 (DEDUCED: the ERROR_RESPONSE and device error code rows as completions); log 28
(DESIGN CHOICE: strobes); log 45 (DESIGN CHOICE: the delay input, and that a POLL too early takes no step). -/
def Obligations.PollWaitsForTheRequestedDelay : Prop :=
  (∀ (now : U32) (s : State), pollEnabled s now = true ↔ s.tstate = .wait ∧
    (s.delay = .idle ∨ ∃ since : U32, s.delay = .ended since ∧
      (s.cons.clockAgrees = true → 1 ≤ (now.toNat + (2 ^ 32 - since.toNat)) % 2 ^ 32))) ∧
  (∀ (now : U32) (s : State), pollEnabled s now = false → exec (.poll now) s = .next s) ∧
  (∀ (i : Instr) (since : U32) (s : State), isCompletion i = true → s.delay = .running since → exec i s = .next s) ∧
  ∀ (s : State) (before after : List Input) (bytes : List Byte),
    s.inbox = before ++ ⟨.delay, bytes⟩ :: after → (∀ x ∈ before, held s x = true) →
    (∀ since, s.delay = .running since → step s = .next { s with
      inbox := before ++ after, strobes := ⟨false, s.cons.capPump, none, false⟩, delay := .ended since }) ∧
    ((∀ since, s.delay ≠ .running since) → step s = .next { s with
      inbox := before ++ after, strobes := ⟨false, false, none, false⟩ })

/-- An enabled POLL with a pending frame whose recomputed exclusive-or differs from RX_CHK ends in ChecksumMismatch
whatever the error bit, addresses and lengths are; FRAME_READY stays 1 and nothing else changes. Rests on
43_transaction.md section 3 (R155, R156; decision D11 keeps the source's behaviour); log 45 (DESIGN CHOICE: when a
POLL is enabled). -/
def Obligations.PollReportsAWrongChecksumAndKeepsTheFrame : Prop :=
  ∀ (now : U32) (s : State) (p : List Byte), pollEnabled s now = true → s.frameReady = true →
    memRead s.rxPayload 0 s.rxLen.toNat = some p → lrc (s.rxDest :: s.rxSrc :: s.rxCmd :: s.rxLen :: p) ≠ s.rxChk →
    exec (.poll now) s = .next (endOfRecv s .checksumMismatch)

/-- In T_WAIT with a pending frame, checksum good, bit 7 of RX_CMD set: an enabled POLL, and the row ERROR_RESPONSE when
no delay runs, write REMOTE_ERR with the content of RX_PAYLOAD[0], or a free value if nothing has written it, clear
FRAME_READY and end in HandError; nothing else changes. Rests on 43_transaction.md section 3 (R157; no payload:
decision D15); 93_implementation_defined.md U3; log 10 (free value); log 23 (DEDUCED: the ERROR_RESPONSE row); log 45
(DESIGN CHOICE: when a POLL is enabled). -/
def Obligations.DeviceErrorIsCapturedBeforeAddressAndCommand : Prop :=
  ∀ (i : Instr) (s : State) (p : List Byte), goodFramePending s p → s.rxCmd.getLsbD 7 = true →
    (∃ now, i = .poll now ∧ pollEnabled s now = true) ∨ i = .errorResponse s.rxCmd →
    (∀ b, s.rxPayload.read 0 = some b →
      exec i s = .next { endOfRecv s .handError with frameReady := false, remoteErr := b, remoteErrWritten := true }) ∧
    (s.rxPayload.read 0 = none →
      exec i s = .next { endOfRecv s .handError with
        frameReady := false, remoteErr := Config.freeByte s.freeCtr, remoteErrWritten := true, freeCtr := s.freeCtr + 1 })

/-- When a RECV waits, no delay running, on a good pending frame with the error bit whose first payload byte is a code of
the table, that code's row ends the RECV in HandError with REMOTE_ERR that code and FRAME_READY cleared; nothing else
changes. Rests on 30_encoding.md section 3 (R73, whose delivery is derived there from R157); 43_transaction.md
section 3 (R157); log 23 (DEDUCED: the rows of the device error codes). -/
def Obligations.DeviceErrorCodesReachRemoteErr : Prop :=
  ∀ (i : Instr) (code : Byte) (s : State) (p : List Byte), deviceErrorRowOf code = some i →
    goodFramePending s (code :: p) → s.rxCmd.getLsbD 7 = true →
    exec i s = .next { endOfRecv s .handError with frameReady := false, remoteErr := code, remoteErrWritten := true }

/-- In T_WAIT with a pending frame whose checksum is good and whose error bit is clear, for a POLL before any delay was
asked for (the first iteration, which begins at once) and for any other that takes effect: if RX_SRC differs from
T_DEST and T_DEST is not BROADCAST_ADDR, it clears FRAME_READY and ends in UnmatchedAddress, whatever the command id
and length, and nothing else of the spec's state changes; if they are equal or T_DEST is BROADCAST_ADDR, it does not
end in UnmatchedAddress. Formalises R158. -/
def Obligations.ResponseFromAnotherSourceIsUnmatchedAddress : Prop :=
  ∀ (now : U32) (s : State) (p : List Byte), s.tstate = .wait → s.frameReady = true →
    memRead s.rxPayload 0 s.rxLen.toNat = some p → chkOk s p = true → s.rxCmd.getLsbD 7 = false →
    s.delay = .idle ∨ exec (.poll now) s ≠ .next s →
    (s.rxSrc ≠ s.tDest → s.tDest ≠ s.cons.broadcastAddr →
      ∃ t, exec (.poll now) s = .next t ∧
        t = { endOfRecv s .unmatchedAddress with frameReady := false, delay := t.delay, sendOpen := t.sendOpen }) ∧
    (s.rxSrc = s.tDest ∨ s.tDest = s.cons.broadcastAddr →
      ∀ t, exec (.poll now) s = .next t → t.result ≠ .unmatchedAddress)

/-- An enabled POLL on a good pending frame without the error bit: if RX_SRC differs from T_DEST and T_DEST is not
BROADCAST_ADDR, it ends in UnmatchedAddress; else if RX_CMD differs from T_CMD in any bit in UnmatchedCommand,
whatever its length; else if a buffer was supplied and RX_LEN > T_CAP in OutputBufferTooSmall. It clears FRAME_READY,
and nothing else changes, RESP_BUF and RESP_LEN among it. Rests on 43_transaction.md section 3 (R158, R159, R160;
nothing copied is decision D13); 43_transaction.md section 3 (R151, R152); log 45 (DESIGN CHOICE: when a POLL is
enabled, no delay after the end); log 13 (DEDUCED: SEND_OPEN). -/
def Obligations.AddressIsCheckedBeforeCommandAndBufferSize : Prop :=
  ∀ (now : U32) (s : State) (p : List Byte), pollEnabled s now = true → goodFramePending s p →
    s.rxCmd.getLsbD 7 = false →
    (s.rxSrc ≠ s.tDest → s.tDest ≠ s.cons.broadcastAddr →
      exec (.poll now) s = .next { endOfRecv s .unmatchedAddress with frameReady := false }) ∧
    (s.rxSrc = s.tDest ∨ s.tDest = s.cons.broadcastAddr →
      (s.rxCmd ≠ s.tCmd → exec (.poll now) s = .next { endOfRecv s .unmatchedCommand with frameReady := false }) ∧
      (s.rxCmd = s.tCmd → s.tHasBuf = true → s.tCap.toNat < s.rxLen.toNat →
        exec (.poll now) s = .next { endOfRecv s .outputBufferTooSmall with frameReady := false }))

/-- In T_WAIT of a RECV or XFER with a good pending frame of at most 64 payload bytes that passes checks (b) to (e): POLL
clears FRAME_READY and ends in Success; with a buffer the payload is in RESP_BUF[0 .. RX_LEN-1] and RESP_LEN =
RX_LEN, no other byte changed; without one both keep their values; nothing else changes. Rests on 43_transaction.md
section 3 (R161; decision D31); 43_transaction.md section 3 (R152, R155); log 45 (DESIGN CHOICE: when a POLL is
enabled). -/
def Obligations.AcceptedResponseIsCopiedAndConsumed : Prop :=
  ∀ (now : U32) (s : State) (p : List Byte), pollEnabled s now = true → goodFramePending s p →
    responseAccepted s → p.length ≤ 64 → s.tKind ≠ .cat →
    (s.tHasBuf = false → exec (.poll now) s = .next { endOfRecv s .success with frameReady := false }) ∧
    (s.tHasBuf = true → ∃ t, responseCopied s t p ∧
      exec (.poll now) s = .next { endOfRecv t .success with frameReady := false })

/-- With a pending frame whose checksum is wrong and the clock configured: a RECV and its first POLL end in
ChecksumMismatch with the same decode buffer and the frame still pending; fed bytes change nothing then; and where a
transmit is possible, a SEND or an XFER after it and its TXDONE, successful or not, leave no frame pending. Rests on
43_transaction.md section 3 (R156, derived there); 70_reset_and_hazards.md section 3 (R275; decision D11);
43_transaction.md section 2 (R146). -/
def Obligations.ChecksumMismatchIsSticky : Prop :=
  ∀ (dest cmd : Byte) (timeoutMs : U32) (hasBuf : Bool) (cap : Byte) (now0 now1 : U32) (s : State) (p : List Byte),
    s.tstate = .idle → s.cons.capNow = true → s.cons.capDelay = true → s.frameReady = true →
    memRead s.rxPayload 0 s.rxLen.toNat = some p → chkOk s p = false →
    ∃ t, runAll [.recv dest cmd timeoutMs hasBuf cap now0, .poll now1] s = .next t ∧ t.tstate = .idle ∧
      t.result = .checksumMismatch ∧ sameDecoder s t ∧ (∀ bs, feedAll bs t = .next t) ∧
      ∀ (i : Instr) (dest' cmd' : Byte) (q : List Byte) (hasBuf' : Bool) (cap' : Byte) (ok : Bool) (now2 : U32),
        s.cons.capSend = true → q.length < 64 → i = .send dest' cmd' q ∨ i = .xfer dest' cmd' q hasBuf' cap' →
        ∃ u, runAll [i, .txdone ok now2] t = .next u ∧ u.frameReady = false

/-- From a state that meets the invariant, a POLL in T_WAIT that ends the operation with a result other than
ChecksumMismatch leaves FRAME_READY = 0, TSTATE = T_IDLE and DSTATE = INIT. Rests on 43_transaction.md section 6
(R167, derived there); 43_transaction.md section 3 (R162). -/
def Obligations.EveryOtherEndLeavesTheDecoderFree : Prop :=
  ∀ (now : U32) (s t : State), s.Inv → s.tstate = .wait → exec (.poll now) s = .next t → t.tstate = .idle →
    t.result ≠ .checksumMismatch → t.frameReady = false ∧ t.dstate = t.init

/-- From a state that meets the invariant, in T_IDLE with the capabilities and a payload below 64 bytes: XFER,
TXDONE(true), any fed bytes and a POLL, and SEND, TXDONE(true), RECV with CFG_TIMEOUT_MS, the same bytes and the same
POLL, both answer a next state; they wait or have ended alike, and where they have ended the states differ in T_KIND
and the strobes only. With TXDONE(false) XFER ends as the SEND does, the states differing in T_KIND, T_HASBUF and
T_CAP only. Rests on 43_transaction.md section 4 (R163); 30_encoding.md section 5 (R81); log 28 (DESIGN CHOICE:
strobes). -/
def Obligations.XferIsSendThenRecv : Prop :=
  ∀ (s : State) (dest cmd : Byte) (p : List Byte) (hasBuf : Bool) (cap : Byte) (t0 t1 : U32) (bs : List Byte),
    s.Inv → s.tstate = .idle → s.sendOpen = false → canSend s → p.length < 64 →
    (∃ a b,
      runAll ([.xfer dest cmd p hasBuf cap, .txdone true t0] ++ bs.map .feed ++ [.poll t1]) s = .next a ∧
      runAll ([.send dest cmd p, .txdone true t0, .recv dest cmd s.cfgTimeoutMs hasBuf cap t0] ++ bs.map .feed ++ [.poll t1]) s
        = .next b ∧
      a.tstate = b.tstate ∧ (b.tstate = .idle → a = { b with tKind := .xfer, strobes := a.strobes })) ∧
    ∃ b, runAll [.send dest cmd p, .txdone false t0] s = .next b ∧
      runAll [.xfer dest cmd p hasBuf cap, .txdone false t0] s = .next { b with tKind := .xfer, tHasBuf := hasBuf, tCap := cap }

/-- CAT accepted with all capabilities, a descriptor in the table and a packed request of fewer than 64 bytes latches the
descriptor, destination, command id, a response buffer of the descriptor's capacity, and requests the transmit of the
frame; nothing else changes but the counter of free values, which advances by packDraws, the number of free values
the fields may draw: a field of flags counts its size even where every flag is given. Rests on
44_command_catalogue.md section 4 (R186); 44_command_catalogue.md section 2 (R181); log 14 (DESIGN CHOICE: descriptor
indexes); log 15 (DESIGN CHOICE: bytes the arguments do not give are free); log 44 (DESIGN CHOICE: fields of flags);
log 16 (DEDUCED: further latches). -/
def Obligations.CatPacksItsArgumentsAndSends : Prop :=
  ∀ (desc dest motorCap : Byte) (args : List Arg) (d : Descriptor) (s : State), s.tstate = .idle → canSend s →
    lookupDescriptor s.cons desc = some d → (pack s.freeCtr d.req args).length < 64 →
    let p := pack s.freeCtr d.req args
    ∃ t, exec (.cat desc dest motorCap args) s = .next t ∧
      frameRequested { s with
        tKind := .cat, tDesc := desc, tDest := dest, tCmd := d.cmd, tHasBuf := true, tCap := d.respCap
        tArg0 := p.headD 0, tMotorCap := motorCap, freeCtr := s.freeCtr + packDraws d.req args } t dest
        (wireFrame s.cons dest d.cmd p)

/-- For CAT of a descriptor in the table and the two catalogue rows, accepted: with CAP_SEND = 0 the result is
InvalidContext; else with a clock capability missing TimerNotSet; else with a packed request of 64 bytes or more
DataTooLarge. RESULT, TSTATE and done are written, and the operands latched on acceptance stay latched, the model's
reading of R140 (log 38). Rests on 44_command_catalogue.md section 4 (R186); 43_transaction.md section 4 (R163);
43_transaction.md section 2 (R141 to R144; decisions D10, D34); 43_transaction.md section 1 (R140); log 24 (DEDUCED:
the two rows); log 15 (DESIGN CHOICE); log 38 (DEDUCED from R140, unsafe: the operands of a failing operation stay
latched). -/
def Obligations.CatalogueOperationsFailAsSendDoes : Prop :=
  ∀ (i : Instr) (desc dest motorCap : Byte) (args : List Arg) (d : Descriptor) (s : State),
    catalogueOf i = some (desc, dest, motorCap, args) → lookupDescriptor s.cons desc = some d → s.tstate = .idle →
    let p := pack s.freeCtr d.req args
    let s' : State := { s with
        tKind := .cat, tDesc := desc, tDest := dest, tCmd := d.cmd, tHasBuf := true, tCap := d.respCap
        tArg0 := p.headD 0, tMotorCap := motorCap, freeCtr := s.freeCtr + packDraws d.req args }
    (s.cons.capSend = false → exec i s = .next (endOfOp s' .invalidContext)) ∧
    (s.cons.capSend = true → (s.cons.capNow = false ∨ s.cons.capDelay = false) →
      exec i s = .next (endOfOp s' .timerNotSet)) ∧
    (canSend s → 64 ≤ p.length → exec i s = .next (endOfOp s' .dataTooLarge))

/-- In T_IDLE with all capabilities, GET_PROTOCOL_VERSION requests the frame of command 0x00 with no payload and latches
capacity 2; CUSTOM with fewer than 64 bytes requests the frame of command 0x5F with those bytes and latches capacity
64; both latch T_KIND, T_DESC, T_DEST, T_CMD, the two further latches, and nothing else changes. Rests on
44_command_catalogue.md section 5 (R190, R191; decisions D32, D37); log 24 (DEDUCED: the two rows); log 17 (DEDUCED:
opaque field). -/
def Obligations.VersionAndCustomRequestsGoOut : Prop :=
  ∀ (dest : Byte) (s : State), s.tstate = .idle → canSend s →
    (∃ t, exec (.getProtocolVersion dest) s = .next t ∧
      frameRequested { s with
        tKind := .cat, tDesc := 0, tDest := dest, tCmd := 0x00, tHasBuf := true, tCap := 2, tArg0 := 0, tMotorCap := 0 } t dest
        (wireFrame s.cons dest 0x00 [])) ∧
    ∀ p : List Byte, p.length < 64 → ∃ t, exec (.custom dest p) s = .next t ∧
      frameRequested { s with
        tKind := .cat, tDesc := 1, tDest := dest, tCmd := 0x5F, tHasBuf := true, tCap := 64, tArg0 := p.headD 0, tMotorCap := 0 }
        t dest (wireFrame s.cons dest 0x5F p)

/-- In T_WAIT of a CAT with an accepted response p of at most 64 bytes: an echoing descriptor whose first response byte
is not the index sent ends in DataInvalid; else repeated units with a motor capacity below len div 4 end in
SizeTooBig and fields too long for p in DataInvalid, delivering nothing; else Success, with the unpacked values or
the count and the units. FRAME_READY is cleared and the payload is in RESP_BUF. Rests on 44_command_catalogue.md
sections 3 and 4 (R184, R185, R186; decisions D14, D22, D23); 44_command_catalogue.md section 2 (R182; decision D32);
log 19 (DESIGN CHOICE: CAT_OUT); log 45 (DESIGN CHOICE: when a POLL is enabled). -/
def Obligations.CatEndsWithItsStructuralChecks : Prop :=
  ∀ (now : U32) (d : Descriptor) (s : State) (p : List Byte), pollEnabled s now = true → goodFramePending s p →
    responseAccepted s → p.length ≤ 64 →
    s.tKind = .cat → s.tHasBuf = true → lookupDescriptor s.cons s.tDesc = some d →
    ∃ t, responseCopied s t p ∧
      (d.echo = true → p.head? ≠ some s.tArg0 →
        exec (.poll now) s = .next { endOfRecv t .dataInvalid with frameReady := false }) ∧
      (d.echo = false ∨ p.head? = some s.tArg0 →
        (∀ ts cs, d.resp = .units ts cs → s.tMotorCap.toNat < p.length / 4 →
          exec (.poll now) s = .next { endOfRecv t .sizeTooBig with frameReady := false }) ∧
        (∀ ts cs, d.resp = .units ts cs → p.length / 4 ≤ s.tMotorCap.toNat →
          exec (.poll now) s = .next { endOfRecv t .success with
            frameReady := false
            catOut := some (.units (p.length / 4) ((unitsOf ts cs p).map Prod.fst) ((unitsOf ts cs p).map Prod.snd)) }) ∧
        (∀ fs, d.resp = .fields fs → unpack fs p = none →
          exec (.poll now) s = .next { endOfRecv t .dataInvalid with frameReady := false }) ∧
        ∀ fs vs, d.resp = .fields fs → unpack fs p = some vs →
          exec (.poll now) s = .next { endOfRecv t .success with frameReady := false, catOut := some (.values vs) })

/-- unitsOf on n bytes gives n div 4 units; unit k is the 16-bit value of bytes 4k, 4k+1 and that of bytes 4k+2, 4k+3,
low byte first, two's complement where signed; bytes after the last whole unit are ignored. Rests on
44_command_catalogue.md section 3 (R185; interleaving and rounding down are decision D23); 30_encoding.md section 2
(R66; two's complement is general knowledge K1); log 34 (PRESUMED, unsafe: two's complement). -/
def Obligations.UnitsAreFourBytesTargetThenCurrent : Prop :=
  ∀ (ts cs : Bool) (r : List Byte), (unitsOf ts cs r).length = r.length / 4 ∧
    ∀ (k : Nat) (b0 b1 b2 b3 : Byte),
      r[4 * k]? = some b0 → r[4 * k + 1]? = some b1 → r[4 * k + 2]? = some b2 → r[4 * k + 3]? = some b3 →
      ∃ x y : Int, (unitsOf ts cs r)[k]? = some (x, y) ∧
        (x : Int) = b0.toNat + 256 * b1.toNat - (if ts = true ∧ 128 ≤ b1.toNat then 65536 else 0) ∧
        (y : Int) = b2.toNat + 256 * b3.toNat - (if cs = true ∧ 128 ≤ b3.toNat then 65536 else 0)

/-- In T_WAIT of GET_PROTOCOL_VERSION (descriptor index 0, capacity 2) with an accepted response: a payload [minor,
major] ends in Success with those two values delivered; a payload of fewer than two bytes ends in DataInvalid,
delivering nothing. Rests on 44_command_catalogue.md section 5 (R190; a short reply is decision D32); log 24
(DEDUCED); log 45 (DESIGN CHOICE: when a POLL is enabled). -/
def Obligations.VersionReplyDeliversMinorAndMajor : Prop :=
  ∀ (now : U32) (s : State) (p : List Byte), pollEnabled s now = true → goodFramePending s p → responseAccepted s →
    s.tKind = .cat → s.tHasBuf = true → s.tDesc = 0 → s.tCap = 2 →
    ∃ t, exec (.poll now) s = .next t ∧ t.tstate = .idle ∧ t.frameReady = false ∧
      (∀ minor major : Byte, p = [minor, major] →
        t.result = .success ∧ t.catOut = some (.values [.num minor.toNat, .num major.toNat])) ∧
      (p.length < 2 → t.result = .dataInvalid ∧ t.catOut = s.catOut)

/-- For every shape whose variable-length field, if any, stands last and whose flag fields are admitted, and whatever the
arguments, UNPACK of the packed bytes gives one value per field, and for each field whose argument fits it the value
its type delivers of the argument: modulo 256, modulo 65536, the two's complement 16-bit value (log 34), the 32 raw
bits, the bytes, the flags. Rests on 44_command_catalogue.md section 2 (R181, R182); 30_encoding.md section 2 (R66;
two's complement is general knowledge K1); 20_memory.md section 2 (R42); log 34 (PRESUMED, unsafe: two's complement);
log 44 (DESIGN CHOICE: bits of a flag field); log 15 (DESIGN CHOICE: free bytes). -/
def Obligations.UnpackReadsBackWhatPackWrote : Prop :=
  ∀ (k : Nat) (shape : List FieldType) (args : List Arg), restLast shape = true → shape.all FieldType.flagsOk = true →
    ∃ vs, unpack shape (pack k shape args) = some vs ∧ vs.length = shape.length ∧
      ∀ (j : Nat) (f : FieldType) (a : Arg) (v : Value),
        shape[j]? = some f → args[j]? = some a → fieldValue f a = some v → vs[j]? = some v

/-- PACK delivers the packed bytes, whatever the arguments; bytes they do not give are free values (log 15). UNPACK with
a response written delivers its values, or DataInvalid when it is too short; before any response it delivers some
value and draws free values. Rests on 44_command_catalogue.md section 2 (R181, R182; a short response is decision
D32); 30_encoding.md section 4 (R80); log 20 (DESIGN CHOICE: FN_OUT); log 15 (DESIGN CHOICE); log 33 (free values). -/
def Obligations.PackAndUnpackRowsDeliverTheirValues : Prop :=
  (∀ (shape : List FieldType) (args : List Arg) (s : State), exec (.pack shape args) s = .next { s with
    fnOut := some (.packed (pack s.freeCtr shape args)), freeCtr := s.freeCtr + packDraws shape args }) ∧
  ∀ (shape : List FieldType) (s : State),
    (∀ r, s.respWritten = true → memRead s.respBuf 0 s.respLen.toNat = some r →
      (∀ vs, unpack shape r = some vs → exec (.unpack shape) s = .next { s with fnOut := some (.unpacked vs) }) ∧
      (unpack shape r = none → exec (.unpack shape) s = .next { s with fnOut := some .dataInvalid })) ∧
    (s.respWritten = false → ∃ o n, exec (.unpack shape) s = .next { s with fnOut := some o, freeCtr := n } ∧ s.freeCtr < n)

/-- At every place of a payload, after the fields before it: a u8 packs v mod 256, a 16-bit field v mod 256 then v div
256 mod 256, a 32-bit one v div 2^(8i) mod 256 for i = 0..3, bytes(n) the first n bytes of its argument; such a field
draws no free value, and a payload of fixed fields is as long as their sizes together. Unpacking takes the bytes in
the same order, the signed value two's complement (log 34), and goes on with the bytes after them. Rests on
20_memory.md section 2 (R42, R44); 30_encoding.md section 2 (R66; two's complement is general knowledge K1);
44_command_catalogue.md section 2 (R181, R182); log 34 (PRESUMED, unsafe: two's complement); log 15 (DESIGN CHOICE: a
byte argument for bytes(n) may be longer). -/
def Obligations.FieldsArePackedInOrderLowByteFirst : Prop :=
  (∀ (k : Nat) (gs fs : List FieldType) (bs as : List Arg) (v : U32) (n : Nat) (b : List Byte), gs.length = bs.length →
    let r := pack k gs bs
    let q := pack (k + packDraws gs bs) fs as
    pack k (gs ++ .u8 :: fs) (bs ++ .num v :: as) = r ++ [BitVec.ofNat 8 v.toNat] ++ q ∧
    (∀ f, f = .u16le ∨ f = .i16le →
      pack k (gs ++ f :: fs) (bs ++ .num v :: as) =
        r ++ [BitVec.ofNat 8 v.toNat, BitVec.ofNat 8 (v.toNat / 2 ^ 8)] ++ q) ∧
    pack k (gs ++ .b32le :: fs) (bs ++ .num v :: as) =
      r ++ [BitVec.ofNat 8 v.toNat, BitVec.ofNat 8 (v.toNat / 2 ^ 8), BitVec.ofNat 8 (v.toNat / 2 ^ 16),
        BitVec.ofNat 8 (v.toNat / 2 ^ 24)] ++ q ∧
    (n ≤ b.length → pack k (gs ++ .bytes n :: fs) (bs ++ .bytes b :: as) = r ++ b.take n ++ q)) ∧
  (∀ (k : Nat) (shape : List FieldType) (args : List Arg), (∀ f ∈ shape, f ≠ .rest) →
    (pack k shape args).length = (shape.map fieldSize).sum) ∧
  ∀ (fs : List FieldType) (b0 b1 b2 b3 : Byte) (r : List Byte) (vs : List Value), unpack fs r = some vs →
    unpack (.u8 :: fs) (b0 :: r) = some (.num b0.toNat :: vs) ∧
    unpack (.u16le :: fs) (b0 :: b1 :: r) = some (.num (b0.toNat + 256 * b1.toNat) :: vs) ∧
    unpack (.i16le :: fs) (b0 :: b1 :: r) =
      some (.num (b0.toNat + 256 * b1.toNat - (if 128 ≤ b1.toNat then 65536 else 0)) :: vs) ∧
    ∃ w : U32, unpack (.b32le :: fs) (b0 :: b1 :: b2 :: b3 :: r) = some (.bits w :: vs) ∧
      w.toNat = b0.toNat + 2 ^ 8 * b1.toNat + 2 ^ 16 * b2.toNat + 2 ^ 24 * b3.toNat

/-- In a field of n bytes of flags at different positions below 8n, packing gives n bytes with flag i as bit p mod 8 of
byte p div 8, p its position; unpacking n bytes or more gives for each position that bit, and fewer bytes are
DataInvalid. That a position names a bit so is the model's choice (log 44). Rests on 30_encoding.md section 2 (R66,
bit-packed flags); 44_command_catalogue.md section 1 (R180); log 44 (DESIGN CHOICE: flag fields and their bits). -/
def Obligations.FlagFieldsPlaceEachFlagAtItsBit : Prop :=
  ∀ (n : Nat) (ps : List Nat), (FieldType.flags n ps).flagsOk = true →
    (∀ (k : Nat) (b : List Bool), (packField k (.flags n ps) (some (.flags b))).length = n ∧
      ∀ (i p : Nat) (v : Bool), ps[i]? = some p → b[i]? = some v →
        ∃ x, (packField k (.flags n ps) (some (.flags b)))[p / 8]? = some x ∧ x.getLsbD (p % 8) = v) ∧
    ∀ r : List Byte,
      (n ≤ r.length → ∃ fl, unpack [.flags n ps] r = some [.flags fl] ∧ fl.length = ps.length ∧
        ∀ (i p : Nat) (x : Byte), ps[i]? = some p → r[p / 8]? = some x → fl[i]? = some (x.getLsbD (p % 8))) ∧
      (r.length < n → unpack [.flags n ps] r = none)
end

