-- ==== Sys2Proof/Laws/Decode.lean ====
section
/-! SUPPORT. What each operand reader reads from the bytes its encoder writes, and what any reader gives when it accepts. -/

namespace Sys2Proof

@[simp] theorem readThen_ok {α β : Type} (a : α) (r : List Byte) (f : α → List Byte → Read β) :
    readThen (.ok (a, r)) f = f a r := rfl

@[simp] theorem readThen_error {α β : Type} (e : Reject) (f : α → List Byte → Read β) : readThen (.error e) f = .error e := rfl

/-- A chain of readings accepts when each of them does. -/
theorem readThen_eq_ok {α β : Type} {x : Read α} {f : α → List Byte → Read β} {y : β × List Byte} (h : readThen x f = .ok y) :
    ∃ a r, x = .ok (a, r) ∧ f a r = .ok y := by
  cases x with
  | error e => cases h
  | ok p => exact ⟨p.1, p.2, rfl, h⟩

@[simp] theorem readByte_cons (b : Byte) (r : List Byte) : readByte (b :: r) = .ok (b, r) := rfl

@[simp] theorem readBool_boolByte (b : Bool) (r : List Byte) : readBool (boolByte b :: r) = .ok (b, r) := by
  cases b <;> rfl

theorem le32_byteOf (v : U32) : le32 (byteOf v 0) (byteOf v 1) (byteOf v 2) (byteOf v 3) = v := by
  apply BitVec.eq_of_getLsbD_eq
  intro i hi
  simp only [le32, byteOf, BitVec.getLsbD_append, BitVec.getLsbD_extractLsb']
  split
  · simp [*]
  · split
    · rename_i h1 h2
      simp only [h2, decide_true, Bool.true_and]; congr 1; omega
    · split
      · rename_i h1 h2 h3
        simp only [h3, decide_true, Bool.true_and]; congr 1; omega
      · rename_i h1 h2 h3
        simp only [show i - 8 - 8 - 8 < 8 by omega, decide_true, Bool.true_and]; congr 1; omega

@[simp] theorem readU32_bytes32 (v : U32) (r : List Byte) : readU32 (bytes32 v ++ r) = .ok (v, r) := by
  simp only [bytes32, List.cons_append, List.nil_append, readU32, le32_byteOf]

theorem readU32_bytes32_nil (v : U32) : readU32 (bytes32 v) = .ok (v, []) := by
  simpa using readU32_bytes32 v []

theorem toNat_countByte {n : Nat} (h : n ≤ 255) : (countByte n).toNat = n := by
  simp only [countByte, BitVec.toNat_ofNat]; omega

theorem countable_iff {α : Type} {l : List α} : countable l = true ↔ l.length ≤ 255 := decide_eq_true_iff

@[simp] theorem readBytes_append (p r : List Byte) : readBytes p.length (p ++ r) = .ok (p, r) := by
  simp [readBytes]

theorem readCounted_encodeCounted {p : List Byte} (r : List Byte) (h : countable p = true) :
    readCounted (encodeCounted p ++ r) = .ok (p, r) := by
  rw [encodeCounted, List.cons_append, readCounted, toNat_countByte (countable_iff.1 h), readBytes_append]

theorem readHeader_encode {dest cmd : Byte} {p : List Byte} (r : List Byte) (h : countable p = true) :
    readHeader (dest :: cmd :: (encodeCounted p ++ r)) = .ok ((dest, cmd, p), r) := by
  simp [readHeader, readCounted_encodeCounted r h]

theorem readTransaction_encode {dest : Byte} {p : List Byte} {hasBuf : Bool} {cap : Byte} (r : List Byte)
    (h : countable p = true) :
    readTransaction (dest :: (encodeCounted p ++ boolByte hasBuf :: cap :: r)) = .ok ((dest, p, hasBuf, cap), r) := by
  simp [readTransaction, readCounted_encodeCounted _ h]

@[simp] theorem readU16_bytes16 {n : Nat} (h : n < 65536) (r : List Byte) : readU16 (bytes16 n ++ r) = .ok (n, r) := by
  have : (le16 (countByte n) (countByte (n / 256))).toNat = n := by
    simp only [le16, countByte, BitVec.toNat_append, BitVec.toNat_ofNat, Nat.shiftLeft_eq]
    rw [Nat.mul_comm, ← Nat.two_pow_add_eq_or_of_lt (by omega)]
    omega
  simp only [bytes16, List.cons_append, List.nil_append, readU16, this]

theorem readMany_flatMap {α : Type} {item : List Byte → Read α} {enc : α → List Byte} {ok : α → Bool}
    (h : ∀ a r, ok a = true → item (enc a ++ r) = .ok (a, r)) (l : List α) (r : List Byte) (hl : l.all ok = true) :
    readMany item l.length (l.flatMap enc ++ r) = .ok (l, r) := by
  induction l with
  | nil => rfl
  | cons a l ih =>
    simp only [List.all_cons, Bool.and_eq_true] at hl
    simp [readMany, h _ _ hl.1, ih hl.2]

/-- A list of items reads back, whatever the items. -/
theorem readCountedItems_encodeItems {α : Type} {item : List Byte → Read α} {enc : α → List Byte} {ok : α → Bool}
    (h : ∀ a r, ok a = true → item (enc a ++ r) = .ok (a, r)) {l : List α} (r : List Byte) (hc : countable l = true)
    (hl : l.all ok = true) : readCountedItems item (encodeItems enc l ++ r) = .ok (l, r) := by
  rw [encodeItems, List.cons_append, readCountedItems, toNat_countByte (countable_iff.1 hc), readMany_flatMap h l r hl]

theorem readArg_encodeArg {a : Arg} (r : List Byte) (h : a.wf = true) : readArg (encodeArg a ++ r) = .ok (a, r) := by
  cases a with
  | num v => simp [encodeArg, readArg]
  | bytes b => simp [encodeArg, readArg, readCounted_encodeCounted r (show countable b = true from h)]
  | flags b =>
    have := readCountedItems_encodeItems (item := readBool) (enc := fun x => [boolByte x]) (ok := fun _ => true)
      (fun a r _ => readBool_boolByte a r) r (show countable b = true from h) (by simp)
    simp [encodeArg, readArg, this]

theorem readField_encodeField {f : FieldType} (r : List Byte) (h : f.wf = true) :
    readField (encodeField f ++ r) = .ok (f, r) := by
  cases f with
  | bytes n =>
    have hn : n ≤ 255 := of_decide_eq_true h
    simp [encodeField, readField, toNat_countByte hn]
  | flags n ps =>
    have hw := h
    simp only [FieldType.wf, FieldType.flagsOk, Bool.and_eq_true, decide_eq_true_eq] at hw
    have := readCountedItems_encodeItems (item := readU16) (enc := bytes16) (ok := fun p => decide (p < 65536))
      (fun a r ha => readU16_bytes16 (of_decide_eq_true ha) r) r hw.1.2 (by
        simp only [List.all_eq_true, decide_eq_true_eq] at hw ⊢
        intro p hp
        have := hw.2.1.2 p hp
        omega)
    simp [encodeField, readField, toNat_countByte hw.1.1, this, h]
  | _ => simp [encodeField, readField]

/-! ### What a reader that accepts has read -/

theorem readCounted_countable {bs r p : List Byte} (h : readCounted bs = .ok (p, r)) : countable p = true := by
  cases bs with
  | nil => cases h
  | cons n bs =>
    simp only [readCounted, readBytes] at h
    split at h <;> cases h
    rw [countable_iff, List.length_take]
    omega

theorem readMany_wf {α : Type} {item : List Byte → Read α} {ok : α → Bool}
    (h : ∀ bs a r, item bs = .ok (a, r) → ok a = true) {n : Nat} {bs r : List Byte} {l : List α}
    (hl : readMany item n bs = .ok (l, r)) : l.length = n ∧ l.all ok = true := by
  induction n generalizing bs l with
  | zero => cases hl; exact ⟨rfl, rfl⟩
  | succ n ih =>
    simp only [readMany] at hl
    split at hl
    · cases hl
    · rename_i a r' ha
      split at hl <;> cases hl
      rename_i as hr
      obtain ⟨h1, h2⟩ := ih hr
      exact ⟨by simp [h1], by simp [h _ _ _ ha, h2]⟩

theorem readCountedItems_wf {α : Type} {item : List Byte → Read α} {ok : α → Bool}
    (h : ∀ bs a r, item bs = .ok (a, r) → ok a = true) {bs r : List Byte} {l : List α}
    (hl : readCountedItems item bs = .ok (l, r)) : countable l = true ∧ l.all ok = true := by
  cases bs with
  | nil => cases hl
  | cons n bs =>
    obtain ⟨h1, h2⟩ := readMany_wf h hl
    exact ⟨by rw [countable_iff]; omega, h2⟩

theorem readArg_wf {bs r : List Byte} {a : Arg} (h : readArg bs = .ok (a, r)) : a.wf = true := by
  unfold readArg at h
  repeat' split at h
  all_goals cases h
  · rfl
  · rename_i hc; exact readCounted_countable hc
  · rename_i hc; exact (readCountedItems_wf (ok := fun _ => true) (fun _ _ _ _ => rfl) hc).1

theorem readField_wf {bs r : List Byte} {f : FieldType} (h : readField bs = .ok (f, r)) : f.wf = true := by
  unfold readField at h
  repeat' split at h
  all_goals first
    | (obtain ⟨n, r1, -, h⟩ := readThen_eq_ok h
       obtain ⟨ps, r2, -, h⟩ := readThen_eq_ok h
       split at h <;> cases h
       assumption)
    | cases h
  all_goals try rfl
  rename_i n _ _
  simp only [FieldType.wf, decide_eq_true_eq]
  omega

end Sys2Proof
end

