-- ==== Sys2Proof/Laws/Effect.lean ====
section
/-! SUPPORT. Everything an instruction can do, said once: `exec_effect`. What holds of every next state follows by cases on it. -/

namespace Sys2Proof.Machine

/-! ### The shared operations -/

theorem whenIdle_idle {s : State} {o : Out} (h : s.tstate = .idle) : whenIdle s o = o := by simp [whenIdle, h]

theorem whenIdle_busy {s : State} {o : Out} (h : s.tstate ≠ .idle) : whenIdle s o = .next s := by simp [whenIdle, h]

theorem whenIdle_next {s t : State} {o : Out} (h : whenIdle s o = .next t) : t = s ∨ s.tstate = .idle ∧ o = .next t := by
  by_cases hi : s.tstate = .idle
  · exact .inr ⟨hi, by rwa [whenIdle_idle hi] at h⟩
  · rw [whenIdle_busy hi] at h; cases h; exact .inl rfl

theorem selectRow_next {s t : State} {d : DState} {c : Bool} {o : Out} (h : s.selectRow d c o = .next t) :
    t = s ∨ s.frameReady = false ∧ s.dstate = d ∧ c = true ∧ o = .next t := by
  unfold State.selectRow at h
  split at h
  · rename_i hc; exact .inr ⟨hc.1, hc.2.1, hc.2.2, h⟩
  · cases h; exact .inl rfl

theorem selectRow_selected {s : State} {d : DState} {o : Out} (hr : s.frameReady = false) (hd : s.dstate = d) :
    s.selectRow d true o = o := by simp [State.selectRow, hr, hd]

theorem selectRow_pending {s : State} {d : DState} {c : Bool} {o : Out} (hr : s.frameReady = true) :
    s.selectRow d c o = .next s := by simp [State.selectRow, hr]

theorem lenAccepted_iff {b : Byte} : lenAccepted b = true ↔ b.toNat ≤ 64 := decide_eq_true_iff

theorem dataEntry_iff {s : State} :
    s.dataEntry = true ↔ 1 ≤ s.dRemain.toNat ∧ s.dRemain.toNat ≤ s.rxLen.toNat ∧ s.rxLen.toNat ≤ 64 := by
  unfold State.dataEntry
  rw [Bool.and_eq_true, Bool.and_eq_true, decide_eq_true_iff, decide_eq_true_iff, decide_eq_true_iff, and_assoc]
  rfl

theorem hasClock_iff {c : Construction} : Construction.hasClock c = true ↔ c.capNow = true ∧ c.capDelay = true := by
  simp [Construction.hasClock]

/-- The encoder below 64 bytes gives the frame on the wire (41_frame_encoder.md R100). -/
theorem encodeFrame_small {c : Construction} {dest cmd : Byte} {p : List Byte} (h : p.length < 64) :
    encodeFrame c dest cmd p = some (wireFrame c dest cmd p) := by
  unfold encodeFrame wireFrame
  rw [if_neg (by simp only [maxPayload]; omega)]
  cases c.proto <;> rfl

/-- The encoder refuses 64 bytes and more (41_frame_encoder.md R102). -/
theorem encodeFrame_large {c : Construction} {dest cmd : Byte} {p : List Byte} (h : 64 ≤ p.length) :
    encodeFrame c dest cmd p = none := by
  unfold encodeFrame
  rw [if_pos (by simpa only [maxPayload] using h)]

theorem frameBody_length (dest src cmd : Byte) (p : List Byte) : (frameBody dest src cmd p).length = p.length + 5 := by
  simp [frameBody]

theorem wireFrame_length (c : Construction) (dest cmd : Byte) (p : List Byte) :
    (wireFrame c dest cmd p).length = p.length + (match c.proto with | .uart => 7 | .bus => 5) := by
  unfold wireFrame
  cases c.proto <;> simp [frameBody_length]

/-- What the send half can do: end in a result, or hand a frame of 5 to 70 bytes to the transmitter. -/
theorem sendHalf_cases (s : State) (dest cmd : Byte) (p : List Byte) :
    (∃ x, s.sendHalf dest cmd p = s.raise x) ∨
    (canSend s ∧ p.length < 64 ∧ s.sendHalf dest cmd p = s.transmit dest (wireFrame s.cons dest cmd p)) := by
  unfold State.sendHalf
  split
  · exact .inl ⟨_, rfl⟩
  · split
    · exact .inl ⟨_, rfl⟩
    · rename_i h1 h2
      by_cases hp : p.length < 64
      · refine .inr ⟨⟨by simpa using h1, hasClock_iff.1 (by simpa using h2)⟩, hp, ?_⟩
        rw [encodeFrame_small hp]
      · rw [encodeFrame_large (by omega)]
        exact .inl ⟨_, rfl⟩

theorem sendHalf_transmits {s : State} {dest cmd : Byte} {p : List Byte} (h : canSend s) (hp : p.length < 64) :
    s.sendHalf dest cmd p = s.transmit dest (wireFrame s.cons dest cmd p) := by
  unfold State.sendHalf
  rw [if_neg (by simp [h.1]), if_neg (by simp [hasClock_iff.2 h.2]), encodeFrame_small hp]

/-- The transmit request puts the frame at the front of `TX_BUF` (43_transaction.md R145). -/
theorem transmit_frameRequested (s : State) (dest : Byte) {f : List Byte} (h : f.length < 128) :
    frameRequested s (s.transmit dest f) dest f := by
  refine ⟨rfl, ?_, ?_, ?_⟩
  · simp only [State.transmit, BitVec.toNat_ofNat]; omega
  · intro k hk; simp only [State.transmit, read_memWrite]; rw [if_pos (by omega)]; rfl
  · intro k hk; simp only [State.transmit, read_memWrite]; rw [if_neg (by omega)]

/-- The copy to the response buffer (43_transaction.md R161). -/
theorem deliver_responseCopied {s : State} {p : List Byte} (hb : s.tHasBuf = true) (hl : s.rxLen.toNat = p.length)
    (h : p.length ≤ 64) : responseCopied s (s.deliver p) p := by
  unfold State.deliver
  rw [if_pos hb]
  refine ⟨rfl, ?_, ?_, ?_⟩
  · simp only [BitVec.toNat_ofNat]; omega
  · intro k hk; simp only [read_memWrite]; rw [if_pos (by omega)]; rfl
  · intro k hk; simp only [read_memWrite]; rw [if_neg (by omega)]

theorem deliver_none {s : State} {p : List Byte} (hb : s.tHasBuf = false) : s.deliver p = s := by
  simp [State.deliver, hb]

/-- A pending frame's payload is as long as `RX_LEN` says. -/
theorem goodFramePending_length {s : State} {p : List Byte} (h : goodFramePending s p) : p.length = s.rxLen.toNat :=
  memRead_length h.2.2.2.1

/-! ### What an instruction can do -/

/-- The latches of a host operation that sends. -/
def State.latched (s : State) (k : Kind) (dest cmd : Byte) (hasBuf : Bool) (cap desc arg0 motorCap : Byte) : State :=
  { s with
    tKind := k, tDest := dest, tCmd := cmd, tHasBuf := hasBuf, tCap := cap, tDesc := desc, tArg0 := arg0
    tMotorCap := motorCap }

/-- `t` is a next state of `i` in `s`: one constructor for each kind of change the engine makes. -/
inductive Effect (i : Instr) (s : State) : State → Prop
  | same : Effect i s s
  | syncFirst (hi : isFeed i = true) (hr : s.frameReady = false) (hd : s.dstate = .sync0) : Effect i s s.feedSyncFirst
  | syncSecond (hi : isFeed i = true) (hr : s.frameReady = false) (hd : s.dstate = .sync1) : Effect i s s.feedSyncSecond
  | syncRestart (hi : isFeed i = true) (hr : s.frameReady = false) (hd : s.dstate = .sync0 ∨ s.dstate = .sync1) :
      Effect i s s.feedSyncRestart
  | destByte (b : Byte) (hi : isFeed i = true) (hr : s.frameReady = false) (hd : s.dstate = .dest) :
      Effect i s (s.feedDestByte b)
  | srcByte (b : Byte) (hi : isFeed i = true) (hr : s.frameReady = false) (hd : s.dstate = .src) :
      Effect i s (s.feedSrcByte b)
  | cmdByte (b : Byte) (hi : isFeed i = true) (hr : s.frameReady = false) (hd : s.dstate = .cmd) :
      Effect i s (s.feedCmdByte b)
  | lenOver (hi : isFeed i = true) (hr : s.frameReady = false) (hd : s.dstate = .len) : Effect i s s.feedLenOversized
  | lenByte (b : Byte) (hi : isFeed i = true) (hr : s.frameReady = false) (hd : s.dstate = .len) (hb : b.toNat ≤ 64) :
      Effect i s (s.feedLenByte b)
  | dataByte (b : Byte) (t : State) (hi : isFeed i = true) (hr : s.frameReady = false) (hd : s.dstate = .data)
      (ht : s.feedDataByte b = .next t) : Effect i s t
  | chkByte (b : Byte) (hi : isFeed i = true) (hr : s.frameReady = false) (hd : s.dstate = .chk) :
      Effect i s (s.feedChkByte b)
  | hostFails (n : Nat) (k : Kind) (dest cmd : Byte) (hasBuf : Bool) (cap desc arg0 motorCap : Byte) (x : Result)
      (hi : isHostOp i = true) (hs : s.tstate = .idle) :
      Effect i s (((s.drawn n).latched k dest cmd hasBuf cap desc arg0 motorCap).raise x)
  | transmits (n : Nat) (k : Kind) (dest cmd : Byte) (hasBuf : Bool) (cap desc arg0 motorCap : Byte) (p : List Byte)
      (hi : isHostOp i = true) (hs : s.tstate = .idle) (hc : canSend s) (hp : p.length < 64) (hk : k ≠ .recv)
      (hcat : k = .cat → hasBuf = true ∧ ∃ d, lookupDescriptor s.cons desc = some d ∧ cmd = d.cmd ∧ cap = d.respCap) :
      Effect i s (((s.drawn n).latched k dest cmd hasBuf cap desc arg0 motorCap).transmit dest (wireFrame s.cons dest cmd p))
  | recvFails (hi : isHostOp i = true) (hs : s.tstate = .idle) :
      Effect i s ({ s with tKind := .recv }.raiseRecv .timerNotSet)
  | recvStarts (dest cmd : Byte) (timeoutMs : U32) (hasBuf : Bool) (cap : Byte) (now : U32) (hi : isHostOp i = true)
      (hs : s.tstate = .idle) (hc : Construction.hasClock s.cons = true) :
      Effect i s ({ s with tKind := .recv, tDest := dest, tCmd := cmd, tHasBuf := hasBuf, tCap := cap }.startReceive
        timeoutMs now)
  | setsTimeout (v : U32) (hi : i = .setTimeout v) (hs : s.tstate = .idle) :
      Effect i s ({ s with cfgTimeoutMs := v }.raise .success)
  | txFails (now : U32) (hi : i = .txdone false now) (hs : s.tstate = .tx) :
      Effect i s (s.clearReady.raise .remoteTransportError)
  | txEndsSend (now : U32) (hi : i = .txdone true now) (hs : s.tstate = .tx) (hk : s.tKind = .send) :
      Effect i s { s.clearReady.raise .success with sendOpen := true }
  | txStartsReceive (now : U32) (hi : i = .txdone true now) (hs : s.tstate = .tx) (hk : s.tKind ≠ .send) :
      Effect i s (s.clearReady.startReceive s.cfgTimeoutMs now)
  | timesOut (now : U32) (hi : i = .poll now) (hs : s.tstate = .wait) (hd : pollDue s = true) (hr : s.frameReady = false) :
      Effect i s ({ s with dstate := s.init }.raiseRecv .timeout)
  | waitsOn (now : U32) (hi : i = .poll now) (hs : s.tstate = .wait) (hd : pollDue s = true) (hr : s.frameReady = false) :
      Effect i s (s.requestDelay now)
  | mismatch (now : U32) (p : List Byte) (hi : i = .poll now) (hs : s.tstate = .wait) (hd : pollDue s = true) (hr : s.frameReady = true)
      (hp : memRead s.rxPayload 0 s.rxLen.toNat = some p) (hc : chkOk s p = false) :
      Effect i s (s.raiseRecv .checksumMismatch)
  | deviceError (p : List Byte) (hi : isCompletion i = true) (hg : goodFramePending s p)
      (he : s.rxCmd.getLsbD 7 = true) : Effect i s s.errorArm
  | unmatched (now : U32) (p : List Byte) (x : Result) (hi : i = .poll now) (hg : goodFramePending s p)
      (he : s.rxCmd.getLsbD 7 = false)
      (hx : x = .unmatchedAddress ∨ x = .unmatchedCommand ∨ x = .outputBufferTooSmall) :
      Effect i s (s.clearReady.raiseRecv x)
  | accepted (now : U32) (p : List Byte) (x : Result) (out : Option CatOut) (hi : i = .poll now)
      (hg : goodFramePending s p) (ha : responseAccepted s)
      (hx : x = .success ∨ x = .dataInvalid ∨ x = .sizeTooBig) (ho : x = .success ∨ out = s.catOut) :
      Effect i s ({ (s.deliver p).clearReady with catOut := out }.raiseRecv x)
  | resets (hi : i = .reset) :
      Effect i s { State.construct s.cons (fun k => Config.freeNat (s.freeCtr + k)) with
        freeCtr := s.freeCtr + State.constructDraws, inbox := s.inbox }
  | function (out : Option FnOut) (n : Nat) (hi : isHostOp i = false) : Effect i s { s with fnOut := out, freeCtr := n }

theorem feed_effect {i : Instr} {b : Byte} {s t : State} (hi : isFeed i = true) (h : execFeed b s = .next t) :
    Effect i s t := by
  unfold execFeed at h
  split at h
  · cases h; exact .same
  · rename_i hr
    have hr : s.frameReady = false := by simpa using hr
    split at h <;> rename_i hd
    · split at h <;> cases h
      · exact .syncFirst hi hr hd
      · exact .syncRestart hi hr (.inl hd)
    · split at h <;> cases h
      · exact .syncSecond hi hr hd
      · exact .syncRestart hi hr (.inr hd)
    · cases h; exact .destByte b hi hr hd
    · cases h; exact .srcByte b hi hr hd
    · cases h; exact .cmdByte b hi hr hd
    · split at h <;> cases h
      · rename_i hl
        exact .lenByte b hi hr hd (lenAccepted_iff.1 hl)
      · exact .lenOver hi hr hd
    · exact .dataByte b t hi hr hd h
    · cases h; exact .chkByte b hi hr hd

/-- A host operation that sends: what its send half can do. -/
theorem sendHalf_effect {i : Instr} {s : State} (n : Nat) {k : Kind} {dest cmd : Byte} {hasBuf : Bool} {cap desc arg0 motorCap : Byte}
    (p : List Byte) (hi : isHostOp i = true) (hs : s.tstate = .idle) (hk : k ≠ .recv)
    (hcat : k = .cat → hasBuf = true ∧ ∃ d, lookupDescriptor s.cons desc = some d ∧ cmd = d.cmd ∧ cap = d.respCap) :
    Effect i s (((s.drawn n).latched k dest cmd hasBuf cap desc arg0 motorCap).sendHalf dest cmd p) := by
  rcases sendHalf_cases ((s.drawn n).latched k dest cmd hasBuf cap desc arg0 motorCap) dest cmd p with ⟨x, h⟩ | ⟨hc, hp, h⟩
  · rw [h]; exact .hostFails n k dest cmd hasBuf cap desc arg0 motorCap x hi hs
  · rw [h]; exact .transmits n k dest cmd hasBuf cap desc arg0 motorCap p hi hs hc hp hk hcat

theorem xfer_effect {i : Instr} {s : State} {dest cmd : Byte} {p : List Byte} {hasBuf : Bool} {cap : Byte}
    (hi : isHostOp i = true) (hs : s.tstate = .idle) : Effect i s (s.startXfer dest cmd p hasBuf cap) :=
  sendHalf_effect 0 (k := .xfer) (desc := s.tDesc) (arg0 := s.tArg0) (motorCap := s.tMotorCap) p hi hs (by simp) (by simp)

theorem class_effect {i : Instr} {s t : State} {lo hi' dest cmd : Byte} {p : List Byte} {hasBuf : Bool} {cap : Byte}
    (hi : isHostOp i = true) (h : s.classTransaction lo hi' cmd dest p hasBuf cap = .next t) : Effect i s t := by
  unfold State.classTransaction at h
  split at h
  · rcases whenIdle_next h with rfl | ⟨hs, h⟩
    · exact .same
    · cases h; exact xfer_effect hi hs
  · cases h; exact .same

theorem cat_effect {i : Instr} {s t : State} {desc dest motorCap : Byte} {args : List Arg}
    (hi : isHostOp i = true) (h : whenIdle s (s.startCat desc dest motorCap args) = .next t) : Effect i s t := by
  rcases whenIdle_next h with rfl | ⟨hs, h⟩
  · exact .same
  · unfold State.startCat at h
    split at h
    · cases h
    · rename_i d hd
      cases h
      exact sendHalf_effect (packDraws d.req args) (k := .cat) _ hi hs (by simp) fun _ => ⟨rfl, d, hd, rfl, rfl⟩

theorem errorPending_iff {s : State} :
    s.errorPending = true ↔ (∃ p, goodFramePending s p) ∧ s.rxCmd.getLsbD 7 = true := by
  unfold State.errorPending goodFramePending errBit
  cases hp : memRead s.rxPayload 0 s.rxLen.toNat <;> simp [and_assoc, and_comm, and_left_comm]

theorem deviceErrorRow_effect {i : Instr} {s t : State} {code : Byte} (hi : isCompletion i = true)
    (h : s.deviceErrorRow code = .next t) : Effect i s t := by
  unfold State.deviceErrorRow at h
  split at h
  · rename_i hc
    simp only [Bool.and_eq_true] at hc
    obtain ⟨⟨p, hp⟩, he⟩ := errorPending_iff.1 hc.1.1
    cases h
    exact .deviceError p hi hp he
  · cases h; exact .same

/-- The end of a `CAT` (44_command_catalogue.md R186). -/
theorem finishCat_next {s t : State} (h : s.finishCat = .next t) :
    ∃ x out, t = { s with catOut := out }.raiseRecv x ∧ (x = .success ∨ x = .dataInvalid ∨ x = .sizeTooBig) ∧
      (x = .success ∨ out = s.catOut) := by
  unfold State.finishCat at h
  split at h
  · cases h
  · split at h
    · cases h
    · rename_i r hr
      split at h
      · rename_i x hx
        cases h
        refine ⟨x, s.catOut, rfl, ?_, .inr rfl⟩
        unfold catOutcome at hx
        repeat' split at hx
        all_goals simp_all
      · rename_i out hx
        cases h
        exact ⟨.success, some out, rfl, .inl rfl, .inl rfl⟩

/-- The completion of a `RECV` ends the operation (43_transaction.md R155). -/
theorem complete_ends {s t : State} (h : s.complete = .next t) : t.tstate = .idle := by
  unfold State.complete State.matchResponse State.successArm at h
  repeat' split at h
  all_goals first
    | (cases h; done)
    | (cases h; rfl)
    | (obtain ⟨x, out, rfl, -⟩ := finishCat_next h; rfl)

theorem pollEnabled_iff {s : State} {now : U32} :
    pollEnabled s now = true ↔ s.tstate = .wait ∧ pollDue s = true ∧ pollSpaced s now = true := by
  simp [pollEnabled, and_assoc]

/-- With no delay asked for yet the clock does not matter. -/
theorem pollEnabled_idle {s : State} (now : U32) (hs : s.tstate = .wait) (hd : s.delay = .idle) : pollEnabled s now = true := by
  simp [pollEnabled, pollDue, pollSpaced, hs, hd]

/-- A `POLL` on a pending frame ends the operation (43_transaction.md R152). -/
theorem poll_ends {now : U32} {s t : State} (he : pollEnabled s now = true) (hr : s.frameReady = true)
    (h : execPoll now s = .next t) : t.tstate = .idle := by
  unfold execPoll at h
  rw [if_pos he, if_pos hr] at h
  exact complete_ends h

theorem poll_effect {now : U32} {s t : State} (h : execPoll now s = .next t) : Effect (.poll now) s t := by
  unfold execPoll at h
  split at h
  · rename_i hp
    obtain ⟨hs, hd, -⟩ := pollEnabled_iff.1 hp
    split at h
    · rename_i hr
      unfold State.complete at h
      split at h
      · cases h
      · rename_i p hp
        split at h
        · rename_i hc
          cases h
          exact .mismatch now p rfl hs hd hr hp hc
        · rename_i hc
          have hg : goodFramePending s p := ⟨hs, hd, hr, hp, Bool.eq_true_of_not_eq_false hc⟩
          split at h
          · rename_i he
            cases h
            exact .deviceError p rfl hg he
          · rename_i he
            have he : s.rxCmd.getLsbD 7 = false := by simpa [errBit] using he
            unfold State.matchResponse at h
            split at h
            · cases h; exact .unmatched now p _ rfl hg he (.inl rfl)
            · rename_i h1
              split at h
              · cases h; exact .unmatched now p _ rfl hg he (.inr (.inl rfl))
              · rename_i h2
                split at h
                · cases h; exact .unmatched now p _ rfl hg he (.inr (.inr rfl))
                · rename_i h3
                  have ha : responseAccepted s := by
                    refine ⟨he, ?_, by simpa using h2, fun hb => ?_⟩
                    · tauto
                    · simp only [not_and] at h3
                      exact not_lt.1 (h3 hb)
                  unfold State.successArm at h
                  split at h
                  · obtain ⟨x, out, rfl, hx, ho⟩ := finishCat_next h
                    refine .accepted now p x out rfl hg ha hx (ho.imp id ?_)
                    intro h; rw [h]; unfold State.deliver; split <;> rfl
                  · cases h
                    exact .accepted now p .success ((s.deliver p).clearReady).catOut rfl hg ha (.inl rfl)
                      (.inl rfl)
    · rename_i hr
      have hr : s.frameReady = false := by simpa using hr
      unfold State.timeCheck at h
      split at h <;> cases h
      · exact .timesOut now rfl hs hd hr
      · exact .waitsOn now rfl hs hd hr
  · cases h; exact .same

theorem txdone_effect {ok : Bool} {now : U32} {s t : State} (h : execTxdone ok now s = .next t) :
    Effect (.txdone ok now) s t := by
  unfold execTxdone at h
  split at h
  · rename_i hs
    simp only at h
    cases ok
    · cases h; exact .txFails now rfl hs
    · simp only [Bool.true_eq_false, if_false] at h
      split at h <;> rename_i hk <;> cases h
      · exact .txEndsSend now rfl hs hk
      · exact .txStartsReceive now rfl hs hk
  · cases h; exact .same

/-- Every next state of every instruction is one of the effects. -/
theorem exec_effect {i : Instr} {s t : State} (h : exec i s = .next t) : Effect i s t := by
  cases i
  case send dest cmd p =>
    rcases whenIdle_next h with rfl | ⟨hs, h⟩
    · exact .same
    · split at h
      · cases h
      · cases h
        exact sendHalf_effect 0 (k := .send) (hasBuf := s.tHasBuf) (cap := s.tCap) (desc := s.tDesc) (arg0 := s.tArg0)
          (motorCap := s.tMotorCap) p rfl hs (by simp) (by simp)
  case recv dest cmd timeoutMs hasBuf cap now =>
    rcases whenIdle_next h with rfl | ⟨hs, h⟩
    · exact .same
    · simp only at h
      split at h <;> rename_i hc <;> cases h
      · exact .recvFails rfl hs
      · exact .recvStarts dest cmd timeoutMs hasBuf cap now rfl hs (by simpa using hc)
  case xfer =>
    rcases whenIdle_next h with rfl | ⟨hs, h⟩
    · exact .same
    · cases h; exact xfer_effect rfl hs
  case setTimeout v =>
    rcases whenIdle_next h with rfl | ⟨hs, h⟩
    · exact .same
    · cases h; exact .setsTimeout v rfl hs
  case cat => exact cat_effect rfl h
  case reservedOp5 => cases h; exact .same
  case reservedOp6 => cases h; exact .same
  case reservedOp7 => cases h; exact .same
  case feed b => exact feed_effect rfl h
  case txdone => exact txdone_effect h
  case poll => exact poll_effect h
  case reset => cases h; exact .resets rfl
  case feedSync0Hit =>
    rcases selectRow_next h with rfl | ⟨hr, hd, -, h⟩
    · exact .same
    · cases h; exact .syncFirst rfl hr hd
  case feedSync0Miss =>
    rcases selectRow_next h with rfl | ⟨hr, hd, -, h⟩
    · exact .same
    · cases h; exact .syncRestart rfl hr (.inl hd)
  case feedSync1Hit =>
    rcases selectRow_next h with rfl | ⟨hr, hd, -, h⟩
    · exact .same
    · cases h; exact .syncSecond rfl hr hd
  case feedSync1Miss =>
    rcases selectRow_next h with rfl | ⟨hr, hd, -, h⟩
    · exact .same
    · cases h; exact .syncRestart rfl hr (.inr hd)
  case feedDest b =>
    rcases selectRow_next h with rfl | ⟨hr, hd, -, h⟩
    · exact .same
    · cases h; exact .destByte b rfl hr hd
  case feedSrc b =>
    rcases selectRow_next h with rfl | ⟨hr, hd, -, h⟩
    · exact .same
    · cases h; exact .srcByte b rfl hr hd
  case feedCmd b =>
    rcases selectRow_next h with rfl | ⟨hr, hd, -, h⟩
    · exact .same
    · cases h; exact .cmdByte b rfl hr hd
  case feedLenZero =>
    rcases selectRow_next h with rfl | ⟨hr, hd, -, h⟩
    · exact .same
    · cases h; exact .lenByte 0 rfl hr hd (by decide)
  case feedLenAccept b =>
    rcases selectRow_next h with rfl | ⟨hr, hd, hc, h⟩
    · exact .same
    · cases h
      simp only [Bool.and_eq_true] at hc
      exact .lenByte b rfl hr hd (lenAccepted_iff.1 hc.1)
  case feedLenOver =>
    rcases selectRow_next h with rfl | ⟨hr, hd, -, h⟩
    · exact .same
    · cases h; exact .lenOver rfl hr hd
  case feedData b =>
    rcases selectRow_next h with rfl | ⟨hr, hd, -, h⟩
    · exact .same
    · exact .dataByte b t rfl hr hd h
  case feedChk b =>
    rcases selectRow_next h with rfl | ⟨hr, hd, -, h⟩
    · exact .same
    · cases h; exact .chkByte b rfl hr hd
  case getProtocolVersion => exact cat_effect rfl h
  case custom => exact cat_effect rfl h
  case errorResponse cmd =>
    change execErrorResponse cmd s = _ at h
    unfold execErrorResponse at h
    split at h
    · rename_i hc
      simp only [Bool.and_eq_true] at hc
      obtain ⟨⟨p, hp⟩, he⟩ := errorPending_iff.1 hc.1
      cases h
      exact .deviceError p rfl hp he
    · cases h; exact .same
  case classGet => exact class_effect rfl h
  case classAuxGet20 => exact class_effect rfl h
  case classAuxGet24 => exact class_effect rfl h
  case unassigned26 => exact class_effect rfl h
  case classSet40 => exact class_effect rfl h
  case classSet50 => exact class_effect rfl h
  case classSet54 => exact class_effect (lo := 0x54) (hi' := 0x54) (cmd := 0x54) rfl h
  case unassigned55 => exact class_effect rfl h
  case classAuxSet60 => exact class_effect rfl h
  case classAuxSet64 => exact class_effect (lo := 0x64) (hi' := 0x64) (cmd := 0x64) rfl h
  case unassigned65 => exact class_effect rfl h
  case deverrWrongChecksum => exact deviceErrorRow_effect rfl h
  case deverrInvalidCommand => exact deviceErrorRow_effect rfl h
  case deverrInvalidByteCount => exact deviceErrorRow_effect rfl h
  case deverrInvalidData => exact deviceErrorRow_effect rfl h
  case deverrDeviceNotInitialized => exact deviceErrorRow_effect rfl h
  case deverrDeviceCalibrating => exact deviceErrorRow_effect rfl h
  case deverrMotorStuck => exact deviceErrorRow_effect rfl h
  case deverrOperationFailed => exact deviceErrorRow_effect rfl h
  case deverrSaveFailed => exact deviceErrorRow_effect rfl h
  case lrc => cases h; exact .function _ _ rfl
  case chkOk =>
    change execChkOk s = _ at h
    unfold execChkOk at h
    repeat' split at h
    all_goals cases h
    · exact .function _ _ rfl
    · exact .same
  case encode dest cmd p =>
    change execEncode dest cmd p s = _ at h
    unfold execEncode at h
    split at h <;> cases h <;> exact .function _ _ rfl
  case pack shape args =>
    change execPack shape args s = _ at h
    cases h
    exact .function _ _ rfl
  case unpack shape =>
    change execUnpack shape s = _ at h
    unfold execUnpack at h
    repeat' split at h
    all_goals cases h
    all_goals exact .function _ _ rfl

end Sys2Proof.Machine
end

