-- ==== Sys2Proof/Laws/Feed.lean ====
section
/-! SUPPORT. Runs of several inputs, and what feeding the payload of a frame does. -/

namespace Sys2Proof.Machine

theorem feedAll_cons_next {b : Byte} {bs : List Byte} {s t : State} (h : execFeed b s = .next t) :
    feedAll (b :: bs) s = feedAll bs t := by
  show (match execFeed b s with | .next t => feedAll bs t | .fault f => .fault f | .refused r => .refused r) = _
  rw [h]

theorem feedAll_append {as bs : List Byte} {s t : State} (h : feedAll as s = .next t) :
    feedAll (as ++ bs) s = feedAll bs t := by
  induction as generalizing s with
  | nil => cases h; rfl
  | cons a as ih =>
    simp only [List.cons_append, feedAll] at h ⊢
    split at h
    · exact ih h
    · cases h
    · cases h

theorem runAll_append {is js : List Instr} {s t : State} (h : runAll is s = .next t) : runAll (is ++ js) s = runAll js t := by
  induction is generalizing s with
  | nil => cases h; rfl
  | cons i is ih =>
    simp only [List.cons_append, runAll] at h ⊢
    split at h
    · exact ih h
    · cases h
    · cases h

/-- Feeding is running `FEED` after `FEED`. -/
theorem runAll_feed (bs : List Byte) (s : State) : runAll (bs.map .feed) s = feedAll bs s := by
  induction bs generalizing s with
  | nil => rfl
  | cons b bs ih =>
    simp only [List.map_cons, runAll, feedAll]
    cases exec (.feed b) s with
    | next t => exact ih t
    | fault f => rfl
    | refused r => rfl

/-- While a frame is pending, bytes change nothing (42_frame_decoder.md R110). -/
theorem feedAll_pending {s : State} (bs : List Byte) (h : s.frameReady = true) : feedAll bs s = .next s := by
  induction bs with
  | nil => rfl
  | cons b bs ih =>
    rw [feedAll_cons_next (t := s) (by simp [execFeed, h]), ih]

/-- One payload byte (42_frame_decoder.md R119). -/
theorem execFeed_data {b : Byte} {s : State} (hr : s.frameReady = false) (hd : s.dstate = .data)
    (he : 1 ≤ s.dRemain.toNat ∧ s.dRemain.toNat ≤ s.rxLen.toNat ∧ s.rxLen.toNat ≤ 64) :
    execFeed b s = .next { s with
      rxPayload := s.rxPayload.write s.dataIndex b, dRemain := s.dRemain - 1
      dstate := if s.dRemain.toNat = 1 then .chk else .data } := by
  have h1 : (s.dRemain - 1 = 0) ↔ s.dRemain.toNat = 1 := by
    rw [BitVec.toNat_eq, BitVec.toNat_sub]; simp; omega
  unfold execFeed
  simp only [hr, hd, Bool.false_eq_true, if_false, State.feedDataByte, dataEntry_iff.2 he, if_true, h1]

/-- The whole rest of a payload (42_frame_decoder.md R119): the bytes go to the indexes from the next one on, and the checksum byte
is awaited. -/
theorem feedAll_payload (q : List Byte) (s : State) (hr : s.frameReady = false) (hd : s.dstate = .data) (hq : q ≠ [])
    (hl : s.dRemain.toNat = q.length) (h1 : q.length ≤ s.rxLen.toNat) (h2 : s.rxLen.toNat ≤ 64) :
    feedAll q s = .next { s with
      rxPayload := memWrite s.rxPayload (s.rxLen.toNat - q.length) q, dRemain := 0, dstate := .chk } := by
  induction q generalizing s with
  | nil => exact absurd rfl hq
  | cons b q ih =>
    simp only [List.length_cons] at hl h1
    have hs : (s.dRemain - 1).toNat = q.length := by rw [BitVec.toNat_sub]; simp; omega
    rw [feedAll_cons_next (execFeed_data hr hd ⟨by omega, by omega, h2⟩)]
    by_cases hn : q = []
    · subst hn
      have h0 : s.dRemain - 1 = 0 := by apply BitVec.eq_of_toNat_eq; rw [hs]; rfl
      simp only [feedAll, State.dataIndex, h0, hl, List.length_nil, Nat.zero_add, if_true, List.length_cons, memWrite]
    · have hp : q.length ≠ 0 := by simpa using hn
      rw [if_neg (show ¬ s.dRemain.toNat = 1 by omega), ih { s with rxPayload := s.rxPayload.write s.dataIndex b, dRemain := s.dRemain - 1, dstate := .data } hr rfl hn hs
          (by show q.length ≤ s.rxLen.toNat; omega) h2]
      have hi : s.dataIndex + 1 = s.rxLen.toNat - q.length := by unfold State.dataIndex; omega
      have hi2 : s.dataIndex = s.rxLen.toNat - (q.length + 1) := by unfold State.dataIndex; omega
      simp only [List.length_cons, memWrite, ← hi2, hi]

end Sys2Proof.Machine
end

