-- ==== Sys2Proof/Laws/Operands.lean ====
section
/-! SUPPORT. What the marshaller's operations give: the value of 16-bit fields, the bytes of a number, the length of packed fields, packing
one shape after another, and the bits of a flag field. -/

namespace Sys2Proof.Machine

theorem le16_toNat (lo hi : Byte) : (le16 lo hi).toNat = lo.toNat + 256 * hi.toNat := by
  simp only [le16, BitVec.toNat_append]
  rw [Nat.shiftLeft_eq, Nat.mul_comm, ← Nat.two_pow_add_eq_or_of_lt (by omega)]
  omega

/-- The signed reading of a 16-bit field (30_encoding.md R66). -/
theorem le16_toInt (lo hi : Byte) :
    (le16 lo hi).toInt = lo.toNat + 256 * hi.toNat - (if 128 ≤ hi.toNat then 65536 else 0) := by
  rw [BitVec.toInt_eq_toNat_cond, le16_toNat]
  split <;> split <;> push_cast <;> omega

theorem byteOf_eq (v : U32) (k : Nat) : byteOf v k = BitVec.ofNat 8 (v.toNat / 2 ^ (8 * k)) := by
  apply BitVec.eq_of_toNat_eq
  simp [byteOf, Nat.shiftRight_eq_div_pow]

@[simp] theorem freeBytes_length (k n : Nat) : (freeBytes k n).length = n := by simp [freeBytes]

/-- A field of fixed size packs to that many bytes, whatever its argument. -/
theorem packField_length (k : Nat) {f : FieldType} (hf : f ≠ .rest) (a : Option Arg) :
    (packField k f a).length = fieldSize f := by
  unfold packField
  split <;> simp_all [fieldSize, bytes32]
  omega

/-- Packing two shapes, one after the other (44_command_catalogue.md R181). -/
theorem pack_append (k : Nat) (gs fs : List FieldType) (bs as : List Arg) (h : gs.length = bs.length) :
    pack k (gs ++ fs) (bs ++ as) = pack k gs bs ++ pack (k + packDraws gs bs) fs as := by
  induction gs generalizing bs k with
  | nil => cases bs <;> simp_all [pack, packDraws]
  | cons g gs ih =>
    cases bs with
    | nil => simp at h
    | cons b bs =>
      simp only [pack, List.cons_append, List.head?_cons, List.tail_cons, packDraws]
      rw [ih _ bs (by simpa using h)]
      simp [Nat.add_assoc]

theorem flagsOk_iff {n : Nat} {ps : List Nat} :
    (FieldType.flags n ps).flagsOk = true ↔ 1 ≤ n ∧ (∀ p ∈ ps, p < 8 * n) ∧ ps.Nodup := by
  simp [FieldType.flagsOk, and_assoc]

/-- Each bit of a byte of flags: the flag that stands there, else a free bit (log 44). -/
theorem flagByte_getLsbD (k : Nat) (ps : List Nat) (b : List Bool) (j i : Nat) (h : i < 8) :
    (flagByte k ps b j).getLsbD i = ((ps.zip b).lookup (8 * j + i)).getD ((Config.freeByte (k + j)).getLsbD i) := by
  unfold flagByte
  rw [BitVec.getLsbD_setWidth, BitVec.getLsbD_ofBoolListLE]
  simp [h]

/-- Among different positions, the flag of a position is the one given for it. -/
theorem lookup_zip_of_nodup {ps : List Nat} {b : List Bool} {i p : Nat} {v : Bool} (hn : ps.Nodup) (hp : ps[i]? = some p)
    (hb : b[i]? = some v) : (ps.zip b).lookup p = some v := by
  induction ps generalizing b i with
  | nil => simp at hp
  | cons q ps ih =>
    cases b with
    | nil => simp at hb
    | cons w b =>
      rw [List.nodup_cons] at hn
      cases i with
      | zero =>
        simp only [List.getElem?_cons_zero, Option.some.injEq] at hp hb
        subst hp hb
        simp
      | succ i =>
        simp only [List.getElem?_cons_succ] at hp hb
        have h : p ≠ q := by rintro rfl; exact hn.1 (List.mem_of_getElem? hp)
        rw [List.zip_cons_cons, List.lookup_cons, show (p == q) = false by simpa using h]
        exact ih hn.2 hp hb

end Sys2Proof.Machine
end

