-- ==== Sys2Proof/Laws/PerInstr.lean ====
section
/-! SUPPORT. A statement about every instruction as syntax: the first byte of its encoding has the fixed bits the opcode table
gives its row. -/

namespace Sys2Proof.Laws.HeadByteInRow

/-- The mask and the match of the row of spec/opcode_table.json. -/
def row : Instr → Byte × Byte
  | .send _ _ _ => (0x07, 0x00)
  | .recv _ _ _ _ _ _ => (0x07, 0x01)
  | .xfer _ _ _ _ _ => (0x07, 0x02)
  | .setTimeout _ => (0x07, 0x03)
  | .cat _ _ _ _ => (0x07, 0x04)
  | .reservedOp5 => (0x07, 0x05)
  | .reservedOp6 => (0x07, 0x06)
  | .reservedOp7 => (0x07, 0x07)
  | .feed _ => (0x00, 0x00)
  | .txdone _ _ => (0x00, 0x00)
  | .poll _ => (0x00, 0x00)
  | .reset => (0x00, 0x00)
  | .feedSync0Hit => (0xFF, 0x55)
  | .feedSync0Miss _ => (0x00, 0x00)
  | .feedSync1Hit => (0xFF, 0xAA)
  | .feedSync1Miss _ => (0x00, 0x00)
  | .feedDest _ => (0x00, 0x00)
  | .feedSrc _ => (0x00, 0x00)
  | .feedCmd _ => (0x00, 0x00)
  | .feedLenZero => (0xFF, 0x00)
  | .feedLenAccept _ => (0x00, 0x00)
  | .feedLenOver _ => (0x00, 0x00)
  | .feedData _ => (0x00, 0x00)
  | .feedChk _ => (0x00, 0x00)
  | .getProtocolVersion _ => (0xFF, 0x00)
  | .custom _ _ => (0xFF, 0x5F)
  | .errorResponse _ => (0x80, 0x80)
  | .classGet _ _ _ _ _ => (0xE0, 0x00)
  | .classAuxGet20 _ _ _ _ _ => (0xFC, 0x20)
  | .classAuxGet24 _ _ _ _ _ => (0xFE, 0x24)
  | .unassigned26 _ _ _ _ _ => (0x00, 0x00)
  | .classSet40 _ _ _ _ _ => (0xF0, 0x40)
  | .classSet50 _ _ _ _ _ => (0xFC, 0x50)
  | .classSet54 _ _ _ _ => (0xFF, 0x54)
  | .unassigned55 _ _ _ _ _ => (0x00, 0x00)
  | .classAuxSet60 _ _ _ _ _ => (0xFC, 0x60)
  | .classAuxSet64 _ _ _ _ => (0xFF, 0x64)
  | .unassigned65 _ _ _ _ _ => (0x00, 0x00)
  | .deverrWrongChecksum => (0xFF, 0x01)
  | .deverrInvalidCommand => (0xFF, 0x11)
  | .deverrInvalidByteCount => (0xFF, 0x12)
  | .deverrInvalidData => (0xFF, 0x13)
  | .deverrDeviceNotInitialized => (0xFF, 0x21)
  | .deverrDeviceCalibrating => (0xFF, 0x22)
  | .deverrMotorStuck => (0xFF, 0x23)
  | .deverrOperationFailed => (0xFF, 0x31)
  | .deverrSaveFailed => (0xFF, 0x32)
  | .lrc _ => (0x00, 0x00)
  | .chkOk => (0x00, 0x00)
  | .encode _ _ _ => (0x00, 0x00)
  | .pack _ _ => (0x00, 0x00)
  | .unpack _ => (0x00, 0x00)

/-- The first byte of a well-formed instruction's encoding lies in its row. -/
def Statement (i : Instr) : Prop :=
  i.wf = true → ∀ b ∈ (encode i).head?, b &&& (row i).1 = (row i).2

/-- A row that fixes no bit admits every byte. -/
theorem of_no_mask {i : Instr} (h : row i = (0, 0)) : Statement i := by
  intro _ b _
  simp [h]

/-- A row whose first byte is one byte. -/
theorem of_head {i : Instr} {c : Byte} (h : (encode i).head? = some c) (hc : c &&& (row i).1 = (row i).2) : Statement i := by
  intro _ b hb
  rw [h] at hb
  cases hb
  exact hc

/-- A row whose first byte lies in a range all of whose bytes have the row's fixed bits. -/
theorem of_range {i : Instr} {lo hi c mask bits : Byte} (h : (encode i).head? = some c)
    (hw : i.wf = true → inRange lo hi c = true) (hi' : row i = (mask, bits))
    (hr : ∀ b : Byte, inRange lo hi b = true → b &&& mask = bits) : Statement i := by
  intro w b hb
  rw [h] at hb
  cases hb
  rw [hi']
  exact hr _ (hw w)

theorem send (dest cmd : Byte) (payload : List Byte) : Statement (.send dest cmd payload) := of_head rfl (by simp [row])
theorem recv (dest cmd : Byte) (timeoutMs : U32) (hasBuf : Bool) (cap : Byte) (now : U32) : Statement (.recv dest cmd timeoutMs hasBuf cap now) := of_head rfl (by simp [row])
theorem xfer (dest cmd : Byte) (payload : List Byte) (hasBuf : Bool) (cap : Byte) : Statement (.xfer dest cmd payload hasBuf cap) := of_head rfl (by simp [row])
theorem setTimeout (timeoutMs : U32) : Statement (.setTimeout timeoutMs) := of_head rfl (by simp [row])
theorem cat (desc dest motorCap : Byte) (args : List Arg) : Statement (.cat desc dest motorCap args) := of_head rfl (by simp [row])
theorem reservedOp5 : Statement (.reservedOp5) := of_head rfl (by decide)
theorem reservedOp6 : Statement (.reservedOp6) := of_head rfl (by decide)
theorem reservedOp7 : Statement (.reservedOp7) := of_head rfl (by decide)
theorem feed (b : Byte) : Statement (.feed b) := of_no_mask rfl
theorem txdone (ok : Bool) (now : U32) : Statement (.txdone ok now) := of_no_mask rfl
theorem poll (now : U32) : Statement (.poll now) := of_no_mask rfl
theorem reset : Statement (.reset) := of_no_mask rfl
theorem feedSync0Hit : Statement (.feedSync0Hit) := of_head rfl (by decide)
theorem feedSync0Miss (b : Byte) : Statement (.feedSync0Miss b) := of_no_mask rfl
theorem feedSync1Hit : Statement (.feedSync1Hit) := of_head rfl (by decide)
theorem feedSync1Miss (b : Byte) : Statement (.feedSync1Miss b) := of_no_mask rfl
theorem feedDest (b : Byte) : Statement (.feedDest b) := of_no_mask rfl
theorem feedSrc (b : Byte) : Statement (.feedSrc b) := of_no_mask rfl
theorem feedCmd (b : Byte) : Statement (.feedCmd b) := of_no_mask rfl
theorem feedLenZero : Statement (.feedLenZero) := of_head rfl (by decide)
theorem feedLenAccept (b : Byte) : Statement (.feedLenAccept b) := of_no_mask rfl
theorem feedLenOver (b : Byte) : Statement (.feedLenOver b) := of_no_mask rfl
theorem feedData (b : Byte) : Statement (.feedData b) := of_no_mask rfl
theorem feedChk (b : Byte) : Statement (.feedChk b) := of_no_mask rfl
theorem getProtocolVersion (dest : Byte) : Statement (.getProtocolVersion dest) := of_head rfl (by simp [row])
theorem custom (dest : Byte) (payload : List Byte) : Statement (.custom dest payload) := of_head rfl (by simp [row])
theorem errorResponse (cmd : Byte) : Statement (.errorResponse cmd) :=
  of_range (lo := 0x80) (hi := 0xFF) (c := cmd) rfl (fun w => w) rfl (by unfold inRange; decide)
theorem classGet (cmd dest : Byte) (payload : List Byte) (hasBuf : Bool) (cap : Byte) : Statement (.classGet cmd dest payload hasBuf cap) :=
  of_range (lo := 0x01) (hi := 0x1F) (c := cmd) rfl (fun w => by simp only [Instr.wf, Bool.and_eq_true] at w; exact w.1) rfl (by unfold inRange; decide)
theorem classAuxGet20 (cmd dest : Byte) (payload : List Byte) (hasBuf : Bool) (cap : Byte) : Statement (.classAuxGet20 cmd dest payload hasBuf cap) :=
  of_range (lo := 0x20) (hi := 0x23) (c := cmd) rfl (fun w => by simp only [Instr.wf, Bool.and_eq_true] at w; exact w.1) rfl (by unfold inRange; decide)
theorem classAuxGet24 (cmd dest : Byte) (payload : List Byte) (hasBuf : Bool) (cap : Byte) : Statement (.classAuxGet24 cmd dest payload hasBuf cap) :=
  of_range (lo := 0x24) (hi := 0x25) (c := cmd) rfl (fun w => by simp only [Instr.wf, Bool.and_eq_true] at w; exact w.1) rfl (by unfold inRange; decide)
theorem unassigned26 (cmd dest : Byte) (payload : List Byte) (hasBuf : Bool) (cap : Byte) : Statement (.unassigned26 cmd dest payload hasBuf cap) := of_no_mask rfl
theorem classSet40 (cmd dest : Byte) (payload : List Byte) (hasBuf : Bool) (cap : Byte) : Statement (.classSet40 cmd dest payload hasBuf cap) :=
  of_range (lo := 0x40) (hi := 0x4F) (c := cmd) rfl (fun w => by simp only [Instr.wf, Bool.and_eq_true] at w; exact w.1) rfl (by unfold inRange; decide)
theorem classSet50 (cmd dest : Byte) (payload : List Byte) (hasBuf : Bool) (cap : Byte) : Statement (.classSet50 cmd dest payload hasBuf cap) :=
  of_range (lo := 0x50) (hi := 0x53) (c := cmd) rfl (fun w => by simp only [Instr.wf, Bool.and_eq_true] at w; exact w.1) rfl (by unfold inRange; decide)
theorem classSet54 (dest : Byte) (payload : List Byte) (hasBuf : Bool) (cap : Byte) : Statement (.classSet54 dest payload hasBuf cap) := of_head rfl (by simp [row])
theorem unassigned55 (cmd dest : Byte) (payload : List Byte) (hasBuf : Bool) (cap : Byte) : Statement (.unassigned55 cmd dest payload hasBuf cap) := of_no_mask rfl
theorem classAuxSet60 (cmd dest : Byte) (payload : List Byte) (hasBuf : Bool) (cap : Byte) : Statement (.classAuxSet60 cmd dest payload hasBuf cap) :=
  of_range (lo := 0x60) (hi := 0x63) (c := cmd) rfl (fun w => by simp only [Instr.wf, Bool.and_eq_true] at w; exact w.1) rfl (by unfold inRange; decide)
theorem classAuxSet64 (dest : Byte) (payload : List Byte) (hasBuf : Bool) (cap : Byte) : Statement (.classAuxSet64 dest payload hasBuf cap) := of_head rfl (by simp [row])
theorem unassigned65 (cmd dest : Byte) (payload : List Byte) (hasBuf : Bool) (cap : Byte) : Statement (.unassigned65 cmd dest payload hasBuf cap) := of_no_mask rfl
theorem deverrWrongChecksum : Statement (.deverrWrongChecksum) := of_head rfl (by decide)
theorem deverrInvalidCommand : Statement (.deverrInvalidCommand) := of_head rfl (by decide)
theorem deverrInvalidByteCount : Statement (.deverrInvalidByteCount) := of_head rfl (by decide)
theorem deverrInvalidData : Statement (.deverrInvalidData) := of_head rfl (by decide)
theorem deverrDeviceNotInitialized : Statement (.deverrDeviceNotInitialized) := of_head rfl (by decide)
theorem deverrDeviceCalibrating : Statement (.deverrDeviceCalibrating) := of_head rfl (by decide)
theorem deverrMotorStuck : Statement (.deverrMotorStuck) := of_head rfl (by decide)
theorem deverrOperationFailed : Statement (.deverrOperationFailed) := of_head rfl (by decide)
theorem deverrSaveFailed : Statement (.deverrSaveFailed) := of_head rfl (by decide)
theorem lrc (bytes : List Byte) : Statement (.lrc bytes) := of_no_mask rfl
theorem chkOk : Statement (.chkOk) := of_no_mask rfl
theorem encode (dest cmd : Byte) (payload : List Byte) : Statement (.encode dest cmd payload) := of_no_mask rfl
theorem pack (shape : List FieldType) (args : List Arg) : Statement (.pack shape args) := of_no_mask rfl
theorem unpack (shape : List FieldType) : Statement (.unpack shape) := of_no_mask rfl

end Sys2Proof.Laws.HeadByteInRow
end

