-- ==== Sys2Proof/Laws/Receive.lean ====
section
/-! SUPPORT. What a `POLL` on a pending frame answers, check by check (43_transaction.md R155 to R161); which inputs a step
takes; that no instruction touches the other inputs. -/

namespace Sys2Proof.Machine

/-! ### The checks of a completion, in their order -/

theorem poll_pending {s : State} {p : List Byte} {now : U32} (he : pollEnabled s now = true) (hr : s.frameReady = true)
    (hp : memRead s.rxPayload 0 s.rxLen.toNat = some p) :
    execPoll now s =
      if chkOk s p = false then .next (s.raiseRecv .checksumMismatch)
      else if errBit s.rxCmd then .next s.errorArm
      else s.matchResponse p := by
  unfold execPoll State.complete
  rw [if_pos he, if_pos hr]
  simp only [hp]

theorem poll_good {s : State} {p : List Byte} {now : U32} (hn : pollEnabled s now = true) (h : goodFramePending s p) :
    execPoll now s = if errBit s.rxCmd then .next s.errorArm else s.matchResponse p := by
  rw [poll_pending hn h.2.2.1 h.2.2.2.1, if_neg (by simp [h.2.2.2.2])]

theorem poll_matches {s : State} {p : List Byte} {now : U32} (hn : pollEnabled s now = true) (h : goodFramePending s p)
    (he : s.rxCmd.getLsbD 7 = false) :
    execPoll now s = s.matchResponse p := by
  have he' : errBit s.rxCmd = false := he
  rw [poll_good hn h, he', if_neg Bool.false_ne_true]

theorem matchResponse_address {s : State} {p : List Byte} (h1 : s.rxSrc ≠ s.tDest) (h2 : s.tDest ≠ s.cons.broadcastAddr) :
    s.matchResponse p = .next (s.clearReady.raiseRecv .unmatchedAddress) := by
  unfold State.matchResponse
  rw [if_pos ⟨h1, h2⟩]

theorem matchResponse_command {s : State} {p : List Byte} (h1 : s.rxSrc = s.tDest ∨ s.tDest = s.cons.broadcastAddr)
    (h2 : s.rxCmd ≠ s.tCmd) : s.matchResponse p = .next (s.clearReady.raiseRecv .unmatchedCommand) := by
  unfold State.matchResponse
  rw [if_neg (by tauto), if_pos h2]

theorem matchResponse_buffer {s : State} {p : List Byte} (h1 : s.rxSrc = s.tDest ∨ s.tDest = s.cons.broadcastAddr)
    (h2 : s.rxCmd = s.tCmd) (h3 : s.tHasBuf = true) (h4 : s.tCap.toNat < s.rxLen.toNat) :
    s.matchResponse p = .next (s.clearReady.raiseRecv .outputBufferTooSmall) := by
  unfold State.matchResponse
  rw [if_neg (by tauto), if_neg (by simp [h2]), if_pos ⟨h3, h4⟩]

theorem matchResponse_accepted {s : State} {p : List Byte} (h : responseAccepted s) : s.matchResponse p = s.successArm p := by
  obtain ⟨-, h1, h2, h3⟩ := h
  unfold State.matchResponse
  rw [if_neg (by tauto), if_neg (by simp [h2]), if_neg (by rintro ⟨a, b⟩; have := h3 a; omega)]

theorem poll_accepted {s : State} {p : List Byte} {now : U32} (hn : pollEnabled s now = true) (h : goodFramePending s p)
    (ha : responseAccepted s) :
    execPoll now s = s.successArm p := by
  rw [poll_matches hn h ha.1, matchResponse_accepted ha]

/-- The end of a `CAT` whose response `r` has been delivered. -/
theorem finishCat_eq {s : State} {d : Descriptor} {r : List Byte} (hd : lookupDescriptor s.cons s.tDesc = some d)
    (hr : memRead s.respBuf 0 s.respLen.toNat = some r) :
    s.finishCat =
      match catOutcome d s.tArg0 s.tMotorCap r with
      | .error x => .next (s.raiseRecv x)
      | .ok out => .next ({ s with catOut := some out }.raiseRecv .success) := by
  unfold State.finishCat
  simp only [hd, hr]
  all_goals rfl

/-- The first byte of what `MemRead` gives is the byte at the index. -/
theorem memRead_first {m : Memory} {i n : Nat} {b : Byte} {r : List Byte} (h : memRead m i n = some (b :: r)) :
    m.read i = some b := by
  cases n with
  | zero => cases h
  | succ n =>
    simp only [memRead] at h
    split at h
    · rename_i b' r' hb _
      cases h
      exact hb
    · cases h

/-! ### Which input a step takes -/

/-- No instruction writes the inputs at the ports. -/
theorem exec_inbox {i : Instr} {s t : State} (h : exec i s = .next t) : t.inbox = s.inbox := by
  cases exec_effect h <;> try rfl
  · rename_i ht
    unfold State.feedDataByte at ht
    split at ht <;> cases ht
    rfl
  · unfold State.feedChkByte
    dsimp only
    split <;> rfl
  · unfold State.deliver
    split <;> rfl

/-- The held inputs before the one taken stay in front of those after it. -/
theorem firstTaken_append {s : State} {before : List Input} {e : Input} {after : List Input}
    (hb : ∀ x ∈ before, held s x = true) (he : held s e = false) :
    firstTaken s (before ++ e :: after) = some (e, before ++ after) := by
  induction before with
  | nil => simp [firstTaken, he]
  | cons a l ih => simp [firstTaken, hb a (by simp), ih fun x hx => hb x (by simp [hx])]

/-- A held input stays. -/
theorem firstTaken_held {s : State} {l r : List Input} {x e : Input} (h : firstTaken s l = some (x, r)) (he : e ∈ l)
    (hh : held s e = true) : e ∈ r := by
  induction l generalizing r with
  | nil => simp at he
  | cons a l ih =>
    unfold firstTaken at h
    split at h
    · split at h
      · rename_i y rest hy
        cases h
        rcases List.mem_cons.1 he with rfl | he
        · simp
        · simp [ih hy he]
      · cases h
    · cases h
      rcases List.mem_cons.1 he with rfl | he
      · contradiction
      · exact he

end Sys2Proof.Machine
end

