-- ==== Sys2Proof/Tests/Slice0.lean ====
section
/-! SUPPORT. The author's tests. Expected results are the spec's: the vectors of 95_test_vectors.md, the tables of 30_encoding.md
and 42_frame_decoder.md, or hand calculation from a rule named beside the test. -/

namespace Sys2Proof.Tests

open Sys2Proof.Machine

/-! ### Well-formedness: an ill-formed term for each check -/

/-- A payload of 256 bytes has no count byte (`n: 0..255`, 30_encoding.md R80). -/
def tooLong : List Byte := List.replicate 256 0

theorem replicate_not_countable {α : Type} (a : α) : countable (List.replicate 256 a) = false :=
  decide_eq_false (by rw [List.length_replicate]; decide)

theorem tooLong_not_countable : countable tooLong = false := replicate_not_countable 0

theorem test_illformed_send : (Instr.send 2 0 tooLong).wf = false := by simp [Instr.wf, tooLong_not_countable]
theorem test_illformed_xfer : (Instr.xfer 2 0 tooLong true 2).wf = false := by simp [Instr.wf, tooLong_not_countable]
theorem test_illformed_cat : (Instr.cat 0 2 0 (List.replicate 256 (.num 0))).wf = false := by
  simp only [Instr.wf, replicate_not_countable, Bool.false_and]
theorem test_illformed_cat_bytes : (Instr.cat 1 2 0 [.bytes tooLong]).wf = false := by simp [Instr.wf, Arg.wf, tooLong_not_countable]
theorem test_illformed_custom : (Instr.custom 2 tooLong).wf = false := by simp [Instr.wf, tooLong_not_countable]
theorem test_illformed_encode : (Instr.encode 2 0 tooLong).wf = false := by simp [Instr.wf, tooLong_not_countable]
theorem test_illformed_pack_shape : (Instr.pack (List.replicate 256 .u8) []).wf = false := by
  simp only [Instr.wf, replicate_not_countable, Bool.false_and]
theorem test_illformed_pack_field : (Instr.pack [.bytes 256] []).wf = false := by decide
theorem test_illformed_pack_args : (Instr.pack [] (List.replicate 256 (.num 0))).wf = false := by
  simp only [Instr.wf, replicate_not_countable, Bool.false_and, Bool.and_false]
theorem test_illformed_pack_arg : (Instr.pack [] [.bytes tooLong]).wf = false := by simp [Instr.wf, Arg.wf, tooLong_not_countable]
theorem test_illformed_unpack_shape : (Instr.unpack (List.replicate 256 .u8)).wf = false := by
  simp only [Instr.wf, replicate_not_countable, Bool.false_and]
theorem test_illformed_unpack_field : (Instr.unpack [.bytes 256]).wf = false := by decide
theorem test_illformed_flags_arg : (Instr.cat 0 2 0 [.flags (List.replicate 256 true)]).wf = false := by
  simp only [Instr.wf, List.all_cons, Arg.wf, replicate_not_countable, Bool.false_and, Bool.and_false]

/-- A flag field of no byte, of 256, with a flag outside its bytes, with two flags at one bit (30_encoding.md R66, log 44). -/
theorem test_illformed_flag_fields :
    (FieldType.flags 0 []).wf = false ∧ (FieldType.flags 256 [0]).wf = false ∧ (FieldType.flags 1 [8]).wf = false ∧
    (FieldType.flags 1 [3, 3]).wf = false ∧ (FieldType.flags 1 [3, 7]).wf = true := by decide

/-- 256 flags have no count byte, though they stand at bits of their own. -/
theorem test_illformed_flag_count : (FieldType.flags 255 (List.range 256)).wf = false := by
  have : countable (List.range 256) = false := decide_eq_false (by rw [List.length_range]; decide)
  simp only [FieldType.wf, this, Bool.and_false, Bool.false_and]

/-- The conditions of the dispatch rows (42_frame_decoder.md R121). -/
theorem test_illformed_feed_rows :
    (Instr.feedSync0Miss 0x55).wf = false ∧ (Instr.feedSync1Miss 0xAA).wf = false ∧ (Instr.feedLenAccept 0x00).wf = false ∧
    (Instr.feedLenAccept 0x41).wf = false ∧ (Instr.feedLenOver 0x40).wf = false := by decide

/-- The bounds of the command id ranges (30_encoding.md R70), the error bit (R72). -/
theorem test_illformed_command_ids :
    (Instr.errorResponse 0x7F).wf = false ∧
    (Instr.classGet 0x00 2 [] false 0).wf = false ∧ (Instr.classGet 0x20 2 [] false 0).wf = false ∧
    (Instr.classAuxGet20 0x24 2 [] false 0).wf = false ∧ (Instr.classAuxGet24 0x26 2 [] false 0).wf = false ∧
    (Instr.unassigned26 0x40 2 [] false 0).wf = false ∧ (Instr.classSet40 0x50 2 [] false 0).wf = false ∧
    (Instr.classSet50 0x54 2 [] false 0).wf = false ∧ (Instr.unassigned55 0x5F 2 [] false 0).wf = false ∧
    (Instr.classAuxSet60 0x64 2 [] false 0).wf = false ∧ (Instr.unassigned65 0x80 2 [] false 0).wf = false := by decide

theorem test_illformed_class_payloads :
    (Instr.classGet 1 2 tooLong false 0).wf = false ∧ (Instr.classAuxGet20 0x20 2 tooLong false 0).wf = false ∧
    (Instr.classAuxGet24 0x24 2 tooLong false 0).wf = false ∧ (Instr.unassigned26 0x26 2 tooLong false 0).wf = false ∧
    (Instr.classSet40 0x40 2 tooLong false 0).wf = false ∧ (Instr.classSet50 0x50 2 tooLong false 0).wf = false ∧
    (Instr.classSet54 2 tooLong false 0).wf = false ∧ (Instr.unassigned55 0x55 2 tooLong false 0).wf = false ∧
    (Instr.classAuxSet60 0x60 2 tooLong false 0).wf = false ∧ (Instr.classAuxSet64 2 tooLong false 0).wf = false ∧
    (Instr.unassigned65 0x65 2 tooLong false 0).wf = false := by
  simp [Instr.wf, tooLong_not_countable]

/-! ### Decoding: a word written out from the spec's encoding, for every constructor -/

/-- Operation codes 0 to 4 (30_encoding.md R80), then the operands in the layout of log 25. -/
theorem test_decode_send : decode .command [0x00, 0x02, 0x40, 2, 0x11, 0x22] = .ok (.send 0x02 0x40 [0x11, 0x22], []) := rfl
theorem test_decode_recv :
    decode .command [0x01, 0x02, 0x00, 100, 0, 0, 0, 1, 2, 0xE8, 0x03, 0, 0] = .ok (.recv 0x02 0x00 100 true 2 1000, []) := rfl
theorem test_decode_xfer : decode .command [0x02, 0x02, 0x00, 0, 1, 2] = .ok (.xfer 0x02 0x00 [] true 2, []) := rfl
theorem test_decode_setTimeout : decode .command [0x03, 0xF4, 0x01, 0, 0] = .ok (.setTimeout 500, []) := rfl
theorem test_decode_cat : decode .command [0x04, 2, 0x02, 0, 1, 0, 3, 0, 0, 0] = .ok (.cat 2 0x02 0 [.num 3], []) := rfl
theorem test_decode_cat_bytes : decode .command [0x04, 1, 0x02, 0, 1, 1, 2, 0x55, 0xAA] = .ok (.cat 1 0x02 0 [.bytes [0x55, 0xAA]], []) := rfl
theorem test_decode_reserved :
    decode .command [5] = .ok (.reservedOp5, []) ∧ decode .command [6] = .ok (.reservedOp6, []) ∧
    decode .command [7] = .ok (.reservedOp7, []) := ⟨rfl, rfl, rfl⟩
theorem test_decode_events :
    decode .receive [0x55] = .ok (.feed 0x55, []) ∧ decode .transmit [1, 0x88, 0x13, 0, 0] = .ok (.txdone true 5000, []) ∧
    decode .poll [0x8B, 0x13, 0, 0] = .ok (.poll 5003, []) ∧ decode .reset [] = .ok (.reset, []) := ⟨rfl, rfl, rfl, rfl⟩

/-- The transition table (42_frame_decoder.md R121). -/
theorem test_decode_feed_rows :
    decode (.feedRow .sync0) [0x55] = .ok (.feedSync0Hit, []) ∧
    decode (.feedRow .sync0) [0xAA] = .ok (.feedSync0Miss 0xAA, []) ∧
    decode (.feedRow .sync1) [0xAA] = .ok (.feedSync1Hit, []) ∧
    decode (.feedRow .sync1) [0x55] = .ok (.feedSync1Miss 0x55, []) ∧
    decode (.feedRow .dest) [0x01] = .ok (.feedDest 0x01, []) ∧
    decode (.feedRow .src) [0x02] = .ok (.feedSrc 0x02, []) ∧
    decode (.feedRow .cmd) [0x00] = .ok (.feedCmd 0x00, []) ∧
    decode (.feedRow .len) [0x00] = .ok (.feedLenZero, []) ∧
    decode (.feedRow .len) [0x40] = .ok (.feedLenAccept 0x40, []) ∧
    decode (.feedRow .len) [0x41] = .ok (.feedLenOver 0x41, []) ∧
    decode (.feedRow .data) [0x05] = .ok (.feedData 0x05, []) ∧
    decode (.feedRow .chk) [0x07] = .ok (.feedChk 0x07, []) :=
  ⟨rfl, rfl, rfl, rfl, rfl, rfl, rfl, rfl, rfl, rfl, rfl, rfl⟩

/-- The ids fixed individually and the error bit (30_encoding.md R71, R72), with the operands of log 25. -/
theorem test_decode_fixed_ids :
    decode .commandId [0x00, 0x02] = .ok (.getProtocolVersion 0x02, []) ∧
    decode .commandId [0x5F, 0x02, 2, 0x55, 0xAA] = .ok (.custom 0x02 [0x55, 0xAA], []) ∧
    decode .commandId [0x80] = .ok (.errorResponse 0x80, []) ∧
    decode .commandId [0xFF] = .ok (.errorResponse 0xFF, []) := ⟨rfl, rfl, rfl, rfl⟩

/-- The command id ranges at their bounds (30_encoding.md R70). -/
theorem test_decode_class_ids :
    decode .commandId [0x01, 2, 0, 1, 8] = .ok (.classGet 0x01 2 [] true 8, []) ∧
    decode .commandId [0x1F, 2, 0, 1, 8] = .ok (.classGet 0x1F 2 [] true 8, []) ∧
    decode .commandId [0x23, 2, 0, 1, 8] = .ok (.classAuxGet20 0x23 2 [] true 8, []) ∧
    decode .commandId [0x24, 2, 0, 1, 8] = .ok (.classAuxGet24 0x24 2 [] true 8, []) ∧
    decode .commandId [0x3F, 2, 0, 1, 8] = .ok (.unassigned26 0x3F 2 [] true 8, []) ∧
    decode .commandId [0x4F, 2, 1, 9, 0, 0] = .ok (.classSet40 0x4F 2 [9] false 0, []) ∧
    decode .commandId [0x53, 2, 1, 9, 0, 0] = .ok (.classSet50 0x53 2 [9] false 0, []) ∧
    decode .commandId [0x54, 2, 1, 9, 0, 0] = .ok (.classSet54 2 [9] false 0, []) ∧
    decode .commandId [0x5E, 2, 1, 9, 0, 0] = .ok (.unassigned55 0x5E 2 [9] false 0, []) ∧
    decode .commandId [0x60, 2, 1, 9, 0, 0] = .ok (.classAuxSet60 0x60 2 [9] false 0, []) ∧
    decode .commandId [0x64, 2, 1, 9, 0, 0] = .ok (.classAuxSet64 2 [9] false 0, []) ∧
    decode .commandId [0x65, 2, 1, 9, 0, 0] = .ok (.unassigned65 0x65 2 [9] false 0, []) :=
  ⟨rfl, rfl, rfl, rfl, rfl, rfl, rfl, rfl, rfl, rfl, rfl, rfl⟩

/-- The device error codes (95_test_vectors.md S5). -/
theorem test_decode_device_errors :
    decode .deviceError [0x01] = .ok (.deverrWrongChecksum, []) ∧ decode .deviceError [0x11] = .ok (.deverrInvalidCommand, []) ∧
    decode .deviceError [0x12] = .ok (.deverrInvalidByteCount, []) ∧ decode .deviceError [0x13] = .ok (.deverrInvalidData, []) ∧
    decode .deviceError [0x21] = .ok (.deverrDeviceNotInitialized, []) ∧
    decode .deviceError [0x22] = .ok (.deverrDeviceCalibrating, []) ∧ decode .deviceError [0x23] = .ok (.deverrMotorStuck, []) ∧
    decode .deviceError [0x31] = .ok (.deverrOperationFailed, []) ∧ decode .deviceError [0x32] = .ok (.deverrSaveFailed, []) :=
  ⟨rfl, rfl, rfl, rfl, rfl, rfl, rfl, rfl, rfl⟩

/-- The functions, in the layout of log 25. -/
theorem test_decode_functions :
    decode (.function .lrc) [0x55, 0xAA] = .ok (.lrc [0x55, 0xAA], []) ∧ decode (.function .chkOk) [] = .ok (.chkOk, []) ∧
    decode (.function .encode) [0x02, 0x00, 0] = .ok (.encode 0x02 0x00 [], []) ∧
    decode (.function .pack) [1, 1, 1, 0, 0x34, 0x12, 0, 0] = .ok (.pack [.u16le] [.num 0x1234], []) ∧
    decode (.function .unpack) [2, 0, 2] = .ok (.unpack [.u8, .i16le], []) := ⟨rfl, rfl, rfl, rfl, rfl⟩

/-- Flag fields and flag arguments, in the layout of log 25: size, counted positions of 16 bits; counted booleans. -/
theorem test_decode_flags :
    decode (.function .unpack) [1, 6, 2, 2, 9, 0, 0, 0] = .ok (.unpack [.flags 2 [9, 0]], []) ∧
    decode (.function .pack) [1, 6, 1, 1, 7, 0, 1, 2, 1, 1] = .ok (.pack [.flags 1 [7]] [.flags [true]], []) := ⟨rfl, rfl⟩

/-- Each rejection by name. -/
theorem test_decode_rejects :
    decode .command [] = .error .truncated ∧ decode .command [0x08] = .error .badOpByte ∧
    decode .transmit [2, 0, 0, 0, 0] = .error .badBool ∧ decode .command [4, 0, 2, 0, 1, 3] = .error .badArgTag ∧
    decode (.function .unpack) [1, 7] = .error .badFieldTag ∧
    decode (.function .unpack) [1, 6, 1, 1, 8, 0] = .error .badFlagField ∧
    decode .deviceError [0x02] = .error .noDeviceErrorRow ∧ decode .delay [] = .error .noInstruction :=
  ⟨rfl, rfl, rfl, rfl, rfl, rfl, rfl, rfl⟩

/-- Words of the opcode table as the host numbers them. -/
theorem test_table_words :
    decodeTableWord 3 1 = some (.recv 0 0 0 false 0 0) ∧ decodeTableWord 8 0x21 = some .deverrDeviceNotInitialized ∧
    decodeTableWord 8 0x24 = some (.classAuxGet24 0x24 0 [] false 0) ∧ decodeTableWord 8 0x80 = some (.errorResponse 0x80) := by
  decide

/-! ### Small states -/

/-- A frame with payload `p` pending while a `RECV(02, 00, 100, has_buf, cap 2)` waits. -/
def pending (src cmd chk : Byte) (p : List Byte) : State :=
  { State.reset with
    tstate := .wait, tKind := .recv, tDest := 0x02, tCmd := 0x00, tTimeout := 100, tHasBuf := true, tCap := 2
    frameReady := true, rxDest := 0x01, rxSrc := src, rxCmd := cmd, rxLen := countByte p.length, rxPayload := memWrite [] 0 p
    rxChk := chk }

/-- The version reply of 95_test_vectors.md S2 with minor 5, major 3. -/
def goodReply : State := pending 0x02 0x00 0x07 [0x05, 0x03]

/-- The device error of S3. -/
def errorReply : State := pending 0x02 0x80 0xA3 [0x21]

/-- V-TX-9: a wrong checksum. -/
def badReply : State := pending 0x02 0x00 0x06 [0x05, 0x03]

/-- A `CAT` of a descriptor waiting on a pending frame. -/
def catPending (desc cmd cap chk arg0 motorCap : Byte) (p : List Byte) : State :=
  { pending 0x02 cmd chk p with
    tKind := .cat, tCmd := cmd, tCap := cap, tDesc := desc, tArg0 := arg0, tMotorCap := motorCap
    cons := { Config.resetConstruction with
      moreDescriptors := [⟨0x0B, [.u8], .fields [.u8, .i16le], 3, true⟩, ⟨0x0A, [], .units false false, 64, false⟩] } }

/-- An instance with other capabilities. -/
def capable (send now delay : Bool) : State :=
  { State.reset with cons := { Config.resetConstruction with capSend := send, capNow := now, capDelay := delay } }

/-- The decoder in a state, no frame pending. -/
def decoding (d : DState) : State := { State.reset with dstate := d }

/-- A transmit in progress. -/
def transmitting (k : Kind) : State := { State.reset with tstate := .tx, tKind := k, frameReady := true }

/-- An instance on a bus (V-ENC-2, V-DEC-7). -/
def onBus : State := { State.reset with cons := { Config.resetConstruction with proto := .bus }, dstate := .dest }

/-- The state a step answers, if it does. -/
def nextOf : Out → Option State
  | .next t => some t
  | .fault _ => none
  | .refused _ => none

/-- What a next state shows of the end of an operation. -/
def ended (o : Out) : Option (TState × Result × Bool) := (nextOf o).map fun t => (t.tstate, t.result, t.frameReady)

/-! ### The checksum and the encoder (95_test_vectors.md 2.1, 2.2) -/

theorem test_lrc : lrc [0x01, 0x02, 0x00, 0x02, 0x05, 0x03] = 0x07 ∧ lrc [0x01, 0x02, 0x80, 0x01, 0x21] = 0xA3 := by decide
theorem test_chkOk : (nextOf (exec .chkOk goodReply)).map State.fnOut = some (some (.chkOk true)) := by decide
theorem test_chkOk_no_frame : exec .chkOk { goodReply with frameReady := false } = .next { goodReply with frameReady := false } := rfl
theorem test_chkOk_bad : (nextOf (exec .chkOk badReply)).map State.fnOut = some (some (.chkOk false)) := by decide
theorem test_encode_uart :
    encodeFrame State.reset.cons 0x02 0x45 [0x03, 0x34, 0x12] =
      some [0x55, 0xAA, 0x02, 0x01, 0x45, 0x03, 0x03, 0x34, 0x12, 0x60] := by decide
theorem test_encode_bus :
    encodeFrame onBus.cons 0x02 0x5F [0x55, 0xAA] = some [0x02, 0x01, 0x5F, 0x02, 0x55, 0xAA, 0xA1] := by decide

/-! ### The decoder (95_test_vectors.md 2.3) -/

theorem test_feed_sync : (nextOf (exec (.feed 0x55) State.reset)).map State.dstate = some .sync1 := by decide
theorem test_feed_55_55 : (nextOf (exec (.feed 0x55) (decoding .sync1))).map State.dstate = some .sync0 := by decide
theorem test_feed_len_64 :
    (nextOf (exec (.feed 0x40) (decoding .len))).map (fun t => (t.dstate, t.rxLen, t.dRemain)) = some (.data, 0x40, 64) := by
  decide
theorem test_feed_len_65 : (nextOf (exec (.feed 0x41) (decoding .len))).map State.dstate = some .sync0 := by decide
theorem test_feed_len_65_bus :
    (nextOf (exec (.feed 0x50) { onBus with dstate := .len })).map State.dstate = some .dest := by decide
theorem test_feed_data_last :
    (nextOf (exec (.feed 0x03) { decoding .data with rxLen := 2, dRemain := 1, rxPayload := [(0, 0x05)] })).map
      (fun t => (t.dstate, t.dRemain, t.rxPayload)) = some (.chk, 0, [(0, 0x05), (1, 0x03)]) := by decide
theorem test_feed_chk_foreign :
    (nextOf (exec (.feed 0x99) { decoding .chk with rxDest := 0x03 })).map (fun t => (t.dstate, t.frameReady, t.rxChk)) =
      some (.sync0, false, 0x99) := by decide
theorem test_feed_chk_local :
    (nextOf (exec (.feed 0x06) { decoding .chk with rxDest := 0x01 })).map (fun t => (t.dstate, t.frameReady, t.rxChk)) =
      some (.sync0, true, 0x06) := by decide

/-! ### The sequencer (95_test_vectors.md 2.4) -/

theorem test_send_order :
    ended (exec (.send 0x02 0x00 (List.replicate 64 0)) (capable false false true)) = some (.idle, .invalidContext, false) := by
  decide
theorem test_send_request :
    (nextOf (exec (.send 0x02 0x00 []) State.reset)).map (fun t => (t.tstate, t.txDest, t.txLen, t.txBuf.map Prod.snd)) =
      some (.tx, 0x02, 7, [0x55, 0xAA, 0x02, 0x01, 0x00, 0x00, 0x03]) := by decide
theorem test_txdone_fails :
    ended (exec (.txdone false 0) (transmitting .send)) = some (.idle, .remoteTransportError, false) := by decide
theorem test_txdone_receives :
    (nextOf (exec (.txdone true 5000) (transmitting .cat))).map (fun t => (t.tstate, t.tTimeout, t.tStart, t.frameReady)) =
      some (.wait, 100, 5000, false) := by decide
theorem test_poll_unmatched_command :
    ended (exec (.poll 0) (pending 0x02 0x01 0x02 [])) = some (.idle, .unmatchedCommand, false) := by decide
theorem test_poll_unmatched_address :
    ended (exec (.poll 0) (pending 0x03 0x00 0x06 [0x05, 0x03])) = some (.idle, .unmatchedAddress, false) := by decide
theorem test_poll_broadcast :
    (nextOf (exec (.poll 0) { pending 0x03 0x00 0x06 [0x05, 0x03] with tDest := 0xFF })).map
      (fun t => (t.result, t.hostResponse)) = some (.success, some [0x05, 0x03]) := by decide
theorem test_poll_small_buffer :
    ended (exec (.poll 0) { goodReply with tCap := 1 }) = some (.idle, .outputBufferTooSmall, false) := by decide
theorem test_poll_bad_checksum : ended (exec (.poll 0) badReply) = some (.idle, .checksumMismatch, true) := by decide
theorem test_poll_error_after_checksum :
    ended (exec (.poll 0) (pending 0x02 0x80 0x5C [0x21])) = some (.idle, .checksumMismatch, true) := by decide
theorem test_poll_error_before_address :
    (nextOf (exec (.poll 0) (pending 0x03 0x80 0xA0 [0x23]))).map (fun t => (t.result, t.hostRemoteErr)) =
      some (.handError, some 0x23) := by decide
theorem test_deverr_row :
    (nextOf (exec .deverrDeviceNotInitialized errorReply)).map (fun t => (t.result, t.hostRemoteErr)) =
      some (.handError, some 0x21) := by decide
theorem test_poll_wrap :
    ended (exec (.poll 0x10) { State.reset with tstate := .wait, tStart := 0xFFFFFFF0, tTimeout := 50 }) =
      some (.wait, .success, false) ∧
    ended (exec (.poll 0x23) { State.reset with tstate := .wait, tStart := 0xFFFFFFF0, tTimeout := 50 }) =
      some (.idle, .timeout, false) := by decide

/-- The iterations of 43_transaction.md R151: pump with the start, 1 ms asked for by a poll that goes on, nothing while the delay
runs, pump with its end. -/
theorem test_recv_pumps :
    (nextOf (exec (.recv 2 0 50 true 2 1000) State.reset)).map (fun t => (t.tstate, t.strobes.pump, t.delay)) =
      some (.wait, true, .idle) := by decide
theorem test_poll_asks_for_delay :
    (nextOf (exec (.poll 1050) { State.reset with tstate := .wait, tStart := 1000, tTimeout := 50 })).map
      (fun t => (t.strobes, t.delay)) = some (⟨false, false, some 1, false⟩, .running 1050) := by decide
theorem test_poll_while_delay_runs : exec (.poll 9999) { goodReply with delay := .running 0 } = .next { goodReply with delay := .running 0 } := rfl
theorem test_step_delay_over :
    (nextOf (step { goodReply with delay := .running 7, inbox := [⟨.delay, []⟩] })).map (fun t => (t.strobes.pump, t.delay, t.inbox)) =
      some (true, .ended 7, []) := by decide
theorem test_poll_one_ms_later :
    ended (exec (.poll 7) { goodReply with delay := .ended 7 }) = some (.wait, .success, true) ∧
    ended (exec (.poll 8) { goodReply with delay := .ended 7 }) = some (.idle, .success, false) := by decide

/-! ### The marshaller (95_test_vectors.md 2.5) -/

theorem test_pack : pack 0 [.u8, .u16le] [.num 0x03, .num 0x1234] = [0x03, 0x34, 0x12] := by decide
theorem test_pack_signed : pack 0 [.i16le] [.num (-2)] = [0xFE, 0xFF] := by decide
/-- Flags at the bits 0, 2 and 7 of a byte whose other bits carry cleared flags: 0x85; in reverse order of the bits 0xA1 (log 44). -/
theorem test_pack_flags :
    pack 0 [.flags 1 [0, 1, 2, 3, 4, 5, 6, 7]] [.flags [true, false, true, false, false, false, false, true]] = [0x85] ∧
    pack 0 [.flags 1 [7, 6, 5, 4, 3, 2, 1, 0]] [.flags [true, false, true, false, false, false, false, true]] = [0xA1] := by decide
theorem test_unpack_flags : unpack [.flags 2 [15, 0, 9]] [0x01, 0x80] = some [.flags [true, true, false]] := by decide
/-- Arguments that fit draw no free value; one byte short of `bytes(2)` draws one (log 15). -/
theorem test_pack_draws : packDraws [.u8, .bytes 2, .rest] [.num 3, .bytes [7, 8], .bytes []] = 0 ∧ packDraws [.bytes 2] [.bytes [7]] = 1 := by
  decide
/-- A layout with the flag of `getForce` at bit 3 of byte 1 of the request (93_implementation_defined.md U17: the host's own). -/
theorem test_custom_layout :
    customSelects ⟨1, 1, #v[7, 6, 5, 4, 2, 1, 3, 0], #v[[], [], [], [], [], [], [], []], #v[[], [], [], [], [], [], [], []]⟩ [0x00, 0x08]
      .getForce = some true := by decide
/-- D17: the codes of `State.reset` tell the results apart. -/
theorem test_local_codes : State.reset.cons.codesDistinct = true ∧ resultCode State.reset.cons .sizeTooBig = 12 := by decide
theorem test_unpack_signed :
    unpack [.i16le] [0x00, 0x80] = some [.num (-32768)] ∧ unpack [.u16le] [0x00, 0x80] = some [.num 32768] := by decide
theorem test_cat_echo :
    (nextOf (exec (.poll 0) (catPending 2 0x0B 3 0x09 3 0 [0x03, 0xFE, 0xFF]))).map (fun t => (t.result, t.catOut)) =
      some (.success, some (.values [.num 3, .num (-2)])) := by decide
theorem test_cat_wrong_echo :
    ended (exec (.poll 0) (catPending 2 0x0B 3 0x08 3 0 [0x02, 0xFE, 0xFF])) = some (.idle, .dataInvalid, false) := by decide

/-- The response of V-CAT-5 and V-CAT-6. -/
def sixUnits : List Byte :=
  [0x64, 0x00, 0x63, 0x00, 0xC8, 0x00, 0xC7, 0x00, 0x2C, 0x01, 0x2B, 0x01, 0x90, 0x01, 0x8F, 0x01, 0xF4, 0x01, 0xF3, 0x01, 0x58,
    0x02, 0x57, 0x02]

theorem test_cat_capacity :
    (nextOf (exec (.poll 0) (catPending 3 0x0A 64 0x09 0 4 sixUnits))).map (fun t => (t.result, t.catOut)) =
      some (.sizeTooBig, none) := by decide
theorem test_cat_units :
    (nextOf (exec (.poll 0) (catPending 3 0x0A 64 0x09 0 6 sixUnits))).map State.catOut =
      some (some (.units 6 [100, 200, 300, 400, 500, 600] [99, 199, 299, 399, 499, 599])) := by decide
theorem test_version_request :
    (nextOf (exec (.getProtocolVersion 0x02) State.reset)).map (fun t => (t.tKind, t.tCap, t.txBuf.map Prod.snd)) =
      some (.cat, 2, [0x55, 0xAA, 0x02, 0x01, 0x00, 0x00, 0x03]) := by decide

/-! ### A step -/

theorem test_step_fetches :
    (nextOf (step (State.reset.withFetchWord 3 3))).map (fun t => (t.tstate, t.cfgTimeoutMs, t.strobes.done, t.inbox)) =
      some (.idle, 0, true, []) := by decide
theorem test_step_refuses_undecodable :
    step { State.reset with inbox := [⟨.command, [0x09]⟩] } = .refused (.undecodable .badOpByte) := rfl
theorem test_step_waits : step State.reset = .next State.reset := rfl

/-! ### Witnesses: for each obligation with hypotheses, a state and operands that meet all of them, each clause at the bounds of its
range -/

theorem witness_DecodeOfEncodeIsTheInstruction :
    (Instr.send 0x02 0x00 []).wf = true ∧ (Instr.feedLenAccept 0x40).wf = true ∧ (Instr.feedLenOver 0x41).wf = true ∧
    (Instr.classGet 0x01 2 [] false 0).wf = true ∧ (Instr.unassigned65 0x7F 2 [] false 0).wf = true := by decide

theorem witness_DecodedInstructionsAreWellFormedAndAtTheirPort :
    decode .command [3, 100, 0, 0, 0, 9] = .ok (.setTimeout 100, [9]) := rfl

/-- A reserved operation is held, the poll behind it is taken. -/
theorem witness_StepRunsTheDecodedInput :
    ∃ (s : State) (before after : List Input) (e : Input) (i : Instr), s.inbox = before ++ e :: after ∧ before ≠ [] ∧
      (∀ x ∈ before, held s x = true) ∧ held s e = false ∧ e.decode = .ok i :=
  ⟨{ goodReply with inbox := [⟨.command, [5]⟩, ⟨.poll, [0, 0, 0, 0]⟩, ⟨.reset, []⟩] }, [⟨.command, [5]⟩], [⟨.reset, []⟩],
    ⟨.poll, [0, 0, 0, 0]⟩, .poll 0, rfl, by decide, by decide, by decide, rfl⟩

theorem witness_BusyCommandPortAcceptsNothing :
    ∃ (s t : State) (e : Input) (i : Instr), s.tstate ≠ .idle ∧ e ∈ s.inbox ∧ e.decode = .ok i ∧ isHostOp i = true ∧
      step s = .next t :=
  ⟨{ goodReply with inbox := [⟨.command, [3, 0, 0, 0, 0]⟩, ⟨.poll, [0, 0, 0, 0]⟩] }, _, ⟨.command, [3, 0, 0, 0, 0]⟩, .setTimeout 0,
    by decide, by decide, rfl, rfl, rfl⟩

theorem witness_InputsThatAreNeverOrNotYetEnabledTakeNoStep :
    { State.reset with inbox := [⟨.command, [5]⟩] }.inbox = [⟨.command, encode .reservedOp5⟩] ∧ State.reset.tstate ≠ .tx ∧
    goodReply.tstate ≠ .tx ∧ State.reset.tstate ≠ .wait ∧ (transmitting .send).tstate ≠ .wait := by decide

theorem witness_LrcIsTheBitwiseExclusiveOr : (0 < 8 ∧ 7 < 8) ∧ ([0x55, 0xAA] : List Byte).Perm [0xAA, 0x55] := by decide

theorem witness_ChkOkComparesTheRecomputedChecksum :
    memRead goodReply.rxPayload 0 goodReply.rxLen.toNat = some [0x05, 0x03] ∧
    goodReply.frameReady = true ∧ State.reset.frameReady = false := by decide

/-- One flip in the header (bit 0), one in the payload (bit 7), two in bit 4 (V-LRC-8, V-LRC-9). -/
theorem witness_SingleBitFlipsAreDetected :
    (0 < 8 ∧ 4 < 8 ∧ 7 < 8) ∧ chkOk goodReply [0x05, 0x03] = true ∧
    checkedBytes goodReply [0x05, 0x03] = [] ++ 0x01 :: [0x02, 0x00, 0x02, 0x05, 0x03, 0x07] ∧
    checkedBytes { goodReply with rxDest := 0x00 } [0x05, 0x03] =
      [] ++ (0x01 ^^^ (1#8 <<< 0)) :: [0x02, 0x00, 0x02, 0x05, 0x03, 0x07] ∧
    checkedBytes goodReply [0x05, 0x83] = ([0x01, 0x02, 0x00, 0x02, 0x05] : List Byte) ++ (0x03 ^^^ (1#8 <<< 7)) :: [0x07] ∧
    checkedBytes goodReply [0x05, 0x03] = ([0x01, 0x02, 0x00, 0x02] : List Byte) ++ 0x05 :: [] ++ 0x03 :: [0x07] ∧
    checkedBytes goodReply [0x15, 0x13] =
      ([0x01, 0x02, 0x00, 0x02] : List Byte) ++ (0x05 ^^^ (1#8 <<< 4)) :: [] ++ (0x03 ^^^ (1#8 <<< 4)) :: [0x07] := by decide

theorem witness_EncoderBuildsTheFrameOrRefuses :
    (List.replicate 63 (0 : Byte)).length < 64 ∧ 64 ≤ (List.replicate 64 (0 : Byte)).length := by simp

theorem witness_EncodedFramesRoundTripThroughTheDecoder :
    ∃ (a : Construction) (s : State) (dest other : Byte) (p : List Byte), p.length < 64 ∧ p ≠ [] ∧ a.proto = s.cons.proto ∧
      s.dstate = s.init ∧ s.frameReady = false ∧ dest = s.cons.localAddr ∧ other ≠ s.cons.localAddr ∧
      a.localAddr ≠ s.cons.localAddr :=
  ⟨{ Config.resetConstruction with localAddr := 2 }, State.reset, 1, 3, [5, 3], by decide⟩

theorem witness_FedBytesAreIgnoredWhileAFrameIsPending :
    isFeed (.feed 0x55) = true ∧ isFeed .feedSync0Hit = true ∧ goodReply.frameReady = true := by decide

theorem witness_FeedTakesTheDispatchRowItsStateSelects :
    (decoding .len).frameReady = false ∧ (Instr.feedLenOver 0x41).port = .feedRow .len ∧ State.reset.dstate ≠ .len := by decide

theorem witness_SyncSearchFindsTheTwoSyncBytes :
    (decoding .sync0).frameReady = false ∧ (decoding .sync0).dstate = .sync0 ∧ (0xAA : Byte) ≠ 0x55 ∧
    (decoding .sync1).frameReady = false ∧ (decoding .sync1).dstate = .sync1 ∧ (0x55 : Byte) ≠ 0xAA := by decide

theorem witness_HeaderBytesGoToTheirRegisters :
    (∀ d, (decoding d).frameReady = false) ∧ (decoding .dest).dstate = .dest ∧ (decoding .src).dstate = .src ∧
    (decoding .cmd).dstate = .cmd := ⟨fun _ => rfl, rfl, rfl, rfl⟩

theorem witness_ByteCountIsAcceptedUpToSixtyFour :
    (decoding .len).frameReady = false ∧ (decoding .len).dstate = .len ∧ 64 < (0x41 : Byte).toNat ∧ 64 < (0xFF : Byte).toNat ∧
    1 ≤ (0x01 : Byte).toNat ∧ (0x01 : Byte).toNat ≤ 64 ∧ 1 ≤ (0x40 : Byte).toNat ∧ (0x40 : Byte).toNat ≤ 64 := by decide

/-- The last byte of a payload of 64, and its first. -/
theorem witness_PayloadBytesAreStoredInArrivalOrder :
    ∀ n ∈ ([1, 64] : List U7),
      let s := { decoding .data with rxLen := 64, dRemain := n }
      s.frameReady = false ∧ s.dstate = .data ∧ 1 ≤ s.dRemain.toNat ∧ s.dRemain.toNat ≤ s.rxLen.toNat ∧ s.rxLen.toNat ≤ 64 := by
  decide

theorem witness_ChecksumByteAppliesTheAddressFilter :
    (decoding .chk).frameReady = false ∧ (decoding .chk).dstate = .chk := by decide

theorem witness_DecoderCannotHang :
    (let s := { decoding .data with rxLen := 64, dRemain := 64 };
      s.frameReady = false ∧ (s.dstate = .sync0 ∨ s.dstate = .sync1 → s.cons.proto = .uart) ∧
      (s.dstate = .data → 1 ≤ s.dRemain.toNat ∧ s.dRemain.toNat ≤ s.rxLen.toNat ∧ s.rxLen.toNat ≤ 64) ∧
      (List.replicate 69 (0 : Byte)).length = (if s.dstate = .sync0 then 71 else if s.dstate = .sync1 then 70 else 69)) ∧
    (let s := decoding .sync1;
      s.frameReady = false ∧ (s.dstate = .sync0 ∨ s.dstate = .sync1 → s.cons.proto = .uart) ∧ s.dstate ≠ .data ∧
      (List.replicate 70 (0 : Byte)).length = (if s.dstate = .sync0 then 71 else if s.dstate = .sync1 then 70 else 69)) :=
  ⟨⟨rfl, by decide, by decide, List.length_replicate⟩, rfl, by decide, by decide, List.length_replicate⟩

/-- A fed byte, a timeout, a reset. -/
theorem witness_DecodeStateChangesOnlyByFeedTimeoutAndReset :
    (∃ t, exec (.feed 0x55) State.reset = .next t ∧ t.dstate ≠ State.reset.dstate) ∧
    (∃ t, exec (.poll 200) { goodReply with frameReady := false, dstate := .data } = .next t ∧ t.dstate ≠ .data) ∧
    ∃ t, exec .reset (decoding .chk) = .next t ∧ t.dstate ≠ .chk :=
  ⟨⟨_, rfl, by decide⟩, ⟨_, rfl, by decide⟩, ⟨_, rfl, by decide⟩⟩

theorem witness_DecodeBufferIsWrittenOnlyByFeedWithNoFramePending :
    (∃ t, exec (.poll 0) goodReply = .next t) ∧ isFeed (.poll 0) = false ∧ Instr.poll 0 ≠ .reset ∧
    (∃ t, exec (.feed 0) goodReply = .next t) ∧ Instr.feed 0 ≠ .reset ∧ goodReply.frameReady = true :=
  ⟨⟨_, rfl⟩, rfl, by decide, ⟨_, rfl⟩, by decide, rfl⟩

theorem witness_FrameReadyIsSetByTheAddressFilterAndClearedByItsConsumers :
    (∃ t, exec (.feed 0) { decoding .chk with rxDest := 1 } = .next t ∧ t.frameReady = true) ∧
    (∃ t, exec (.poll 0) goodReply = .next t ∧ t.frameReady = false) ∧
    (∃ t, exec (.poll 0) badReply = .next t ∧ t.frameReady = true ∧ t.tstate = .idle) ∧
    (∃ t, exec (.txdone true 0) (transmitting .send) = .next t ∧ t.frameReady = false) ∧
    ∃ t, exec .reset goodReply = .next t ∧ t.frameReady = false :=
  ⟨⟨_, rfl, rfl⟩, ⟨_, rfl, rfl⟩, ⟨_, rfl, rfl, rfl⟩, ⟨_, rfl, rfl⟩, ⟨_, rfl, rfl⟩⟩

theorem witness_RemoteErrorIsWrittenOnlyByTheDeviceErrorArm :
    ∃ t, exec (.poll 0) errorReply = .next t ∧ Instr.poll 0 ≠ .reset ∧ t.remoteErr ≠ errorReply.remoteErr ∧
      errorReply.rxPayload.read 0 = some 0x21 := ⟨_, rfl, by decide, by decide, rfl⟩

theorem witness_ResponseBufferIsWrittenOnlyByAnAcceptedResponse :
    ∃ t, exec (.poll 0) goodReply = .next t ∧ Instr.poll 0 ≠ .reset ∧ t.respLen ≠ goodReply.respLen := ⟨_, rfl, by decide, by decide⟩

theorem witness_ConfigurationIsImmutableButForTheTimeout :
    State.reset.tstate = .idle ∧ ∃ t, exec (.setTimeout 7) State.reset = .next t ∧ t.cfgTimeoutMs ≠ State.reset.cfgTimeoutMs :=
  ⟨rfl, _, rfl, by decide⟩

theorem witness_LatchesAreConstantDuringAnOperation :
    (∃ t, exec (.txdone true 0) (transmitting .xfer) = .next t ∧ (transmitting .xfer).tstate ≠ .idle ∧ t.tstate ≠ .idle) ∧
    ∃ t, exec (.poll 0) { goodReply with frameReady := false } = .next t ∧ t.tstate ≠ .idle ∧
      ∀ ok now, Instr.poll 0 ≠ .txdone ok now :=
  ⟨⟨_, rfl, by decide, by decide⟩, ⟨_, rfl, by decide, by simp⟩⟩

theorem witness_TransmitRegistersAreWrittenOnlyByASend :
    ∃ t, exec (.send 2 0 []) State.reset = .next t ∧ Instr.send 2 0 [] ≠ .reset ∧ ¬ sameTransmit State.reset t :=
  ⟨_, rfl, by decide, fun h => absurd h.1 (by decide)⟩

theorem witness_AnOperationEndsExactlyWithAResult :
    ∃ t, exec (.poll 0) badReply = .next t ∧ badReply.tstate ≠ .idle ∧ t.tstate = .idle ∧ t.result ≠ badReply.result :=
  ⟨_, rfl, by decide, rfl, by decide⟩

/-! The invariant, and states that meet it: after reset, and with a frame pending while a `RECV` waits. -/

theorem reset_meets_invariant : State.reset.Inv := by
  constructor <;> simp [State.reset, State.construct, Config.resetConstruction, bufferOk, Memory.wf, initialDState]

theorem pending_meets_invariant (src cmd chk : Byte) {p : List Byte} (h : p.length ≤ 64) : (pending src cmd chk p).Inv := by
  have hl : (countByte p.length).toNat = p.length := toNat_countByte (by omega)
  refine ⟨bufferOk_memWrite reset_meets_invariant.rxBuffer h, reset_meets_invariant.txBuffer, reset_meets_invariant.respBuffer,
    by simp [pending, State.reset, State.construct, Config.resetConstruction, initialDState],
    by simp [pending, State.reset, State.construct, Config.resetConstruction, initialDState], fun _ => ⟨rfl, rfl, ?_, ?_⟩,
    by simp [pending, State.reset, State.construct, Config.resetConstruction], by simp [pending],
    fun _ => ⟨rfl, by simp [pending]⟩, by simp [pending], by simp [pending],
    by simp [pending, State.reset, State.construct]⟩
  · show (countByte p.length).toNat ≤ 64
    omega
  · show writtenTo (memWrite [] 0 p) (countByte p.length).toNat
    exact writtenTo_memWrite (by omega)

theorem witness_EveryStepKeepsTheInvariant :
    State.reset.Inv ∧ ∃ t, step (State.reset.withFetchWord 3 3) = .next t := ⟨reset_meets_invariant, _, rfl⟩

theorem witness_NoFaultFromAStateThatMeetsTheInvariant :
    goodReply.Inv ∧ isFeed (.feed 0) = true ∧ isCompletion (.poll 0) = true := ⟨pending_meets_invariant _ _ _ (by decide), rfl, rfl⟩

theorem witness_EveryOtherEndLeavesTheDecoderFree :
    goodReply.Inv ∧ goodReply.tstate = .wait ∧ ∃ t, exec (.poll 0) goodReply = .next t ∧ t.tstate = .idle ∧
      t.result ≠ .checksumMismatch := ⟨pending_meets_invariant _ _ _ (by decide), rfl, _, rfl, rfl, by decide⟩

/-! Sending. -/

theorem witness_SendFailsWithoutTransportOrWithALargePayload :
    (capable false true true).tstate = .idle ∧ (capable false true true).sendOpen = false ∧
    (capable false true true).cons.capSend = false ∧ State.reset.tstate = .idle ∧ State.reset.sendOpen = false ∧
    canSend State.reset ∧ 64 ≤ (List.replicate 64 (0 : Byte)).length ∧ (List.replicate 63 (0 : Byte)).length < 64 :=
  ⟨rfl, rfl, rfl, rfl, rfl, ⟨rfl, rfl, rfl⟩, by simp, by simp⟩

theorem witness_SendHandsTheFrameToTheTransmitter :
    State.reset.tstate = .idle ∧ State.reset.sendOpen = false ∧ canSend State.reset ∧ (List.replicate 63 (0 : Byte)).length < 64 :=
  ⟨rfl, rfl, ⟨rfl, rfl, rfl⟩, by simp⟩

theorem witness_StopsAreExactlyTheNamedOnes :
    { State.reset with sendOpen := true }.tstate = .idle ∧
    (∃ t, exec (.txdone true 0) (transmitting .send) = .next t ∧ (transmitting .send).sendOpen = false ∧ t.sendOpen = true) ∧
    lookupDescriptor State.reset.cons 2 = none ∧ lookupDescriptor State.reset.cons 1 ≠ none ∧
    isHostOp (.cat 1 2 0 []) = true ∧ isHostOp (.setTimeout 0) = true ∧ isHostOp (.send 2 0 []) = true :=
  ⟨rfl, ⟨_, rfl, rfl, rfl⟩, rfl, by decide, rfl, rfl, rfl⟩

theorem witness_TransactionsHandTheirFrameToTheTransmitter :
    transactionOf (.classSet54 2 [7] true 8) = some (2, 0x54, [7], true, 8) ∧ (Instr.classSet54 2 [7] true 8).wf = true ∧
    transactionOf (.xfer 2 0 [] true 2) = some (2, 0, [], true, 2) ∧ (Instr.xfer 2 0 [] true 2).wf = true ∧
    State.reset.tstate = .idle ∧ canSend State.reset ∧ ([7] : List Byte).length < 64 :=
  ⟨rfl, rfl, rfl, rfl, rfl, ⟨rfl, rfl, rfl⟩, by decide⟩

theorem witness_TransactionsFailAsSendDoes :
    transactionOf (.classGet 1 2 [] true 8) = some (2, 1, [], true, 8) ∧ (Instr.classGet 1 2 [] true 8).wf = true ∧
    (∀ a b c, (capable a b c).tstate = .idle ∧ (capable a b c).sendOpen = false) ∧
    (capable false true true).cons.capSend = false ∧ (capable true false true).cons.capNow = false ∧
    (capable true true false).cons.capDelay = false ∧
    State.reset.tstate = .idle ∧ State.reset.sendOpen = false ∧ canSend State.reset ∧
    64 ≤ (List.replicate 64 (0 : Byte)).length ∧ (Instr.xfer 2 0 (List.replicate 64 0) true 2).wf = true :=
  ⟨rfl, rfl, fun _ _ _ => ⟨rfl, rfl⟩, rfl, rfl, rfl, rfl, rfl, ⟨rfl, rfl, rfl⟩, by simp, by
      rw [Instr.wf, countable_iff, List.length_replicate]; decide⟩

theorem witness_TxdoneEndsTheSendOrStartsTheReceive :
    (∀ k, (transmitting k).tstate = .tx) ∧ (transmitting .send).tKind = .send ∧ (transmitting .cat).tKind ≠ .send :=
  ⟨fun _ => rfl, rfl, by decide⟩

/-! Receiving. -/

theorem witness_RecvStartsWaitingOrNeedsAClock :
    State.reset.tstate = .idle ∧ State.reset.cons.capNow = true ∧ State.reset.cons.capDelay = true ∧
    (capable true false true).tstate = .idle ∧ (capable true false true).cons.capNow = false ∧
    (capable true true false).cons.capDelay = false := by decide

/-- Elapsed 100 of a timeout of 100, and 101 (95_test_vectors.md V-TX-12). -/
theorem witness_PollTimesOutWhenElapsedExceedsTheTimeout :
    let s := { goodReply with frameReady := false, tStart := 0xFFFFFFFF }
    pollEnabled s 100 = true ∧ pollEnabled s 99 = true ∧ s.frameReady = false ∧ s.tTimeout.toNat < ((100 : U32).toNat + (2 ^ 32 - s.tStart.toNat)) % 2 ^ 32 ∧
    ((99 : U32).toNat + (2 ^ 32 - s.tStart.toNat)) % 2 ^ 32 ≤ s.tTimeout.toNat := by decide

/-- A delay running; one over, at the clock value of the poll that asked for it and one past it, across the wrap; none asked for. -/
theorem witness_PollWaitsForTheRequestedDelay :
    (let s := { goodReply with delay := .running 0xFFFFFFFF, inbox := [⟨.command, [5]⟩, ⟨.delay, []⟩] };
      isCompletion (.poll 0) = true ∧ pollEnabled s 0 = false ∧ s.inbox = [⟨.command, [5]⟩] ++ ⟨.delay, []⟩ :: [] ∧
      ∀ x ∈ ([⟨.command, [5]⟩] : List Input), held s x = true) ∧
    (let s := { goodReply with delay := .ended 0xFFFFFFFF };
      pollEnabled s 0xFFFFFFFF = false ∧ pollEnabled s 0 = true ∧ ∀ since, s.delay ≠ .running since) ∧
    goodReply.delay = .idle ∧ pollEnabled goodReply 0 = true :=
  ⟨⟨rfl, rfl, rfl, by decide⟩, ⟨rfl, rfl, by simp⟩, rfl, rfl⟩

theorem witness_PollReportsAWrongChecksumAndKeepsTheFrame :
    pollEnabled badReply 0 = true ∧ badReply.frameReady = true ∧ memRead badReply.rxPayload 0 badReply.rxLen.toNat = some [0x05, 0x03] ∧
    lrc [badReply.rxDest, badReply.rxSrc, badReply.rxCmd, badReply.rxLen, 0x05, 0x03] ≠ badReply.rxChk := by decide

theorem goodReply_pending : goodFramePending goodReply [0x05, 0x03] := ⟨rfl, rfl, rfl, rfl, rfl⟩

theorem goodReply_accepted : responseAccepted goodReply := ⟨rfl, .inl rfl, rfl, fun _ => by decide⟩

/-- With a payload, and without (95_test_vectors.md V-TX-16). -/
theorem witness_DeviceErrorIsCapturedBeforeAddressAndCommand :
    goodFramePending errorReply [0x21] ∧ pollEnabled errorReply 0 = true ∧ errorReply.rxCmd.getLsbD 7 = true ∧ errorReply.rxPayload.read 0 = some 0x21 ∧
    goodFramePending (pending 0x02 0x80 0x83 []) [] ∧ (pending 0x02 0x80 0x83 []).rxPayload.read 0 = none :=
  ⟨⟨rfl, rfl, rfl, rfl, rfl⟩, rfl, rfl, rfl, ⟨rfl, rfl, rfl, rfl, rfl⟩, rfl⟩

theorem witness_DeviceErrorCodesReachRemoteErr :
    deviceErrorRowOf 0x21 = some .deverrDeviceNotInitialized ∧ goodFramePending errorReply (0x21 :: []) ∧
    errorReply.rxCmd.getLsbD 7 = true := ⟨rfl, ⟨rfl, rfl, rfl, rfl, rfl⟩, rfl⟩

/-- The first iteration and a later one; the expected source, and another with the broadcast destination. -/
theorem witness_ResponseFromAnotherSourceIsUnmatchedAddress :
    (let s := pending 0x03 0x00 0x06 [0x05, 0x03];
      s.tstate = .wait ∧ s.frameReady = true ∧ memRead s.rxPayload 0 s.rxLen.toNat = some [0x05, 0x03] ∧ chkOk s [0x05, 0x03] = true ∧
      s.rxCmd.getLsbD 7 = false ∧ s.delay = .idle ∧ exec (.poll 1) { s with delay := .ended 0 } ≠ .next { s with delay := .ended 0 } ∧
      s.rxSrc ≠ s.tDest ∧ s.tDest ≠ s.cons.broadcastAddr) ∧
    goodFramePending goodReply [0x05, 0x03] ∧ goodReply.rxCmd.getLsbD 7 = false ∧ goodReply.delay = .idle ∧
    goodReply.rxSrc = goodReply.tDest ∧ (∃ t, exec (.poll 0) goodReply = .next t) ∧
    (let s := { pending 0x03 0x00 0x06 [0x05, 0x03] with tDest := State.reset.cons.broadcastAddr };
      goodFramePending s [0x05, 0x03] ∧ s.rxCmd.getLsbD 7 = false ∧ s.delay = .idle ∧ s.tDest = s.cons.broadcastAddr) :=
  ⟨⟨rfl, rfl, rfl, rfl, rfl, rfl, fun h => absurd (congrArg ended h) (by decide), by decide, by decide⟩,
    goodReply_pending, rfl, rfl, rfl, ⟨_, rfl⟩, ⟨rfl, rfl, rfl, rfl, rfl⟩, rfl, rfl, rfl⟩

/-- Another source; another command; the same command with one byte too many for the buffer; the broadcast destination. -/
theorem witness_AddressIsCheckedBeforeCommandAndBufferSize :
    (let s := pending 0x03 0x00 0x06 [0x05, 0x03];
      pollEnabled s 0 = true ∧ goodFramePending s [0x05, 0x03] ∧ s.rxCmd.getLsbD 7 = false ∧ s.rxSrc ≠ s.tDest ∧
      s.tDest ≠ s.cons.broadcastAddr) ∧
    (let s := pending 0x02 0x01 0x02 [];
      pollEnabled s 0 = true ∧ goodFramePending s [] ∧ s.rxCmd.getLsbD 7 = false ∧ s.rxSrc = s.tDest ∧ s.rxCmd ≠ s.tCmd) ∧
    (let s := { goodReply with tCap := 1 };
      goodFramePending s [0x05, 0x03] ∧ s.rxCmd = s.tCmd ∧ s.tHasBuf = true ∧ s.tCap.toNat < s.rxLen.toNat) ∧
    { goodReply with tDest := 0xFF }.tDest = goodReply.cons.broadcastAddr :=
  ⟨⟨rfl, ⟨rfl, rfl, rfl, rfl, rfl⟩, rfl, by decide, by decide⟩, ⟨rfl, ⟨rfl, rfl, rfl, rfl, rfl⟩, rfl, rfl, by decide⟩,
    ⟨⟨rfl, rfl, rfl, rfl, rfl⟩, rfl, rfl, by decide⟩, rfl⟩

theorem witness_AcceptedResponseIsCopiedAndConsumed :
    pollEnabled goodReply 0 = true ∧ goodFramePending goodReply [0x05, 0x03] ∧ responseAccepted goodReply ∧ goodReply.tKind ≠ .cat ∧ goodReply.tHasBuf = true ∧
    goodFramePending { goodReply with tHasBuf := false } [0x05, 0x03] ∧ responseAccepted { goodReply with tHasBuf := false } :=
  ⟨rfl, goodReply_pending, goodReply_accepted, by decide, rfl, ⟨rfl, rfl, rfl, rfl, rfl⟩, ⟨rfl, .inl rfl, rfl, fun h => by cases h⟩⟩

theorem witness_ChecksumMismatchIsSticky :
    let s := { badReply with tstate := .idle }
    s.tstate = .idle ∧ s.cons.capNow = true ∧ s.cons.capDelay = true ∧ s.frameReady = true ∧
    memRead s.rxPayload 0 s.rxLen.toNat = some [0x05, 0x03] ∧ chkOk s [0x05, 0x03] = false ∧ s.cons.capSend = true ∧
    ([] : List Byte).length < 64 := by decide

theorem witness_XferIsSendThenRecv :
    State.reset.Inv ∧ State.reset.tstate = .idle ∧ State.reset.sendOpen = false ∧ canSend State.reset ∧
    ([] : List Byte).length < 64 := ⟨reset_meets_invariant, rfl, rfl, ⟨rfl, rfl, rfl⟩, by decide⟩

/-! The catalogue. -/

theorem witness_CatPacksItsArgumentsAndSends :
    State.reset.tstate = .idle ∧ canSend State.reset ∧ lookupDescriptor State.reset.cons 1 = some customDescriptor ∧
    (pack State.reset.freeCtr customDescriptor.req [.bytes [0x55, 0xAA]]).length < 64 :=
  ⟨rfl, ⟨rfl, rfl, rfl⟩, rfl, by decide⟩

theorem witness_CatalogueOperationsFailAsSendDoes :
    catalogueOf (.cat 1 2 0 [.bytes tooLong]) = some (1, 2, 0, [.bytes tooLong]) ∧
    catalogueOf (.getProtocolVersion 2) = some (0, 2, 0, []) ∧
    catalogueOf (.custom 2 (List.replicate 64 0)) = some (1, 2, 0, [.bytes (List.replicate 64 0)]) ∧
    (∀ a b c, (capable a b c).tstate = .idle ∧ lookupDescriptor (capable a b c).cons 0 = some versionDescriptor ∧
      lookupDescriptor (capable a b c).cons 1 = some customDescriptor) ∧
    (capable false true true).cons.capSend = false ∧ (capable true false true).cons.capNow = false ∧
    (capable true true false).cons.capDelay = false ∧ canSend State.reset ∧
    64 ≤ (pack State.reset.freeCtr customDescriptor.req [.bytes (List.replicate 64 0)]).length :=
  ⟨rfl, rfl, rfl, fun _ _ _ => ⟨rfl, rfl, rfl⟩, rfl, rfl, rfl, ⟨rfl, rfl, rfl⟩, by decide⟩

theorem witness_VersionAndCustomRequestsGoOut :
    State.reset.tstate = .idle ∧ canSend State.reset ∧ (List.replicate 63 (0 : Byte)).length < 64 :=
  ⟨rfl, ⟨rfl, rfl, rfl⟩, by simp⟩

/-- V-CAT-3 and V-CAT-4 (echo wrong and right), then capacities 5 and 6 for the 6 units of V-CAT-5 and V-CAT-6. -/
theorem witness_CatEndsWithItsStructuralChecks :
    (let s := catPending 2 0x0B 3 0x08 3 0 [0x02, 0xFE, 0xFF];
      pollEnabled s 0 = true ∧ goodFramePending s [0x02, 0xFE, 0xFF] ∧ responseAccepted s ∧ s.tKind = .cat ∧ s.tHasBuf = true ∧
      ∃ d, lookupDescriptor s.cons s.tDesc = some d ∧ d.echo = true ∧ ([0x02, 0xFE, 0xFF] : List Byte).head? ≠ some s.tArg0) ∧
    (let s := catPending 2 0x0B 3 0x09 3 0 [0x03, 0xFE, 0xFF];
      goodFramePending s [0x03, 0xFE, 0xFF] ∧ responseAccepted s ∧
      ∃ d fs vs, lookupDescriptor s.cons s.tDesc = some d ∧ ([0x03, 0xFE, 0xFF] : List Byte).head? = some s.tArg0 ∧
        d.resp = .fields fs ∧ unpack fs [0x03, 0xFE, 0xFF] = some vs) ∧
    (let s := catPending 3 0x0A 64 0x09 0 5 sixUnits;
      goodFramePending s sixUnits ∧ responseAccepted s ∧ s.tMotorCap.toNat < sixUnits.length / 4 ∧
      ∃ d, lookupDescriptor s.cons s.tDesc = some d ∧ d.echo = false ∧ d.resp = .units false false) ∧
    (let s := catPending 3 0x0A 64 0x09 0 6 sixUnits;
      goodFramePending s sixUnits ∧ responseAccepted s ∧ sixUnits.length / 4 ≤ s.tMotorCap.toNat ∧ sixUnits.length ≤ 64) :=
  ⟨⟨rfl, ⟨rfl, rfl, rfl, rfl, rfl⟩, ⟨rfl, .inl rfl, rfl, fun _ => by decide⟩, rfl, rfl, _, rfl, rfl, by decide⟩,
    ⟨⟨rfl, rfl, rfl, rfl, rfl⟩, ⟨rfl, .inl rfl, rfl, fun _ => by decide⟩, _, _, _, rfl, rfl, rfl, rfl⟩,
    ⟨⟨rfl, rfl, rfl, rfl, rfl⟩, ⟨rfl, .inl rfl, rfl, fun _ => by decide⟩, by decide, _, rfl, rfl, rfl⟩,
    ⟨rfl, rfl, rfl, rfl, rfl⟩, ⟨rfl, .inl rfl, rfl, fun _ => by decide⟩, by decide, by decide⟩

/-- V-CAT-7: one byte for two fields. -/
theorem witness_VersionReplyDeliversMinorAndMajor :
    (let s := catPending 0 0x00 2 0x07 0 0 [0x05, 0x03];
      pollEnabled s 0 = true ∧ goodFramePending s [0x05, 0x03] ∧ responseAccepted s ∧ s.tKind = .cat ∧ s.tHasBuf = true ∧ s.tDesc = 0 ∧ s.tCap = 2) ∧
    (let s := catPending 0 0x00 2 0x07 0 0 [0x05];
      goodFramePending s [0x05] ∧ responseAccepted s ∧ ([0x05] : List Byte).length < 2) :=
  ⟨⟨rfl, ⟨rfl, rfl, rfl, rfl, rfl⟩, ⟨rfl, .inl rfl, rfl, fun _ => by decide⟩, rfl, rfl, rfl, rfl⟩,
    ⟨rfl, rfl, rfl, rfl, rfl⟩, ⟨rfl, .inl rfl, rfl, fun _ => by decide⟩, by decide⟩

theorem witness_UnitsAreFourBytesTargetThenCurrent :
    sixUnits[4 * 5]? = some 0x58 ∧ sixUnits[4 * 5 + 1]? = some 0x02 ∧ sixUnits[4 * 5 + 2]? = some 0x57 ∧
    sixUnits[4 * 5 + 3]? = some 0x02 := by decide

theorem witness_UnpackReadsBackWhatPackWrote :
    (let shape : List FieldType := [.u8, .i16le, .b32le, .bytes 1, .flags 1 [7, 0], .rest];
      restLast shape = true ∧ shape.all FieldType.flagsOk = true ∧ shape[1]? = some .i16le ∧ shape[4]? = some (.flags 1 [7, 0])) ∧
    fieldValue .u8 (.num 0x103) = some (.num 3) ∧ fieldValue .u16le (.num 0xFFFE) = some (.num 65534) ∧
    fieldValue .i16le (.num 0xFFFE) = some (.num (-2)) ∧ fieldValue .b32le (.num 0x3F800000) = some (.bits 0x3F800000) ∧
    fieldValue (.bytes 1) (.bytes [9, 8]) = some (.bytes [9]) ∧ fieldValue .rest (.bytes [7, 8]) = some (.bytes [7, 8]) ∧
    fieldValue (.flags 1 [7, 0]) (.flags [true, false]) = some (.flags [true, false]) := by decide

theorem witness_PackAndUnpackRowsDeliverTheirValues :
    (let s := { State.reset with respWritten := true, respLen := 2, respBuf := [(0, 0x05), (1, 0x03)] };
      s.respWritten = true ∧ memRead s.respBuf 0 s.respLen.toNat = some [0x05, 0x03]) ∧
    unpack [.u8, .u8] [0x05, 0x03] = some [.num 5, .num 3] ∧ unpack [.b32le] [0x05, 0x03] = none ∧
    State.reset.respWritten = false := by decide

theorem witness_FieldsArePackedInOrderLowByteFirst :
    ([.u8] : List FieldType).length = ([.num 1] : List Arg).length ∧ 2 ≤ ([7, 8] : List Byte).length ∧
    (∀ f ∈ ([.u8, .bytes 2] : List FieldType), f ≠ .rest) ∧ unpack [.u8] [0x02] = some [.num 2] := by decide

/-- Bits 0 and 15 of two bytes, and one byte too few. -/
theorem witness_FlagFieldsPlaceEachFlagAtItsBit :
    (FieldType.flags 2 [15, 0]).flagsOk = true ∧ ([15, 0] : List Nat)[0]? = some 15 ∧ ([true, false] : List Bool)[0]? = some true ∧
    2 ≤ ([0x01, 0x80] : List Byte).length ∧ ([0x01, 0x80] : List Byte)[15 / 8]? = some 0x80 ∧ ([0x01] : List Byte).length < 2 := by
  decide

end Sys2Proof.Tests
end

/-! Proofs about the state registers (10_state.md): the invariant of every step, and who writes which register. -/

namespace Sys2Proof.Machine

/-! ### Written ranges, and the operations that split on their input as one record update each -/

/-- One more written byte at the end of a written range. -/
theorem writtenTo_write {m : Memory} {n : Nat} (b : Byte) (h : writtenTo m n) : writtenTo (m.write n b) (n + 1) := by
  intro a ha
  rw [Memory.read_write]
  split
  · rfl
  · exact h a (by omega)

/-- R119 as one record update: a payload byte is stored only where R119's invariant on entry holds. -/
theorem feedDataByte_next {s t : State} {b : Byte} (h : s.feedDataByte b = .next t) :
    s.dataEntry = true ∧
      t = { s with
        rxPayload := s.rxPayload.write s.dataIndex b, dRemain := s.dRemain - 1
        dstate := if s.dRemain - 1 = 0 then .chk else .data } := by
  unfold State.feedDataByte at h
  split at h
  · rename_i he
    cases h
    exact ⟨he, rfl⟩
  · cases h

/-- R120 as one record update: the address filter decides `FRAME_READY` and nothing else. -/
theorem feedChkByte_eq (s : State) (b : Byte) :
    s.feedChkByte b =
      { s with rxChk := b, dstate := s.init, frameReady := s.frameReady || decide (s.rxDest = s.cons.localAddr) } := by
  unfold State.feedChkByte
  by_cases ha : s.rxDest = s.cons.localAddr <;> simp [ha, State.setReady]

/-- The copy to the response buffer as one record update. -/
theorem deliver_eq (s : State) (p : List Byte) :
    s.deliver p =
      { s with
        respBuf := if s.tHasBuf then memWrite s.respBuf 0 p else s.respBuf
        respLen := if s.tHasBuf then BitVec.ofNat 7 s.rxLen.toNat else s.respLen
        respWritten := if s.tHasBuf then true else s.respWritten } := by
  unfold State.deliver
  by_cases hb : s.tHasBuf = true
  · simp only [if_pos hb]
  · simp only [if_neg hb]

/-! ### The invariant is kept by every shared operation -/

/-- `INIT` is no sync state on a bus, and neither `S_DATA` nor `S_CHK` (10_state.md R12). -/
theorem initialDState_cases (p : Proto) :
    initialDState p ≠ .data ∧ initialDState p ≠ .chk ∧
      (p = .bus → initialDState p ≠ .sync0 ∧ initialDState p ≠ .sync1) := by
  cases p <;> decide

/-- Moves of the decoder outside the payload: with no frame pending, to a state that counts no byte. -/
theorem State.Inv.moveDecoder {s : State} (h : s.Inv) (hr : s.frameReady = false) {d : DState} (dest src cmd : Byte)
    (hdata : d ≠ .data) (hchk : d ≠ .chk) (hbus : s.cons.proto = .bus → d ≠ .sync0 ∧ d ≠ .sync1) :
    State.Inv { s with dstate := d, rxDest := dest, rxSrc := src, rxCmd := cmd } :=
  { h with
    data := fun hd => absurd hd hdata
    chk := fun hd => absurd hd hchk
    pending := fun hp => absurd (hr.symm.trans hp) Bool.false_ne_true
    bus := hbus }

/-- After the byte count and after a payload byte the decoder is in `S_CHK` or in `S_DATA` (42_frame_decoder.md R118, R119). -/
theorem chkOrData_cases (c : Prop) [Decidable c] :
    ((if c then DState.chk else .data) = .data → ¬ c) ∧ ((if c then DState.chk else .data) = .chk → c) ∧
      (if c then DState.chk else .data) ≠ .sync0 ∧ (if c then DState.chk else .data) ≠ .sync1 := by
  split <;> simp [*]

/-- R118: the counter starts at the accepted length. -/
theorem State.Inv.feedLenByte {s : State} (h : s.Inv) (hr : s.frameReady = false) {b : Byte} (hb : b.toNat ≤ 64) :
    (s.feedLenByte b).Inv := by
  obtain ⟨hdata, hchk, hbus⟩ := chkOrData_cases (b = 0)
  have hrem : (b.setWidth 7).toNat = b.toNat := by rw [BitVec.toNat_setWidth]; omega
  exact
    { h with
      data := fun hd => by
        have hpos : b.toNat ≠ 0 := fun h0 => hdata hd (BitVec.eq_of_toNat_eq h0)
        simp only [State.feedLenByte_dRemain, State.feedLenByte_rxLen, hrem]
        exact ⟨by omega, le_rfl, hb, fun a ha => absurd ha (by omega)⟩
      chk := fun hd => by
        obtain rfl := hchk hd
        exact ⟨hb, fun a ha => absurd ha (Nat.not_lt_zero a)⟩
      pending := fun hp => absurd (hr.symm.trans hp) Bool.false_ne_true
      bus := fun _ => hbus }

/-- R119: the byte goes behind those already stored, and the last one completes the payload. -/
theorem State.Inv.feedDataByte {s t : State} (h : s.Inv) (hr : s.frameReady = false) (hd : s.dstate = .data) {b : Byte}
    (ht : s.feedDataByte b = .next t) : t.Inv := by
  obtain ⟨-, rfl⟩ := feedDataByte_next ht
  obtain ⟨hpos, hle, h64, hw⟩ := h.data hd
  obtain ⟨hdata, hchk, hbus⟩ := chkOrData_cases (s.dRemain - 1 = 0)
  have hrem : (s.dRemain - 1).toNat = s.dRemain.toNat - 1 := by rw [BitVec.toNat_sub]; simp; omega
  have hidx : s.dataIndex + 1 = s.rxLen.toNat - (s.dRemain - 1).toNat := by unfold State.dataIndex; omega
  have hw' : writtenTo (s.rxPayload.write s.dataIndex b) (s.rxLen.toNat - (s.dRemain - 1).toNat) :=
    hidx ▸ writtenTo_write b hw
  exact
    { h with
      rxBuffer := bufferOk_write b h.rxBuffer (by unfold State.dataIndex; omega)
      data := fun hd' => by
        have hne : (s.dRemain - 1).toNat ≠ 0 := fun h0 => hdata hd' (BitVec.eq_of_toNat_eq h0)
        exact ⟨by dsimp only; omega, by dsimp only; omega, h64, hw'⟩
      chk := fun hd' => by
        have h0 := hchk hd'
        rw [h0] at hw'
        exact ⟨h64, hw'⟩
      pending := fun hp => absurd (hr.symm.trans hp) Bool.false_ne_true
      bus := fun _ => hbus }

/-- R120: a frame becomes pending only whole and for this node, with the decoder back in `INIT`. -/
theorem State.Inv.feedChkByte {s : State} (h : s.Inv) (hr : s.frameReady = false) (hd : s.dstate = .chk) (b : Byte) :
    (s.feedChkByte b).Inv := by
  obtain ⟨hndata, hnchk, hbus⟩ := initialDState_cases s.cons.proto
  obtain ⟨h64, hw⟩ := h.chk hd
  rw [feedChkByte_eq]
  exact
    { h with
      data := fun hd' => absurd hd' hndata
      chk := fun hd' => absurd hd' hnchk
      pending := fun hp => ⟨rfl, by simpa [hr] using hp, h64, hw⟩
      bus := hbus }

theorem State.Inv.clearReady {s : State} (h : s.Inv) : s.clearReady.Inv :=
  { h with pending := nofun }

/-- R166, where no delay has been asked for. -/
theorem State.Inv.raise {s : State} (h : s.Inv) (hd : s.delay = .idle) (x : Result) : (s.raise x).Inv :=
  { h with
    transmitting := nofun
    waiting := nofun
    catalogue := fun hne => absurd rfl hne
    delay := fun _ => hd }

theorem State.Inv.raiseRecv {s : State} (h : s.Inv) (x : Result) : (s.raiseRecv x).Inv :=
  { h with
    transmitting := nofun
    waiting := nofun
    catalogue := fun hne => absurd rfl hne
    delay := fun _ => rfl }

/-- In `T_IDLE` the latches are free (10_state.md R24). -/
theorem State.Inv.latched {s : State} (h : s.Inv) (hs : s.tstate = .idle) (n : Nat) (k : Kind) (dest cmd : Byte)
    (hasBuf : Bool) (cap desc arg0 motorCap : Byte) :
    ((s.drawn n).latched k dest cmd hasBuf cap desc arg0 motorCap).Inv :=
  { h with
    transmitting := fun ht => absurd (hs.symm.trans ht) nofun
    waiting := fun ht => absurd (hs.symm.trans ht) nofun
    catalogue := fun hne => absurd hs hne }

/-- A frame on the wire has 5 bytes more than its payload, or 7 (30_encoding.md R60, R61). -/
theorem wireFrame_length_bounds (c : Construction) (dest cmd : Byte) (p : List Byte) :
    p.length + 5 ≤ (wireFrame c dest cmd p).length ∧ (wireFrame c dest cmd p).length ≤ p.length + 7 := by
  rw [wireFrame_length]
  cases c.proto <;> simp

/-- R145: the frame handed over fits `TX_BUF` and stands in it whole. -/
theorem State.Inv.transmit {s : State} (h : s.Inv) (hs : s.tstate = .idle) (hc : canSend s) (hk : s.tKind ≠ .recv)
    (hcat : s.tKind = .cat → s.tHasBuf = true ∧
      ∃ d, lookupDescriptor s.cons s.tDesc = some d ∧ s.tCmd = d.cmd ∧ s.tCap = d.respCap)
    (dest cmd : Byte) {p : List Byte} (hp : p.length < 64) : (s.transmit dest (wireFrame s.cons dest cmd p)).Inv := by
  obtain ⟨hlo, hhi⟩ := wireFrame_length_bounds s.cons dest cmd p
  obtain ⟨-, hlen, -, -⟩ := transmit_frameRequested s dest (f := wireFrame s.cons dest cmd p) (by omega)
  exact
    { h with
      txBuffer := bufferOk_memWrite h.txBuffer (by omega)
      transmitting := fun _ =>
        ⟨hc.1, hasClock_iff.2 hc.2, hk, by omega, by omega, hlen ▸ writtenTo_memWrite le_rfl⟩
      waiting := nofun
      catalogue := fun _ => hcat
      delay := fun _ => h.delay (by simp [hs]) }

/-- R150: a receive phase starts only with a clock, and never for a `SEND`. -/
theorem State.Inv.startReceive {s : State} (h : s.Inv) (hc : Construction.hasClock s.cons = true) (hk : s.tKind ≠ .send)
    (hcat : s.tKind = .cat → s.tstate ≠ .idle) (timeoutMs now : U32) : (s.startReceive timeoutMs now).Inv :=
  { h with
    transmitting := nofun
    waiting := fun _ => ⟨hc, hk⟩
    catalogue := fun _ hkc => h.catalogue (hcat hkc) hkc
    delay := fun _ => rfl }

/-- R151: the delay is asked for while the `RECV` waits. -/
theorem State.Inv.requestDelay {s : State} (h : s.Inv) (hs : s.tstate = .wait) (now : U32) : (s.requestDelay now).Inv :=
  { h with delay := fun hne => absurd hs hne }

/-- R151: only a waiting `RECV` has a delay that can end. -/
theorem State.Inv.delayOver {s : State} (h : s.Inv) : s.delayOver.Inv := by
  rcases State.delayOver_cases s with ⟨since, hd, ht⟩ | ⟨-, ht⟩
  · have hs : s.tstate = .wait := by
      by_contra hne
      exact absurd (hd.symm.trans (h.delay hne)) nofun
    rw [ht]
    exact { h with delay := fun hne => absurd hs hne }
  · rwa [ht]

/-- R161: a payload as long as `RX_LEN` fits `RESP_BUF`, and `RESP_LEN` says how much of it is written. -/
theorem State.Inv.deliver {s : State} (h : s.Inv) {p : List Byte} (hl : p.length = s.rxLen.toNat) (h64 : p.length ≤ 64) :
    (s.deliver p).Inv := by
  unfold State.deliver
  split
  · have hlen : (BitVec.ofNat 7 s.rxLen.toNat).toNat = p.length := by rw [BitVec.toNat_ofNat]; omega
    exact
      { h with
        respBuffer := bufferOk_memWrite h.respBuffer h64
        response := fun _ => by
          simp only [hlen]
          exact ⟨h64, writtenTo_memWrite le_rfl⟩ }
  · exact h

/-- The payload of a good pending frame has at most 64 bytes (10_state.md R20). -/
theorem State.Inv.payload_le {s : State} (h : s.Inv) {p : List Byte} (hg : goodFramePending s p) : p.length ≤ 64 := by
  obtain ⟨-, -, h64, -⟩ := h.pending hg.2.2.1
  rw [goodFramePending_length hg]
  exact h64

/-- R260: a construction meets the invariant, whatever values it draws. -/
theorem construct_inv (c : Construction) (draw : Nat → Nat) : (State.construct c draw).Inv where
  rxBuffer := ⟨rfl, nofun⟩
  txBuffer := ⟨rfl, nofun⟩
  respBuffer := ⟨rfl, nofun⟩
  data hd := absurd hd (initialDState_cases c.proto).1
  chk hd := absurd hd (initialDState_cases c.proto).2.1
  pending := nofun
  bus := (initialDState_cases c.proto).2.2
  transmitting := nofun
  waiting := nofun
  catalogue hne := absurd rfl hne
  delay _ := rfl
  response := nofun

/-- Every instruction keeps the invariant. -/
theorem exec_keeps_inv {i : Instr} {s t : State} (h : s.Inv) (he : exec i s = .next t) : t.Inv := by
  obtain ⟨hndata, hnchk, hbus⟩ := initialDState_cases s.cons.proto
  cases exec_effect he with
  | same => exact h
  | syncFirst hi hr hd =>
    exact h.moveDecoder hr _ _ _ nofun nofun fun hb => absurd hd (h.bus hb).1
  | syncSecond hi hr hd => exact h.moveDecoder hr _ _ _ nofun nofun fun _ => ⟨nofun, nofun⟩
  | syncRestart hi hr hd =>
    exact h.moveDecoder hr _ _ _ nofun nofun fun hb => absurd hd (not_or.2 (h.bus hb))
  | destByte b hi hr hd => exact h.moveDecoder hr _ _ _ nofun nofun fun _ => ⟨nofun, nofun⟩
  | srcByte b hi hr hd => exact h.moveDecoder hr _ _ _ nofun nofun fun _ => ⟨nofun, nofun⟩
  | cmdByte b hi hr hd => exact h.moveDecoder hr _ _ _ nofun nofun fun _ => ⟨nofun, nofun⟩
  | lenOver hi hr hd => exact h.moveDecoder hr _ _ _ hndata hnchk hbus
  | lenByte b hi hr hd hb => exact h.feedLenByte hr hb
  | dataByte b t hi hr hd ht => exact h.feedDataByte hr hd ht
  | chkByte b hi hr hd => exact h.feedChkByte hr hd b
  | hostFails n k dest cmd hasBuf cap desc arg0 motorCap x hi hs =>
    exact (h.latched hs ..).raise (h.delay (by simp [hs])) x
  | transmits n k dest cmd hasBuf cap desc arg0 motorCap p hi hs hc hp hk hcat =>
    exact (h.latched hs ..).transmit hs hc hk hcat dest cmd hp
  | recvFails hi hs => exact (h.latched hs 0 .recv ..).raiseRecv _
  | recvStarts dest cmd timeoutMs hasBuf cap now hi hs hc =>
    exact (h.latched hs 0 .recv dest cmd hasBuf cap ..).startReceive hc nofun nofun timeoutMs now
  | setsTimeout v hi hs => exact { h.raise (h.delay (by simp [hs])) .success with }
  | txFails now hi hs => exact h.clearReady.raise (h.delay (by simp [hs])) _
  | txEndsSend now hi hs hk => exact { h.clearReady.raise (h.delay (by simp [hs])) .success with }
  | txStartsReceive now hi hs hk =>
    obtain ⟨-, hc, -⟩ := h.transmitting hs
    exact h.clearReady.startReceive hc hk (fun _ => by simp [hs]) _ now
  | timesOut now hi hs hd hr => exact (h.moveDecoder hr _ _ _ hndata hnchk hbus).raiseRecv _
  | waitsOn now hi hs => exact h.requestDelay hs now
  | mismatch => exact h.raiseRecv _
  | deviceError => exact { h.clearReady.raiseRecv .handError with }
  | unmatched now p x => exact h.clearReady.raiseRecv x
  | accepted now p x out hi hg =>
    exact { (h.deliver (goodFramePending_length hg) (h.payload_le hg)).clearReady.raiseRecv x with }
  | resets => exact { construct_inv s.cons (fun k => Config.freeNat (s.freeCtr + k)) with }
  | function => exact { h with }

theorem State.Inv.afterTaking {s : State} (h : s.Inv) (rest : List Input) : (s.afterTaking rest).Inv := { h with }

/-- Settles O29: the taken input is an instruction, the end of a delay, or no encoding, which answers no state. -/
theorem everyStepKeepsTheInvariant : Obligations.EveryStepKeepsTheInvariant := by
  intro s t h hstep
  unfold step at hstep
  split at hstep
  · cases hstep
    exact h
  · rename_i e rest _
    split at hstep
    · exact exec_keeps_inv (h.afterTaking rest) hstep
    · unfold State.takeOther at hstep
      split at hstep
      · cases hstep
        exact (h.afterTaking rest).delayOver
      · cases hstep

/-! ### Who writes which registers -/

theorem sameDecodeBuffer_refl (s : State) : sameDecodeBuffer s s := ⟨rfl, rfl, rfl, rfl, rfl, fun _ => rfl⟩

theorem sameLatches_refl (s : State) : sameLatches s s := ⟨rfl, rfl, rfl, rfl, rfl, rfl, rfl, rfl, rfl, rfl⟩

theorem sameTransmit_refl (s : State) : sameTransmit s s := ⟨rfl, rfl, fun _ => rfl⟩

/-- The writers of the decoder: the feeds, while no frame is pending; `RESET`; and the timeout, which writes `DSTATE` alone. -/
theorem exec_decoder {i : Instr} {s t : State} (h : exec i s = .next t) :
    (isFeed i = true ∧ s.frameReady = false) ∨ i = .reset ∨
      (sameDecodeBuffer s t ∧ (t.dstate = s.dstate ∨
        ∃ now, i = .poll now ∧ s.tstate = .wait ∧ s.frameReady = false ∧ t.dstate = s.init ∧ t.result = .timeout ∧
          t.tstate = .idle)) := by
  cases exec_effect h with
  | syncFirst hi hr | syncSecond hi hr | syncRestart hi hr | destByte _ hi hr | srcByte _ hi hr | cmdByte _ hi hr
  | lenOver hi hr | lenByte _ hi hr | dataByte _ _ hi hr | chkByte _ hi hr => exact .inl ⟨hi, hr⟩
  | resets hi => exact .inr (.inl hi)
  | timesOut now hi hs hd hr =>
    exact .inr (.inr ⟨sameDecodeBuffer_refl s, .inr ⟨now, hi, hs, hr, rfl, rfl, rfl⟩⟩)
  | accepted =>
    rw [deliver_eq]
    exact .inr (.inr ⟨sameDecodeBuffer_refl s, .inl rfl⟩)
  | _ => exact .inr (.inr ⟨sameDecodeBuffer_refl s, .inl rfl⟩)

/-- Settles O20: of the writers of the decoder only the feeds, the timeout and `RESET` reach `DSTATE`. -/
theorem decodeStateChangesOnlyByFeedTimeoutAndReset : Obligations.DecodeStateChangesOnlyByFeedTimeoutAndReset := by
  intro i s t h hne
  rcases exec_decoder h with hf | hi | ⟨-, hd | ht⟩
  · exact .inl hf
  · exact .inr (.inr hi)
  · exact absurd hd hne
  · exact .inr (.inl ht)

/-- Settles O21: the timeout, the one writer of the decoder besides feeds and `RESET`, leaves the decode buffer. -/
theorem decodeBufferIsWrittenOnlyByFeedWithNoFramePending :
    Obligations.DecodeBufferIsWrittenOnlyByFeedWithNoFramePending := by
  intro i s t h hreset hno
  rcases exec_decoder h with ⟨hi, hr⟩ | hi | ⟨hb, -⟩
  · simp [hi, hr] at hno
  · exact absurd hi hreset
  · exact hb

/-- `FRAME_READY` rises only at the checksum byte of a frame for this node (42_frame_decoder.md R120). -/
theorem exec_frameReady_rises {i : Instr} {s t : State} (h : exec i s = .next t) (ht : t.frameReady = true) :
    s.frameReady = true ∨ (isFeed i = true ∧ s.dstate = .chk ∧ s.rxDest = s.cons.localAddr) := by
  cases exec_effect h with
  | chkByte b hi hr hd =>
    rw [feedChkByte_eq] at ht
    exact .inr ⟨hi, hd, by simpa [hr] using ht⟩
  | dataByte b t hi hr hd hb =>
    obtain ⟨-, rfl⟩ := feedDataByte_next hb
    exact .inl ht
  | txFails | txEndsSend | txStartsReceive | deviceError | unmatched | accepted | resets => cases ht
  | _ => exact .inl ht

/-- What becomes of a pending frame: it stays, and then a `RECV` that ended found a wrong checksum; or one of its consumers
takes it. -/
theorem exec_pending_frame {i : Instr} {s t : State} (h : exec i s = .next t) (hp : s.frameReady = true) :
    (t.frameReady = true ∧ (s.tstate = .wait → t.tstate = .idle → t.result = .checksumMismatch)) ∨
    (t.frameReady = false ∧ (i = .reset ∨ (∃ ok now, i = .txdone ok now ∧ s.tstate = .tx) ∨
      (isCompletion i = true ∧ s.tstate = .wait ∧ t.tstate = .idle ∧ t.result ≠ .checksumMismatch))) := by
  cases exec_effect h with
  | syncFirst _ hr | syncSecond _ hr | syncRestart _ hr | destByte _ _ hr | srcByte _ _ hr | cmdByte _ _ hr
  | lenOver _ hr | lenByte _ _ hr | dataByte _ _ _ hr | chkByte _ _ hr | timesOut _ _ _ _ hr | waitsOn _ _ _ _ hr =>
    exact absurd (hr.symm.trans hp) Bool.false_ne_true
  | same | function => exact .inl ⟨hp, fun hw hi => absurd (hw.symm.trans hi) nofun⟩
  | hostFails _ _ _ _ _ _ _ _ _ _ _ hs | transmits _ _ _ _ _ _ _ _ _ _ _ hs | recvFails _ hs
  | recvStarts _ _ _ _ _ _ _ hs | setsTimeout _ _ hs => exact .inl ⟨hp, fun hw => absurd (hw.symm.trans hs) nofun⟩
  | mismatch => exact .inl ⟨hp, fun _ _ => rfl⟩
  | resets hi => exact .inr ⟨rfl, .inl hi⟩
  | txFails now hi hs | txEndsSend now hi hs | txStartsReceive now hi hs =>
    exact .inr ⟨rfl, .inr (.inl ⟨_, now, hi, hs⟩)⟩
  | deviceError p hi hg => exact .inr ⟨rfl, .inr (.inr ⟨hi, hg.1, rfl, nofun⟩)⟩
  | unmatched now p x hi hg he hx =>
    subst hi
    exact .inr ⟨rfl, .inr (.inr ⟨rfl, hg.1, rfl, by rcases hx with rfl | rfl | rfl <;> exact nofun⟩)⟩
  | accepted now p x out hi hg ha hx =>
    subst hi
    exact .inr ⟨rfl, .inr (.inr ⟨rfl, hg.1, rfl, by rcases hx with rfl | rfl | rfl <;> exact nofun⟩)⟩

/-- `TXDONE` in `T_TX` clears `FRAME_READY` whatever its answer (43_transaction.md R146; D10). -/
theorem execTxdone_clears_frameReady {ok : Bool} {now : U32} {s t : State} (hs : s.tstate = .tx)
    (h : execTxdone ok now s = .next t) : t.frameReady = false := by
  unfold execTxdone at h
  rw [if_pos hs] at h
  dsimp only at h
  split at h
  · cases h
    rfl
  · split at h <;> cases h <;> rfl

/-- Settles O22: what can raise `FRAME_READY`, and what becomes of a pending frame. -/
theorem frameReadyIsSetByTheAddressFilterAndClearedByItsConsumers :
    Obligations.FrameReadyIsSetByTheAddressFilterAndClearedByItsConsumers := by
  intro i s t h
  refine ⟨fun hf ht => ?rises, fun hp hf => ?falls, ?txdone, ?reset, ?poll⟩
  case rises => simpa [hf] using exec_frameReady_rises h ht
  case falls => simpa [hf] using exec_pending_frame h hp
  case txdone =>
    rintro ok now rfl hs
    exact execTxdone_clears_frameReady hs h
  case reset =>
    rintro rfl
    cases h
    rfl
  case poll =>
    rintro now rfl hw hp hidle
    rcases exec_pending_frame h hp with ⟨ht, hx⟩ | ⟨ht, hreset | ⟨_, _, htx, -⟩ | ⟨-, -, -, hx⟩⟩
    · simp [ht, hx hw hidle]
    · cases hreset
    · cases htx
    · simp [ht, hx]

/-- `REMOTE_ERR` is written by the device-error arm and by `RESET` (43_transaction.md R157). -/
theorem exec_remoteErr {i : Instr} {s t : State} (h : exec i s = .next t) :
    t.remoteErr = s.remoteErr ∨ i = .reset ∨
      ∃ p, isCompletion i = true ∧ goodFramePending s p ∧ s.rxCmd.getLsbD 7 = true ∧ t = s.errorArm := by
  cases exec_effect h with
  | resets hi => exact .inr (.inl hi)
  | deviceError p hi hg he => exact .inr (.inr ⟨p, hi, hg, he, rfl⟩)
  | dataByte b t hi hr hd ht =>
    obtain ⟨-, rfl⟩ := feedDataByte_next ht
    exact .inl rfl
  | chkByte b =>
    rw [feedChkByte_eq]
    exact .inl rfl
  | accepted =>
    rw [deliver_eq]
    exact .inl rfl
  | _ => exact .inl rfl

/-- Settles O23: the device-error arm alone writes `REMOTE_ERR`, and ends the `RECV` in `HandError`. -/
theorem remoteErrorIsWrittenOnlyByTheDeviceErrorArm : Obligations.RemoteErrorIsWrittenOnlyByTheDeviceErrorArm := by
  intro i s t h hreset hne
  rcases exec_remoteErr h with hs | hi | ⟨p, hi, ⟨hw, -, hr, -⟩, he, rfl⟩
  · exact absurd hs hne
  · exact absurd hi hreset
  · exact ⟨hi, hw, hr, he, rfl, fun b hb => by simp [State.deviceCode, hb]⟩

/-- The response buffer is written by `RESET` and by an accepted response with a buffer supplied (43_transaction.md R161). -/
theorem exec_response {i : Instr} {s t : State} (h : exec i s = .next t) :
    (t.respLen = s.respLen ∧ t.respBuf = s.respBuf) ∨ i = .reset ∨
      ∃ now p, i = .poll now ∧ goodFramePending s p ∧ responseAccepted s ∧ s.tHasBuf = true ∧
        t.respBuf = memWrite s.respBuf 0 p := by
  cases exec_effect h with
  | resets hi => exact .inr (.inl hi)
  | accepted now p x out hi hg ha =>
    rw [deliver_eq]
    rcases hb : s.tHasBuf
    · exact .inl ⟨rfl, rfl⟩
    · exact .inr (.inr ⟨now, p, hi, hg, ha, rfl, rfl⟩)
  | dataByte b t hi hr hd ht =>
    obtain ⟨-, rfl⟩ := feedDataByte_next ht
    exact .inl ⟨rfl, rfl⟩
  | chkByte b =>
    rw [feedChkByte_eq]
    exact .inl ⟨rfl, rfl⟩
  | _ => exact .inl ⟨rfl, rfl⟩

/-- Settles O24: the payload copied is `RX_LEN` bytes long, so no byte from there on is written. -/
theorem responseBufferIsWrittenOnlyByAnAcceptedResponse : Obligations.ResponseBufferIsWrittenOnlyByAnAcceptedResponse := by
  intro i s t h hreset hne
  rcases exec_response h with ⟨hlen, hbuf⟩ | hi | ⟨now, p, hi, hg, ha, hb, hbuf⟩
  · simp [hlen, hbuf] at hne
  · exact absurd hi hreset
  · refine ⟨⟨now, hi⟩, ⟨p, hg⟩, ha, hb, fun a hle => ?_⟩
    have hp := goodFramePending_length hg
    rw [hbuf, read_memWrite, if_neg (by omega)]

/-- During an operation the latches stay, but for those the start of the receive phase writes (43_transaction.md R150). -/
theorem exec_latches {i : Instr} {s t : State} (h : exec i s = .next t) (hs : s.tstate ≠ .idle) (ht : t.tstate ≠ .idle) :
    sameLatches s t ∨ ∃ now, i = .txdone true now ∧ t = s.clearReady.startReceive s.cfgTimeoutMs now := by
  cases exec_effect h with
  | hostFails _ _ _ _ _ _ _ _ _ _ _ hs' | transmits _ _ _ _ _ _ _ _ _ _ _ hs' | recvFails _ hs'
  | recvStarts _ _ _ _ _ _ _ hs' | setsTimeout _ _ hs' => exact absurd hs' hs
  | accepted | resets => exact absurd rfl ht
  | txStartsReceive now hi => exact .inr ⟨now, hi, rfl⟩
  | dataByte b t hi hr hd hb =>
    obtain ⟨-, rfl⟩ := feedDataByte_next hb
    exact .inl (sameLatches_refl s)
  | chkByte b =>
    rw [feedChkByte_eq]
    exact .inl (sameLatches_refl s)
  | _ => exact .inl (sameLatches_refl s)

/-- Settles O26: only the start of the receive phase writes a latch during an operation, and only the two times. -/
theorem latchesAreConstantDuringAnOperation : Obligations.LatchesAreConstantDuringAnOperation := by
  intro i s t h hs ht
  rcases exec_latches h hs ht with ⟨hk, hd, hc, hto, hst, hb, hcap, hde, ha, hm⟩ | ⟨now, hi, rfl⟩
  · exact ⟨hk, hd, hc, hb, hcap, hde, ha, hm, fun _ => ⟨hto, hst⟩⟩
  · exact ⟨rfl, rfl, rfl, rfl, rfl, rfl, rfl, rfl, fun hne => absurd hi (hne true now)⟩

/-- The transmit registers are written by `RESET` and by the transmit request of a host operation (43_transaction.md R145). -/
theorem exec_transmit {i : Instr} {s t : State} (h : exec i s = .next t) :
    sameTransmit s t ∨ i = .reset ∨ (isHostOp i = true ∧ s.tstate = .idle ∧ t.tstate = .tx) := by
  cases exec_effect h with
  | resets hi => exact .inr (.inl hi)
  | transmits n k dest cmd hasBuf cap desc arg0 motorCap p hi hs => exact .inr (.inr ⟨hi, hs, rfl⟩)
  | dataByte b t hi hr hd ht =>
    obtain ⟨-, rfl⟩ := feedDataByte_next ht
    exact .inl (sameTransmit_refl s)
  | chkByte b =>
    rw [feedChkByte_eq]
    exact .inl (sameTransmit_refl s)
  | accepted =>
    rw [deliver_eq]
    exact .inl (sameTransmit_refl s)
  | _ => exact .inl (sameTransmit_refl s)

/-- Settles O27: the transmit request is the one writer besides `RESET`. -/
theorem transmitRegistersAreWrittenOnlyByASend : Obligations.TransmitRegistersAreWrittenOnlyByASend := by
  intro i s t h hreset hne
  rcases exec_transmit h with hs | hi | hsend
  · exact absurd hs hne
  · exact absurd hi hreset
  · exact hsend

end Sys2Proof.Machine

/-! Proofs about the payloads in memory (20_memory.md): the place, order and length of packed fields, and reading them back. -/

namespace Sys2Proof.Machine

/-! ### Packing a field at its place -/

/-- A field behind the fields of `gs`, where packing it draws no free value (44_command_catalogue.md R181). -/
theorem pack_field_at (k : Nat) {gs fs : List FieldType} {bs as : List Arg} {f : FieldType} {a : Arg}
    (hlen : gs.length = bs.length) (hdraws : fieldDraws f (some a) = 0) :
    pack k (gs ++ f :: fs) (bs ++ a :: as) =
      pack k gs bs ++ packField (k + packDraws gs bs) f (some a) ++ pack (k + packDraws gs bs) fs as := by
  rw [pack_append k gs (f :: fs) bs (a :: as) hlen, List.append_assoc]
  simp only [pack, List.head?_cons, List.tail_cons, hdraws, Nat.add_zero]

theorem byteOf_zero (v : U32) : byteOf v 0 = BitVec.ofNat 8 v.toNat := by
  rw [byteOf_eq, Nat.mul_zero, pow_zero, Nat.div_one]

/-- A 32-bit field, least significant byte first (20_memory.md R44). -/
theorem bytes32_eq (v : U32) :
    bytes32 v = [BitVec.ofNat 8 v.toNat, BitVec.ofNat 8 (v.toNat / 2 ^ 8), BitVec.ofNat 8 (v.toNat / 2 ^ 16),
      BitVec.ofNat 8 (v.toNat / 2 ^ 24)] := by
  rw [bytes32, byteOf_zero, byteOf_eq v 1, byteOf_eq v 2, byteOf_eq v 3]

/-- A 16-bit field of either signedness, least significant byte first (20_memory.md R44). -/
theorem packField_int16 (k : Nat) {f : FieldType} (hf : f = .u16le ∨ f = .i16le) (v : U32) :
    packField k f (some (.num v)) = [BitVec.ofNat 8 v.toNat, BitVec.ofNat 8 (v.toNat / 2 ^ 8)] := by
  have hbytes : packField k f (some (.num v)) = [byteOf v 0, byteOf v 1] := by rcases hf with rfl | rfl <;> rfl
  rw [hbytes, byteOf_zero, byteOf_eq v 1]

theorem fieldDraws_int16 {f : FieldType} (hf : f = .u16le ∨ f = .i16le) (v : U32) :
    fieldDraws f (some (.num v)) = 0 := by
  rcases hf with rfl | rfl <;> rfl

/-- An argument with bytes enough fills its field: no byte is free (log 15). -/
theorem packField_bytes_of_le (k : Nat) {n : Nat} {b : List Byte} (h : n ≤ b.length) :
    packField k (.bytes n) (some (.bytes b)) = b.take n := by
  simp [packField, Nat.sub_eq_zero_of_le h, freeBytes]

theorem fieldDraws_bytes_of_le {n : Nat} {b : List Byte} (h : n ≤ b.length) :
    fieldDraws (.bytes n) (some (.bytes b)) = 0 :=
  Nat.sub_eq_zero_of_le h

/-- Fields of fixed size leave no gap: the payload is as long as their sizes together (20_memory.md R42). -/
theorem pack_length (k : Nat) {shape : List FieldType} (args : List Arg) (h : ∀ f ∈ shape, f ≠ .rest) :
    (pack k shape args).length = (shape.map fieldSize).sum := by
  induction shape generalizing k args with
  | nil => rfl
  | cons f fs ih =>
    obtain ⟨hf, hfs⟩ := List.forall_mem_cons.1 h
    rw [pack, List.length_append, packField_length k hf, ih _ args.tail hfs, List.map_cons, List.sum_cons]

/-! ### Unpacking from the front -/

/-- The first field takes its bytes, and the others go on with the bytes after them (44_command_catalogue.md R182). -/
theorem unpack_cons {f : FieldType} {fs : List FieldType} {r r' : List Byte} {v : Value} {vs : List Value}
    (hf : unpackField f r = some (v, r')) (hfs : unpack fs r' = some vs) : unpack (f :: fs) r = some (v :: vs) := by
  simp only [unpack, hf, hfs]

theorem int16_unsigned (lo hi : Byte) : int16 false lo hi = lo.toNat + 256 * hi.toNat := by
  simp [int16, le16_toNat]

theorem int16_signed (lo hi : Byte) :
    int16 true lo hi = lo.toNat + 256 * hi.toNat - (if 128 ≤ hi.toNat then 65536 else 0) :=
  le16_toInt lo hi

theorem le32_toNat (b0 b1 b2 b3 : Byte) :
    (le32 b0 b1 b2 b3).toNat = b0.toNat + 2 ^ 8 * b1.toNat + 2 ^ 16 * b2.toNat + 2 ^ 24 * b3.toNat := by
  have h0 := b0.isLt
  have h1 := b1.isLt
  have h2 := b2.isLt
  simp only [le32, BitVec.toNat_append, Nat.shiftLeft_eq, Nat.mul_comm _ (2 ^ 8)]
  rw [← Nat.two_pow_add_eq_or_of_lt h2, ← Nat.two_pow_add_eq_or_of_lt h1, ← Nat.two_pow_add_eq_or_of_lt h0]
  omega

/-- Settles O59: a field packs its own bytes between those of its neighbours, and unpacking reads them from the front. -/
theorem fieldsArePackedInOrderLowByteFirst : Obligations.FieldsArePackedInOrderLowByteFirst := by
  refine ⟨fun k gs fs bs as v n b hlen => ⟨?u8, fun f hf => ?int16, ?b32, fun hn => ?bytes⟩,
    fun k shape args h => pack_length k args h, fun fs b0 b1 b2 b3 r vs h => ⟨?readU8, ?readU16, ?readI16, ?readB32⟩⟩
  case u8 =>
    rw [pack_field_at k hlen rfl, packField, byteOf_zero]
  case int16 =>
    rw [pack_field_at k hlen (fieldDraws_int16 hf v), packField_int16 _ hf]
  case b32 =>
    rw [pack_field_at k hlen rfl, packField, bytes32_eq]
  case bytes =>
    rw [pack_field_at k hlen (fieldDraws_bytes_of_le hn), packField_bytes_of_le _ hn]
  case readU8 => exact unpack_cons rfl h
  case readU16 => exact int16_unsigned b0 b1 ▸ unpack_cons rfl h
  case readI16 => exact int16_signed b0 b1 ▸ unpack_cons rfl h
  case readB32 => exact ⟨le32 b0 b1 b2 b3, unpack_cons rfl h, le32_toNat b0 b1 b2 b3⟩

end Sys2Proof.Machine

/-! Proofs about the encodings (30_encoding.md): delivery of the device error codes, and the bits of flag fields. -/

namespace Sys2Proof.Machine

/-! ### Device error codes -/

/-- Each row of the device error code table runs with its own code (30_encoding.md R73). -/
theorem exec_deviceErrorRowOf {code : Byte} {i : Instr} (h : deviceErrorRowOf code = some i) (s : State) :
    exec i s = s.deviceErrorRow code := by
  unfold deviceErrorRowOf at h
  split_ifs at h <;> subst code <;> cases h <;> rfl

/-- The device-error arm as one record update, where the first payload byte is written: no free value is drawn
(43_transaction.md R157). -/
theorem errorArm_of_written {s : State} {b : Byte} (h : s.rxPayload.read 0 = some b) :
    s.errorArm =
      { endOfRecv s .handError with frameReady := false, remoteErr := b, remoteErrWritten := true } := by
  have hcode : s.deviceCode = b := by rw [State.deviceCode, h, Option.getD_some]
  have hctr : s.deviceCodeCtr = s.freeCtr := by rw [State.deviceCodeCtr, h]; rfl
  rw [State.errorArm, hcode, hctr]
  rfl

theorem goodFramePending_first {s : State} {b : Byte} {p : List Byte} (hg : goodFramePending s (b :: p)) :
    s.rxPayload.read 0 = some b := by
  obtain ⟨-, -, -, hp, -⟩ := hg
  exact memRead_first hp

/-- The row of a code takes the device-error arm on a pending error frame whose payload begins with that code (log 23). -/
theorem deviceErrorRow_of_pending {s : State} {code : Byte} {p : List Byte} (hg : goodFramePending s (code :: p))
    (he : s.rxCmd.getLsbD 7 = true) : s.deviceErrorRow code = .next s.errorArm := by
  have hpending : s.errorPending = true := errorPending_iff.2 ⟨⟨_, hg⟩, he⟩
  have hlen : 1 ≤ s.rxLen.toNat := goodFramePending_length hg ▸ Nat.le_add_left 1 p.length
  simp [State.deviceErrorRow, hpending, hlen, goodFramePending_first hg]

/-- Settles O44: a code's row finds its own code as the first payload byte, so the error arm draws nothing. -/
theorem deviceErrorCodesReachRemoteErr : Obligations.DeviceErrorCodesReachRemoteErr := by
  intro i code s p hi hg he
  rw [exec_deviceErrorRowOf hi, deviceErrorRow_of_pending hg he, errorArm_of_written (goodFramePending_first hg)]

/-! ### Flag fields -/

theorem packField_flags_getElem? (k : Nat) {n j : Nat} (ps : List Nat) (b : List Bool) (h : j < n) :
    (packField k (.flags n ps) (some (.flags b)))[j]? = some (flagByte k ps b j) := by
  simp [packField, h]

/-- Packing puts each flag at the bit its position names (log 44). -/
theorem flagByte_getLsbD_of_flag (k : Nat) {ps : List Nat} {b : List Bool} {i p : Nat} {v : Bool} (hn : ps.Nodup)
    (hp : ps[i]? = some p) (hb : b[i]? = some v) : (flagByte k ps b (p / 8)).getLsbD (p % 8) = v := by
  rw [flagByte_getLsbD _ _ _ _ _ (Nat.mod_lt p (by decide)), Nat.div_add_mod, lookup_zip_of_nodup hn hp hb, Option.getD_some]

theorem flagAt_of_getElem? {r : List Byte} {p : Nat} {x : Byte} (h : r[p / 8]? = some x) :
    flagAt r p = x.getLsbD (p % 8) := by
  rw [flagAt, h, Option.getD_some]

/-- A field short of its bytes makes the whole response `DataInvalid` (44_command_catalogue.md R182). -/
theorem unpack_cons_none {f : FieldType} (fs : List FieldType) {r : List Byte} (hf : unpackField f r = none) :
    unpack (f :: fs) r = none := by
  simp only [unpack, hf]

/-- Settles O60: positions below 8n name bytes of the field, and different positions different bits. -/
theorem flagFieldsPlaceEachFlagAtItsBit : Obligations.FlagFieldsPlaceEachFlagAtItsBit := by
  intro n ps hok
  obtain ⟨-, hlt, hnodup⟩ := flagsOk_iff.1 hok
  refine ⟨fun k b => ⟨packField_length k (f := .flags n ps) nofun _, fun i p v hp hb => ?packed⟩,
    fun r => ⟨fun hle => ⟨ps.map (flagAt r), ?enough, List.length_map _, fun i p x hp hx => ?read⟩, fun hshort => ?short⟩⟩
  case packed =>
    have hbyte : p / 8 < n := Nat.div_lt_of_lt_mul (hlt p (List.mem_of_getElem? hp))
    exact ⟨_, packField_flags_getElem? k ps b hbyte, flagByte_getLsbD_of_flag k hnodup hp hb⟩
  case enough => exact unpack_cons (if_pos hle) rfl
  case read =>
    rw [List.getElem?_map, hp, Option.map_some, flagAt_of_getElem? hx]
  case short => exact unpack_cons_none [] (if_neg (Nat.not_le.2 hshort))

end Sys2Proof.Machine

/-! Proofs about the checksum unit (40_checksum.md): `LRC` as an exclusive-or, `CHK_OK`, and what flipped bits do to it. -/

namespace Sys2Proof.Machine

/-! ### The exclusive-or of a byte string -/

@[simp] theorem lrc_nil : lrc [] = 0#8 := rfl

@[simp] theorem lrc_cons (b : Byte) (s : List Byte) : lrc (b :: s) = b ^^^ lrc s := by
  have hstart : lrc (b :: s) = s.foldl (· ^^^ ·) (b ^^^ 0) := by rw [BitVec.xor_comm]; rfl
  rw [hstart, List.foldl_assoc]
  rfl

theorem lrc_append (s r : List Byte) : lrc (s ++ r) = lrc s ^^^ lrc r := by
  induction s with
  | nil => simp
  | cons b s ih => simp [ih, BitVec.xor_assoc]

theorem lrc_append_self (s : List Byte) : lrc (s ++ [lrc s]) = 0#8 := by simp [lrc_append]

theorem lrc_perm {s r : List Byte} (h : s.Perm r) : lrc s = lrc r := h.foldl_eq 0x00

/-- A byte's bit changes the bit of the checksum exactly when it changes the parity of the count. -/
theorem lrc_getLsbD (s : List Byte) (j : Nat) :
    (lrc s).getLsbD j = decide (s.countP (fun b => b.getLsbD j) % 2 = 1) := by
  induction s with
  | nil => simp
  | cons b s ih =>
    rw [lrc_cons, BitVec.getLsbD_xor, ih, List.countP_cons]
    cases b.getLsbD j with
    | false => simp
    | true => rcases Nat.mod_two_eq_zero_or_one (s.countP fun b => b.getLsbD j) with h | h <;> simp [h, Nat.add_mod]

/-- Changing one byte by `d` changes the checksum by `d`, wherever the byte stands. -/
theorem lrc_xor_byte (pre post : List Byte) (b d : Byte) :
    lrc (pre ++ (b ^^^ d) :: post) = lrc (pre ++ b :: post) ^^^ d := by
  simp only [lrc_append, lrc_cons]
  ac_rfl

/-- Settles O7: each bit by induction over the bytes; the corner cases follow from `lrc_cons` and `lrc_append`. -/
theorem lrcIsTheBitwiseExclusiveOr : Obligations.LrcIsTheBitwiseExclusiveOr :=
  ⟨fun s j _ => lrc_getLsbD s j, lrc_nil, fun b => by simp, lrc_append_self, fun _ _ => lrc_perm, fun _ _ => rfl⟩

/-! ### Validation -/

/-- The row `CHK_OK` with a frame pending whose payload bytes have all been written (R92). -/
theorem exec_chkOk_of_ready {s : State} {p : List Byte} (hr : s.frameReady = true)
    (hp : memRead s.rxPayload 0 s.rxLen.toNat = some p) : exec .chkOk s = .next { s with fnOut := some (.chkOk (chkOk s p)) } := by
  change execChkOk s = _
  simp [execChkOk, hr, hp]

theorem exec_chkOk_of_not_ready {s : State} (hr : s.frameReady = false) : exec .chkOk s = .next s := by
  change execChkOk s = _
  simp [execChkOk, hr]

/-- Settles O8: `CHK_OK` compares `LRC` of the header and payload bytes, which is `CHK_CALC`. -/
theorem chkOkComparesTheRecomputedChecksum : Obligations.ChkOkComparesTheRecomputedChecksum :=
  ⟨fun _ _ hr hp => exec_chkOk_of_ready hr hp, fun _ hr => exec_chkOk_of_not_ready hr⟩

/-- The residue form of R92: a frame is good when all its checked bytes, the checksum among them, cancel. -/
theorem chkOk_iff_lrc_checkedBytes {s : State} {p : List Byte} : chkOk s p = true ↔ lrc (checkedBytes s p) = 0#8 := by
  have hresidue : lrc (checkedBytes s p) = chkCalc s p ^^^ s.rxChk := by
    rw [checkedBytes, lrc_append, lrc_cons s.rxChk, lrc_nil, BitVec.xor_zero]
    rfl
  rw [hresidue, chkOk, beq_iff_eq]
  exact BitVec.xor_eq_zero_iff.symm

theorem one_shiftLeft_ne_zero {j : Nat} (hj : j < 8) : 1#8 <<< j ≠ 0#8 := by
  intro h
  simpa [hj] using congrArg (BitVec.getLsbD · j) h

/-- Settles O9: one flip leaves the flipped bit as the residue of the frame; a second one in that bit cancels it. -/
theorem singleBitFlipsAreDetected : Obligations.SingleBitFlipsAreDetected := by
  intro s s' p p' j hj hok
  have hzero : lrc (checkedBytes s p) = 0#8 := chkOk_iff_lrc_checkedBytes.1 hok
  refine ⟨fun pre post b h h' => ?one, fun pre mid post b c h h' => ?two⟩
  case one =>
    have hres : lrc (checkedBytes s' p') = 1#8 <<< j := by
      rw [h', lrc_xor_byte, ← h, hzero, BitVec.zero_xor]
    rw [← Bool.not_eq_true, chkOk_iff_lrc_checkedBytes, hres]
    exact one_shiftLeft_ne_zero hj
  case two =>
    rw [chkOk_iff_lrc_checkedBytes]
    calc lrc (checkedBytes s' p')
        = lrc (pre ++ b :: (mid ++ c :: post)) ^^^ 1#8 <<< j ^^^ 1#8 <<< j := by
          rw [h', lrc_xor_byte, List.append_assoc, List.cons_append, lrc_xor_byte]
      _ = lrc (checkedBytes s p) := by
          rw [BitVec.xor_assoc, BitVec.xor_self, BitVec.xor_zero, h, List.append_assoc, List.cons_append]
      _ = 0#8 := hzero

end Sys2Proof.Machine

/-! Proofs about the encoder (41_frame_encoder.md): the frame it gives, and what the decoder makes of that frame. -/

namespace Sys2Proof.Machine

/-! ### The row `ENCODE` -/

theorem exec_encode_of_small (s : State) (dest cmd : Byte) {p : List Byte} (h : p.length < 64) :
    exec (.encode dest cmd p) s = .next { s with fnOut := some (.encoded (wireFrame s.cons dest cmd p)) } := by
  change execEncode dest cmd p s = _
  simp only [execEncode, encodeFrame_small h]

theorem exec_encode_of_large (s : State) (dest cmd : Byte) {p : List Byte} (h : 64 ≤ p.length) :
    exec (.encode dest cmd p) s = .next { s with fnOut := some .sizeExceeded } := by
  change execEncode dest cmd p s = _
  simp only [execEncode, encodeFrame_large h]

/-- Settles O10: R100 and R102 are the two branches of `encodeFrame`; the lengths are `wireFrame_length`. -/
theorem encoderBuildsTheFrameOrRefuses : Obligations.EncoderBuildsTheFrameOrRefuses :=
  fun dest cmd p s =>
    ⟨fun h => ⟨exec_encode_of_small s dest cmd h, wireFrame_length s.cons dest cmd p⟩, exec_encode_of_large s dest cmd⟩

/-! ### One fed byte outside the payload (42_frame_decoder.md R112 to R116, R118, R120) -/

section
variable {s : State} (hr : s.frameReady = false)
include hr

theorem execFeed_sync0_hit (hd : s.dstate = .sync0) : execFeed 0x55 s = .next s.feedSyncFirst := by
  simp [execFeed, hr, hd, isSync0]

theorem execFeed_sync1_hit (hd : s.dstate = .sync1) : execFeed 0xAA s = .next s.feedSyncSecond := by
  simp [execFeed, hr, hd, isSync1]

theorem execFeed_dest (hd : s.dstate = .dest) (b : Byte) : execFeed b s = .next (s.feedDestByte b) := by
  simp [execFeed, hr, hd]

theorem execFeed_src (hd : s.dstate = .src) (b : Byte) : execFeed b s = .next (s.feedSrcByte b) := by
  simp [execFeed, hr, hd]

theorem execFeed_cmd (hd : s.dstate = .cmd) (b : Byte) : execFeed b s = .next (s.feedCmdByte b) := by
  simp [execFeed, hr, hd]

theorem execFeed_len_accepted (hd : s.dstate = .len) {b : Byte} (hb : b.toNat ≤ 64) :
    execFeed b s = .next (s.feedLenByte b) := by
  simp [execFeed, hr, hd, lenAccepted_iff.2 hb]

theorem execFeed_chk (hd : s.dstate = .chk) (b : Byte) : execFeed b s = .next (s.feedChkByte b) := by
  simp [execFeed, hr, hd]

end

/-! ### A whole frame, part by part -/

/-- The two sync bytes of a UART frame (R112, R113). -/
theorem feedAll_sync {s : State} (hr : s.frameReady = false) (hd : s.dstate = .sync0) (bs : List Byte) :
    feedAll (0x55 :: 0xAA :: bs) s = feedAll bs { s with dstate := .dest } := by
  rw [feedAll_cons_next (execFeed_sync0_hit hr hd), feedAll_cons_next (execFeed_sync1_hit (s := s.feedSyncFirst) hr rfl)]
  rfl

/-- The two addresses and the command id (R114 to R116). -/
theorem feedAll_header {s : State} (hr : s.frameReady = false) (hd : s.dstate = .dest) (dest src cmd : Byte) (bs : List Byte) :
    feedAll (dest :: src :: cmd :: bs) s =
      feedAll bs { s with rxDest := dest, rxSrc := src, rxCmd := cmd, dstate := .len } := by
  rw [feedAll_cons_next (execFeed_dest hr hd dest), feedAll_cons_next (execFeed_src (s := s.feedDestByte dest) hr rfl src),
    feedAll_cons_next (execFeed_cmd (s := (s.feedDestByte dest).feedSrcByte src) hr rfl cmd)]
  rfl

/-- A payload the decoder accepts has a length its count byte can say. -/
theorem byteCount_toNat {p : List Byte} (h : p.length ≤ 64) : (BitVec.ofNat 8 p.length).toNat = p.length := by
  rw [BitVec.toNat_ofNat, Nat.mod_eq_of_lt (by omega)]

/-- The byte count with the payload it counts, empty or not (R118, R119). -/
theorem feedAll_countedPayload {s : State} (hr : s.frameReady = false) (hd : s.dstate = .len) {p : List Byte}
    (hp : p.length ≤ 64) :
    feedAll (BitVec.ofNat 8 p.length :: p) s = .next { s with
      rxLen := BitVec.ofNat 8 p.length, rxPayload := memWrite s.rxPayload 0 p, dRemain := 0, dstate := .chk } := by
  have hn := byteCount_toNat hp
  rw [feedAll_cons_next (execFeed_len_accepted hr hd (hn.trans_le hp))]
  by_cases h0 : p = []
  · subst h0
    rfl
  · have hne : BitVec.ofNat 8 p.length ≠ 0 := fun h => h0 (List.length_eq_zero_iff.1 (hn ▸ congrArg BitVec.toNat h))
    have hdata : (s.feedLenByte (BitVec.ofNat 8 p.length)).dstate = .data := if_neg hne
    have hrem : (s.feedLenByte (BitVec.ofNat 8 p.length)).dRemain.toNat = p.length := by
      rw [State.feedLenByte_dRemain, BitVec.toNat_setWidth, hn]
      omega
    rw [feedAll_payload p (s.feedLenByte (BitVec.ofNat 8 p.length)) hr hdata h0 hrem hn.ge (hn.trans_le hp),
      State.feedLenByte_rxLen, hn, Nat.sub_self]
    rfl

/-- The checksum byte and the address filter (R120). -/
theorem feedAll_checksum {s : State} (hr : s.frameReady = false) (hd : s.dstate = .chk) (b : Byte) :
    feedAll [b] s = .next { s with
      rxChk := b, dstate := s.init, frameReady := decide (s.rxDest = s.cons.localAddr) } := by
  rw [feedAll_cons_next (execFeed_chk hr hd b), feedChkByte_eq, hr, Bool.false_or]
  rfl

/-- The state after a whole frame: its fields in their registers, the decoder back in `INIT`, and the frame pending when
it is for this node (R114 to R120). -/
def State.received (s : State) (dest src cmd : Byte) (p : List Byte) : State :=
  { s with
    rxDest := dest, rxSrc := src, rxCmd := cmd, rxLen := BitVec.ofNat 8 p.length
    rxPayload := memWrite s.rxPayload 0 p, dRemain := 0
    rxChk := lrc (dest :: src :: cmd :: BitVec.ofNat 8 p.length :: p)
    dstate := s.init, frameReady := decide (dest = s.cons.localAddr) }

/-- From the destination address to the checksum (30_encoding.md R60, R61). -/
theorem feedAll_frameBody {s : State} (hr : s.frameReady = false) (hd : s.dstate = .dest) (dest src cmd : Byte)
    {p : List Byte} (hp : p.length ≤ 64) : feedAll (frameBody dest src cmd p) s = .next (s.received dest src cmd p) := by
  have hpayload := feedAll_countedPayload (s := { s with rxDest := dest, rxSrc := src, rxCmd := cmd, dstate := .len }) hr rfl hp
  rw [frameBody, List.cons_append, List.cons_append, List.cons_append, feedAll_header hr hd,
    feedAll_append hpayload, feedAll_checksum]
  · rfl
  · exact hr
  · rfl

/-- A frame of the receiver's own protocol, fed from `INIT` (R105). -/
theorem feedAll_wireFrame {a : Construction} {s : State} (hproto : a.proto = s.cons.proto) (hd : s.dstate = s.init)
    (hr : s.frameReady = false) (dest cmd : Byte) {p : List Byte} (hp : p.length ≤ 64) :
    feedAll (wireFrame a dest cmd p) s = .next (s.received dest a.localAddr cmd p) := by
  rw [State.init, ← hproto] at hd
  unfold wireFrame
  cases hk : a.proto <;> rw [hk] at hd
  case uart =>
    exact (feedAll_sync hr hd _).trans (feedAll_frameBody (s := { s with dstate := .dest }) hr rfl dest a.localAddr cmd hp)
  case bus => exact feedAll_frameBody hr hd dest a.localAddr cmd hp

/-- The checked bytes of a received frame are the frame as sent, and its checksum cancels them. -/
theorem chkOk_received (s : State) (dest src cmd : Byte) (p : List Byte) : chkOk (s.received dest src cmd p) p = true :=
  chkOk_iff_lrc_checkedBytes.2 (lrc_append_self (dest :: src :: cmd :: BitVec.ofNat 8 p.length :: p))

/-- Settles O11: the frame sent leaves the receiver in `State.received`, whose fields are the ones sent. -/
theorem encodedFramesRoundTripThroughTheDecoder : Obligations.EncodedFramesRoundTripThroughTheDecoder := by
  intro a s dest cmd p hp hproto hd hr
  refine ⟨wireFrame a dest cmd p, s.received dest a.localAddr cmd p, encodeFrame_small hp,
    feedAll_wireFrame hproto hd hr dest cmd hp.le, rfl, fun hlocal => ?_, fun hother => decide_eq_false hother⟩
  exact ⟨decide_eq_true hlocal, rfl, rfl, rfl, byteCount_toNat hp.le, memRead_memWrite s.rxPayload 0 p,
    chkOk_received s dest a.localAddr cmd p⟩

end Sys2Proof.Machine

/-! Proofs about the frame decoder (42_frame_decoder.md): a fed byte and the dispatch row it selects, each decode state's
transition, the bytes left until the decoder is free, and that no step faults where the invariant holds. -/

namespace Sys2Proof.Machine

/-! ### The dispatch rows (log 21) -/

/-- A row whose condition holds takes its transition in its own decode state (log 21). -/
theorem selectRow_of_cond {s : State} {d : DState} {c : Bool} (o : Out) (hr : s.frameReady = false) (hd : s.dstate = d)
    (hc : c = true) : s.selectRow d c o = o := by
  subst hc
  exact selectRow_selected hr hd

theorem selectRow_of_ne {s : State} {d : DState} (c : Bool) (o : Out) (hd : s.dstate ≠ d) :
    s.selectRow d c o = .next s := by
  simp [State.selectRow, hd]

/-- Every dispatch row is a selection by its decode state, and only that of S_DATA can fail to answer. -/
theorem exec_feedRow {i : Instr} {d : DState} (hi : i.port = .feedRow d) (s : State) :
    ∃ c o, exec i s = s.selectRow d c o ∧ ((∃ t, o = .next t) ∨ (d = .data ∧ ∃ b, o = s.feedDataByte b)) := by
  cases i <;> cases hi
  case feedData b => exact ⟨_, _, rfl, .inr ⟨rfl, b, rfl⟩⟩
  all_goals exact ⟨_, _, rfl, .inl ⟨_, rfl⟩⟩

theorem isFeed_cases {i : Instr} (hi : isFeed i = true) : (∃ b, i = .feed b) ∨ ∃ d, i.port = .feedRow d := by
  cases i <;> cases hi
  case feed b => exact .inl ⟨b, rfl⟩
  all_goals exact .inr ⟨_, rfl⟩

theorem execFeed_pending {s : State} (b : Byte) (hr : s.frameReady = true) : execFeed b s = .next s := by
  simp [execFeed, hr]

/-- Settles O12: `FEED` tests `FRAME_READY` first, and so does the selection of a row. -/
theorem fedBytesAreIgnoredWhileAFrameIsPending : Obligations.FedBytesAreIgnoredWhileAFrameIsPending := by
  intro i s hi hr
  rcases isFeed_cases hi with ⟨b, rfl⟩ | ⟨d, hd⟩
  · exact execFeed_pending b hr
  · obtain ⟨c, o, he, -⟩ := exec_feedRow hd s
    rw [he, selectRow_pending hr]

/-! ### The bytes that miss their row's first condition (R112, R113, R117) -/

theorem isSync0_eq_false {b : Byte} (hb : b ≠ 0x55) : isSync0 b = false := beq_eq_false_iff_ne.2 hb

theorem isSync1_eq_false {b : Byte} (hb : b ≠ 0xAA) : isSync1 b = false := beq_eq_false_iff_ne.2 hb

theorem execFeed_sync0_miss {s : State} (hr : s.frameReady = false) (hd : s.dstate = .sync0) {b : Byte} (hb : b ≠ 0x55) :
    execFeed b s = .next s.feedSyncRestart := by
  simp [execFeed, hr, hd, isSync0_eq_false hb]

theorem execFeed_sync1_miss {s : State} (hr : s.frameReady = false) (hd : s.dstate = .sync1) {b : Byte} (hb : b ≠ 0xAA) :
    execFeed b s = .next s.feedSyncRestart := by
  simp [execFeed, hr, hd, isSync1_eq_false hb]

theorem lenAccepted_eq_false {b : Byte} (hb : 64 < b.toNat) : lenAccepted b = false :=
  decide_eq_false (Nat.not_le.2 hb)

theorem execFeed_len_over {s : State} (hr : s.frameReady = false) (hd : s.dstate = .len) {b : Byte} (hb : 64 < b.toNat) :
    execFeed b s = .next s.feedLenOversized := by
  simp [execFeed, hr, hd, lenAccepted_eq_false hb]

/-! ### `FEED` is the row its state and byte select -/

theorem byteCount_ne_zero {b : Byte} (h : 1 ≤ b.toNat) : b ≠ 0 := by
  rintro rfl
  exact absurd h (by decide)

/-- The byte counts a row accepts (R118, R121). -/
theorem inRange_byteCount {b : Byte} : inRange 0x01 0x40 b = true ↔ 1 ≤ b.toNat ∧ b.toNat ≤ 64 := by
  simp [inRange, BitVec.ule]

theorem feedRowOf_len_accepted {b : Byte} (h1 : 1 ≤ b.toNat) (h64 : b.toNat ≤ 64) :
    feedRowOf .len b = .feedLenAccept b :=
  (if_neg (byteCount_ne_zero h1)).trans (if_pos (inRange_byteCount.2 ⟨h1, h64⟩))

theorem feedRowOf_len_over {b : Byte} (hb : 64 < b.toNat) : feedRowOf .len b = .feedLenOver b := by
  have hrange : ¬ inRange 0x01 0x40 b = true := by
    rw [inRange_byteCount]
    omega
  exact (if_neg (byteCount_ne_zero (by omega))).trans (if_neg hrange)

/-- The ranges of the byte count: zero, a payload to come, too large (R117, R118). -/
theorem byteCount_cases (b : Byte) : b = 0 ∨ (1 ≤ b.toNat ∧ b.toNat ≤ 64) ∨ 64 < b.toNat := by
  by_cases h0 : b = 0
  · exact .inl h0
  · have hpos : b.toNat ≠ 0 := fun h => h0 (BitVec.eq_of_toNat_eq h)
    omega

theorem exec_feed_eq_feedRow {s : State} (hr : s.frameReady = false) (b : Byte) :
    exec (.feed b) s = exec (feedRowOf s.dstate b) s := by
  change execFeed b s = _
  cases hd : s.dstate with
  | sync0 =>
    by_cases hb : b = 0x55
    · subst hb
      exact (execFeed_sync0_hit hr hd).trans (selectRow_selected hr hd).symm
    · rw [execFeed_sync0_miss hr hd hb, feedRowOf, if_neg hb]
      exact (selectRow_of_cond _ hr hd (by rw [isSync0_eq_false hb]; rfl)).symm
  | sync1 =>
    by_cases hb : b = 0xAA
    · subst hb
      exact (execFeed_sync1_hit hr hd).trans (selectRow_selected hr hd).symm
    · rw [execFeed_sync1_miss hr hd hb, feedRowOf, if_neg hb]
      exact (selectRow_of_cond _ hr hd (by rw [isSync1_eq_false hb]; rfl)).symm
  | dest => exact (execFeed_dest hr hd b).trans (selectRow_selected hr hd).symm
  | src => exact (execFeed_src hr hd b).trans (selectRow_selected hr hd).symm
  | cmd => exact (execFeed_cmd hr hd b).trans (selectRow_selected hr hd).symm
  | len =>
    rcases byteCount_cases b with rfl | ⟨h1, h64⟩ | hb
    · exact (execFeed_len_accepted hr hd (by decide)).trans (selectRow_selected hr hd).symm
    · have hcond : (lenAccepted b && b != 0) = true :=
        Bool.and_eq_true_iff.2 ⟨lenAccepted_iff.2 h64, bne_iff_ne.2 (byteCount_ne_zero h1)⟩
      rw [execFeed_len_accepted hr hd h64, feedRowOf_len_accepted h1 h64]
      exact (selectRow_of_cond _ hr hd hcond).symm
    · rw [execFeed_len_over hr hd hb, feedRowOf_len_over hb]
      exact (selectRow_of_cond _ hr hd (by rw [lenAccepted_eq_false hb]; rfl)).symm
  | data =>
    have hfeed : execFeed b s = s.feedDataByte b := by simp [execFeed, hr, hd]
    exact hfeed.trans (selectRow_selected hr hd).symm
  | chk => exact (execFeed_chk hr hd b).trans (selectRow_selected hr hd).symm

/-- Settles O13: in each decode state `FEED` answers what the selected row answers; a row of another state is not selected. -/
theorem feedTakesTheDispatchRowItsStateSelects : Obligations.FeedTakesTheDispatchRowItsStateSelects := by
  refine ⟨fun b s hr => exec_feed_eq_feedRow hr b, fun i d s hi hd => ?_⟩
  obtain ⟨c, o, he, -⟩ := exec_feedRow hi s
  rw [he, selectRow_of_ne c o hd]

/-! ### The transitions, state by state -/

/-- What `FEED` of a byte answers, the row the byte selects answers too. -/
theorem exec_feed_and_row {s : State} {d : DState} {b : Byte} {i : Instr} {o : Out} (hr : s.frameReady = false)
    (hd : s.dstate = d) (hi : feedRowOf d b = i) (h : execFeed b s = o) : exec (.feed b) s = o ∧ exec i s = o := by
  subst hd hi
  exact ⟨h, (exec_feed_eq_feedRow hr b).symm.trans h⟩

/-- Settles O14: hit and miss in each of the two sync states. -/
theorem syncSearchFindsTheTwoSyncBytes : Obligations.SyncSearchFindsTheTwoSyncBytes := by
  intro s hr
  refine ⟨fun hd => ?sync0, fun hd => ?sync1⟩
  case sync0 =>
    obtain ⟨hfeed, hrow⟩ := exec_feed_and_row hr hd rfl (execFeed_sync0_hit hr hd)
    exact ⟨hfeed, hrow, fun b hb => exec_feed_and_row hr hd (if_neg hb) (execFeed_sync0_miss hr hd hb)⟩
  case sync1 =>
    obtain ⟨hfeed, hrow⟩ := exec_feed_and_row hr hd rfl (execFeed_sync1_hit hr hd)
    exact ⟨hfeed, hrow, fun b hb => exec_feed_and_row hr hd (if_neg hb) (execFeed_sync1_miss hr hd hb)⟩

/-- Settles O15: one transition per header byte. -/
theorem headerBytesGoToTheirRegisters : Obligations.HeaderBytesGoToTheirRegisters :=
  fun b _ hr =>
    ⟨fun hd => exec_feed_and_row hr hd rfl (execFeed_dest hr hd b), fun hd => exec_feed_and_row hr hd rfl (execFeed_src hr hd b),
      fun hd => exec_feed_and_row hr hd rfl (execFeed_cmd hr hd b)⟩

/-- R118 with a payload to come, as one record update. -/
theorem feedLenByte_of_pos (s : State) {b : Byte} (h : 1 ≤ b.toNat) :
    s.feedLenByte b = { s with rxLen := b, dRemain := BitVec.ofNat 7 b.toNat, dstate := .data } := by
  rw [State.feedLenByte, if_neg (byteCount_ne_zero h), BitVec.ofNat_toNat]

/-- Settles O16: the three ranges of the byte count, each with its row. -/
theorem byteCountIsAcceptedUpToSixtyFour : Obligations.ByteCountIsAcceptedUpToSixtyFour := by
  intro s hr hd
  refine ⟨fun b hb => ?tooLarge, ?zero, fun b h1 h64 => ?accepted⟩
  case tooLarge => exact exec_feed_and_row hr hd (feedRowOf_len_over hb) (execFeed_len_over hr hd hb)
  case zero => exact exec_feed_and_row hr hd rfl (execFeed_len_accepted hr hd (by decide))
  case accepted =>
    rw [← feedLenByte_of_pos s h1]
    exact exec_feed_and_row hr hd (feedRowOf_len_accepted h1 h64) (execFeed_len_accepted hr hd h64)

/-- Settles O17: the byte is written at the next index of the payload, `RX_LEN - D_REMAIN`, and nowhere else. -/
theorem payloadBytesAreStoredInArrivalOrder : Obligations.PayloadBytesAreStoredInArrivalOrder := by
  intro b s hr hd h1 hle h64
  obtain ⟨hfeed, hrow⟩ := exec_feed_and_row hr hd rfl (execFeed_data (b := b) hr hd ⟨h1, hle, h64⟩)
  exact ⟨_, hfeed, hrow, rfl, BitVec.toNat_sub_of_le h1, rfl, Memory.read_write_same s.rxPayload s.dataIndex b,
    fun a ha => Memory.read_write_other s.rxPayload b ha⟩

/-- Settles O18: with no frame pending before, `FRAME_READY` is what the address filter says. -/
theorem checksumByteAppliesTheAddressFilter : Obligations.ChecksumByteAppliesTheAddressFilter := by
  intro b s hr hd
  have h := execFeed_chk hr hd b
  rw [feedChkByte_eq, hr, Bool.false_or] at h
  exact exec_feed_and_row hr hd rfl h

/-! ### The decoder is free again after boundedly many bytes (R122) -/

/-- No frame is pending and the decode state is one a run reaches: a sync state on a UART only, the counter in range. -/
structure State.Decoding (s : State) : Prop where
  notReady : s.frameReady = false
  sync : s.dstate = .sync0 ∨ s.dstate = .sync1 → s.cons.proto = .uart
  data : s.dstate = .data → 1 ≤ s.dRemain.toNat ∧ s.dRemain.toNat ≤ s.rxLen.toNat ∧ s.rxLen.toNat ≤ 64

/-- How many bytes of the longest frame are still to come. -/
def State.bytesLeft (s : State) : Nat :=
  match s.dstate with
  | .sync0 => 71
  | .sync1 => 70
  | .dest => 69
  | .src => 68
  | .cmd => 67
  | .len => 66
  | .data => s.dRemain.toNat + 1
  | .chk => 1

/-- The decoder waits for a new frame, or has received one. -/
def State.decoderFree (s : State) : Prop := s.dstate = s.init ∨ s.frameReady = true

theorem init_of_uart {s : State} (h : s.cons.proto = .uart) : s.init = .sync0 := by rw [State.init, h]; rfl

/-- Every fed byte frees the decoder or brings the end of the frame nearer. -/
theorem State.Decoding.feed {s : State} (h : s.Decoding) (b : Byte) :
    ∃ t, execFeed b s = .next t ∧ (t.decoderFree ∨ (t.Decoding ∧ t.bytesLeft < s.bytesLeft)) := by
  have hr := h.notReady
  unfold State.bytesLeft
  cases hd : s.dstate with
  | sync0 =>
    have huart := h.sync (.inl hd)
    by_cases hb : b = 0x55
    · subst hb
      exact ⟨_, execFeed_sync0_hit hr hd, .inr ⟨⟨hr, fun _ => huart, nofun⟩, Nat.lt_add_one 70⟩⟩
    · exact ⟨_, execFeed_sync0_miss hr hd hb, .inl (.inl (init_of_uart huart).symm)⟩
  | sync1 =>
    have huart := h.sync (.inr hd)
    by_cases hb : b = 0xAA
    · subst hb
      exact ⟨_, execFeed_sync1_hit hr hd, .inr ⟨⟨hr, nofun, nofun⟩, Nat.lt_add_one 69⟩⟩
    · exact ⟨_, execFeed_sync1_miss hr hd hb, .inl (.inl (init_of_uart huart).symm)⟩
  | dest => exact ⟨_, execFeed_dest hr hd b, .inr ⟨⟨hr, nofun, nofun⟩, Nat.lt_add_one 68⟩⟩
  | src => exact ⟨_, execFeed_src hr hd b, .inr ⟨⟨hr, nofun, nofun⟩, Nat.lt_add_one 67⟩⟩
  | cmd => exact ⟨_, execFeed_cmd hr hd b, .inr ⟨⟨hr, nofun, nofun⟩, Nat.lt_add_one 66⟩⟩
  | len =>
    rcases byteCount_cases b with rfl | ⟨h1, h64⟩ | hb
    · exact ⟨_, execFeed_len_accepted hr hd (by decide), .inr ⟨⟨hr, nofun, nofun⟩, (by decide : 1 < 66)⟩⟩
    · have hrem : (BitVec.ofNat 7 b.toNat).toNat = b.toNat := by rw [BitVec.toNat_ofNat]; omega
      refine ⟨_, execFeed_len_accepted hr hd h64, .inr ?_⟩
      rw [feedLenByte_of_pos s h1]
      exact ⟨⟨hr, nofun, fun _ => ⟨h1.trans_eq hrem.symm, hrem.le, h64⟩⟩, by dsimp only; omega⟩
    · exact ⟨_, execFeed_len_over hr hd hb, .inl (.inl rfl)⟩
  | data =>
    obtain ⟨h1, hle, h64⟩ := h.data hd
    have hrem : (s.dRemain - 1).toNat = s.dRemain.toNat - 1 := BitVec.toNat_sub_of_le h1
    refine ⟨_, execFeed_data hr hd ⟨h1, hle, h64⟩, .inr ?_⟩
    by_cases hlast : s.dRemain.toNat = 1
    · rw [if_pos hlast]
      exact ⟨⟨hr, nofun, nofun⟩, by dsimp only; omega⟩
    · rw [if_neg hlast]
      exact ⟨⟨hr, nofun, fun _ => ⟨by dsimp only; omega, by dsimp only; omega, h64⟩⟩, by dsimp only; omega⟩
  | chk =>
    refine ⟨_, execFeed_chk hr hd b, .inl (.inl ?_)⟩
    rw [feedChkByte_eq]
    rfl

/-- So many fed bytes as the longest frame still has free the decoder on the way. -/
theorem State.Decoding.feedAll_frees {s : State} (h : s.Decoding) {bs : List Byte} (hlen : s.bytesLeft ≤ bs.length) :
    ∃ k t, 1 ≤ k ∧ k ≤ bs.length ∧ feedAll (bs.take k) s = .next t ∧ t.decoderFree := by
  induction bs generalizing s with
  | nil =>
    have hpos : 0 < s.bytesLeft := by unfold State.bytesLeft; split <;> omega
    exact absurd hlen (Nat.not_le.2 hpos)
  | cons b bs ih =>
    rw [List.length_cons] at hlen
    obtain ⟨t, ht, hfree | ⟨hdec, hless⟩⟩ := h.feed b
    · exact ⟨1, t, le_rfl, by simp, feedAll_cons_next ht, hfree⟩
    · obtain ⟨k, u, -, hk, hu, hfree⟩ := ih hdec (by omega)
      exact ⟨k + 1, u, by omega, by simpa using hk, (feedAll_cons_next ht).trans hu, hfree⟩

/-- From `S_DEST` on at most 69 bytes are left, and before it the sync bytes more (R122). -/
theorem State.Decoding.bytesLeft_le {s : State} (h : s.Decoding) :
    s.bytesLeft ≤ (if s.dstate = .sync0 then 71 else if s.dstate = .sync1 then 70 else 69) := by
  unfold State.bytesLeft
  cases hd : s.dstate with
  | data =>
    obtain ⟨-, hle, h64⟩ := h.data hd
    exact Nat.succ_le_succ (by omega : s.dRemain.toNat ≤ 68)
  | _ => simp

/-- Settles O19: the bytes left of the longest frame fall with every byte that does not free the decoder. -/
theorem decoderCannotHang : Obligations.DecoderCannotHang := by
  intro s bs hr hsync hdata hlen
  have h : s.Decoding := ⟨hr, hsync, hdata⟩
  exact h.feedAll_frees (hlen ▸ h.bytesLeft_le)

/-! ### No fault where the invariant holds (log 31) -/

/-- Bytes that have all been written can be read (70_reset_and_hazards.md R261). -/
theorem memRead_of_writtenTo {m : Memory} {n : Nat} (h : writtenTo m n) : ∃ p, memRead m 0 n = some p :=
  Option.isSome_iff_exists.1 (memRead_isSome.2 fun a _ ha => h a (by omega))

theorem State.Inv.decoding {s : State} (h : s.Inv) (hr : s.frameReady = false) : s.Decoding where
  notReady := hr
  sync hs := by
    cases hp : s.cons.proto with
    | uart => rfl
    | bus => exact absurd hs (not_or.2 (h.bus hp))
  data hd := by
    obtain ⟨h1, hle, h64, -⟩ := h.data hd
    exact ⟨h1, hle, h64⟩

theorem State.Inv.feed_answers {s : State} (h : s.Inv) (b : Byte) : ∃ t, execFeed b s = .next t := by
  cases hr : s.frameReady with
  | true => exact ⟨s, execFeed_pending b hr⟩
  | false =>
    obtain ⟨t, ht, -⟩ := (h.decoding hr).feed b
    exact ⟨t, ht⟩

/-- R119: the invariant gives the payload byte a place. -/
theorem State.Inv.feedDataByte_answers {s : State} (h : s.Inv) (hd : s.dstate = .data) (b : Byte) :
    ∃ t, s.feedDataByte b = .next t := by
  obtain ⟨h1, hle, h64, -⟩ := h.data hd
  exact ⟨_, if_pos (dataEntry_iff.2 ⟨h1, hle, h64⟩)⟩

theorem State.Inv.feedRow_answers {s : State} (h : s.Inv) {i : Instr} {d : DState} (hi : i.port = .feedRow d) :
    ∃ t, exec i s = .next t := by
  obtain ⟨c, o, he, ho⟩ := exec_feedRow hi s
  rw [he]
  unfold State.selectRow
  split
  · rename_i hsel
    obtain ⟨-, hd, -⟩ := hsel
    rcases ho with ho | ⟨rfl, b, rfl⟩
    · exact ho
    · exact h.feedDataByte_answers hd b
  · exact ⟨s, rfl⟩

/-- The response a `CAT` has been given is read where it has just been copied (44_command_catalogue.md R186). -/
theorem State.Inv.finishCat_answers {s : State} (h : s.Inv) (hs : s.tstate ≠ .idle) (hk : s.tKind = .cat)
    (hw : s.respWritten = true) : ∃ t, s.finishCat = .next t := by
  obtain ⟨-, d, hd, -⟩ := h.catalogue hs hk
  obtain ⟨-, hresp⟩ := h.response hw
  obtain ⟨r, hread⟩ := memRead_of_writtenTo hresp
  rw [finishCat_eq hd hread]
  split <;> exact ⟨_, rfl⟩

theorem State.Inv.successArm_answers {s : State} (h : s.Inv) {p : List Byte} (hg : goodFramePending s p) :
    ∃ t, s.successArm p = .next t := by
  have hwait : s.tstate ≠ .idle := by simp [hg.1]
  unfold State.successArm
  split
  · rename_i hk
    obtain ⟨hbuf, -⟩ := h.catalogue hwait hk
    have hinv := (h.deliver (goodFramePending_length hg) (h.payload_le hg)).clearReady
    rw [deliver_eq] at hinv ⊢
    exact hinv.finishCat_answers hwait hk (if_pos hbuf)
  · exact ⟨_, rfl⟩

/-- Checks (c) to (e) end the `RECV` or lead to the success arm (43_transaction.md R158 to R160). -/
theorem matchResponse_answers {s : State} {p : List Byte} (h : ∃ t, s.successArm p = .next t) :
    ∃ t, s.matchResponse p = .next t := by
  unfold State.matchResponse
  split_ifs
  exacts [⟨_, rfl⟩, ⟨_, rfl⟩, ⟨_, rfl⟩, h]

/-- Checks (a) and (b) end the `RECV` or lead to the others (43_transaction.md R156, R157). -/
theorem State.Inv.poll_answers {s : State} (h : s.Inv) (now : U32) : ∃ t, execPoll now s = .next t := by
  by_cases he : pollEnabled s now = true
  · cases hr : s.frameReady with
    | false => exact ⟨s.timeCheck now, by simp [execPoll, he, hr]⟩
    | true =>
      obtain ⟨hwait, hdue, -⟩ := pollEnabled_iff.1 he
      obtain ⟨-, -, -, hw⟩ := h.pending hr
      obtain ⟨p, hp⟩ := memRead_of_writtenTo hw
      rw [poll_pending he hr hp]
      split
      · exact ⟨_, rfl⟩
      · rename_i hc
        have hg : goodFramePending s p := ⟨hwait, hdue, hr, hp, Bool.eq_true_of_not_eq_false hc⟩
        split
        · exact ⟨_, rfl⟩
        · exact matchResponse_answers (h.successArm_answers hg)
  · exact ⟨s, if_neg he⟩

theorem deviceErrorRow_answers (s : State) (code : Byte) : ∃ t, s.deviceErrorRow code = .next t := by
  unfold State.deviceErrorRow
  split <;> exact ⟨_, rfl⟩

theorem errorResponse_answers (cmd : Byte) (s : State) : ∃ t, execErrorResponse cmd s = .next t := by
  unfold execErrorResponse
  split <;> exact ⟨_, rfl⟩

theorem State.Inv.completion_answers {s : State} (h : s.Inv) {i : Instr} (hi : isCompletion i = true) :
    ∃ t, exec i s = .next t := by
  cases i <;> cases hi
  case poll now => exact h.poll_answers now
  case errorResponse cmd => exact errorResponse_answers cmd s
  all_goals exact deviceErrorRow_answers s _

theorem txdone_answers (ok : Bool) (now : U32) (s : State) : ∃ t, execTxdone ok now s = .next t := by
  unfold execTxdone
  dsimp only
  repeat' split
  all_goals exact ⟨_, rfl⟩

/-- The events of the other agents (00_scope.md R7) and the rows that name a part of one. -/
def isEvent (i : Instr) : Prop :=
  isFeed i = true ∨ isCompletion i = true ∨ i = .reset ∨ (∃ ok now, i = .txdone ok now)

theorem State.Inv.event_answers {s : State} (h : s.Inv) {i : Instr} (hi : isEvent i) : ∃ t, exec i s = .next t := by
  rcases hi with hf | hc | rfl | ⟨ok, now, rfl⟩
  · rcases isFeed_cases hf with ⟨b, rfl⟩ | ⟨d, hd⟩
    · exact h.feed_answers b
    · exact h.feedRow_answers hd
  · exact h.completion_answers hc
  · exact ⟨_, rfl⟩
  · exact txdone_answers ok now s

theorem whenIdle_ne_fault {s : State} {o : Out} {f : Fault} (h : o ≠ .fault f) : whenIdle s o ≠ .fault f := by
  unfold whenIdle
  split
  · exact h
  · exact nofun

theorem startCat_ne_fault (s : State) (desc dest motorCap : Byte) (args : List Arg) (f : Fault) :
    s.startCat desc dest motorCap args ≠ .fault f := by
  unfold State.startCat
  split <;> exact nofun

theorem classTransaction_ne_fault (s : State) (lo hi cmd dest : Byte) (p : List Byte) (hasBuf : Bool) (cap : Byte)
    (f : Fault) : s.classTransaction lo hi cmd dest p hasBuf cap ≠ .fault f := by
  unfold State.classTransaction
  split
  · exact whenIdle_ne_fault nofun
  · exact nofun

/-- A host operation reads no buffer: in no state does it fault. -/
theorem exec_hostOp_ne_fault {i : Instr} (hi : isHostOp i = true) (s : State) (f : Fault) : exec i s ≠ .fault f := by
  cases i <;> cases hi
  case send =>
    refine whenIdle_ne_fault ?_
    split <;> exact nofun
  case recv =>
    refine whenIdle_ne_fault ?_
    dsimp only
    split <;> exact nofun
  case xfer | setTimeout => exact whenIdle_ne_fault nofun
  case cat | getProtocolVersion | custom => exact whenIdle_ne_fault (startCat_ne_fault s _ _ _ _ f)
  case reservedOp5 | reservedOp6 | reservedOp7 => exact nofun
  case classSet54 dest p hasBuf cap => exact classTransaction_ne_fault s 0x54 0x54 0x54 dest p hasBuf cap f
  case classAuxSet64 dest p hasBuf cap => exact classTransaction_ne_fault s 0x64 0x64 0x64 dest p hasBuf cap f
  all_goals exact classTransaction_ne_fault s _ _ _ _ _ _ _ f

/-- The row `CHK_OK` reads a pending frame, whose payload is written. -/
theorem State.Inv.chkOk_ne_fault {s : State} (h : s.Inv) (f : Fault) : exec .chkOk s ≠ .fault f := by
  cases hr : s.frameReady with
  | true =>
    obtain ⟨-, -, -, hw⟩ := h.pending hr
    obtain ⟨p, hp⟩ := memRead_of_writtenTo hw
    rw [exec_chkOk_of_ready hr hp]
    exact nofun
  | false =>
    rw [exec_chkOk_of_not_ready hr]
    exact nofun

/-- The row `UNPACK` reads a response that has been written, or free values. -/
theorem State.Inv.unpack_ne_fault {s : State} (h : s.Inv) (shape : List FieldType) (f : Fault) :
    exec (.unpack shape) s ≠ .fault f := by
  change execUnpack shape s ≠ _
  unfold execUnpack
  split
  · rename_i hw
    obtain ⟨-, hresp⟩ := h.response hw
    obtain ⟨r, hread⟩ := memRead_of_writtenTo hresp
    simp [hread]
  · exact nofun

theorem encode_ne_fault (dest cmd : Byte) (p : List Byte) (s : State) (f : Fault) : exec (.encode dest cmd p) s ≠ .fault f := by
  change execEncode dest cmd p s ≠ _
  unfold execEncode
  split <;> exact nofun

/-- The pure functions: what they read has been written. -/
theorem State.Inv.function_ne_fault {s : State} (h : s.Inv) {i : Instr} {fn : Fn} (hi : i.port = .function fn)
    (f : Fault) : exec i s ≠ .fault f := by
  cases i <;> cases hi
  case lrc | pack => exact nofun
  case chkOk => exact h.chkOk_ne_fault f
  case encode dest cmd p => exact encode_ne_fault dest cmd p s f
  case unpack shape => exact h.unpack_ne_fault shape f

/-- Every instruction is a host operation, a pure function or an event. -/
theorem instr_cases (i : Instr) : isHostOp i = true ∨ (∃ fn, i.port = .function fn) ∨ isEvent i := by
  cases i
  case lrc | chkOk | encode | pack | unpack => exact .inr (.inl ⟨_, rfl⟩)
  case txdone ok now => exact .inr (.inr (.inr (.inr (.inr ⟨ok, now, rfl⟩))))
  case reset => exact .inr (.inr (.inr (.inr (.inl rfl))))
  case poll | errorResponse | deverrWrongChecksum | deverrInvalidCommand | deverrInvalidByteCount | deverrInvalidData
    | deverrDeviceNotInitialized | deverrDeviceCalibrating | deverrMotorStuck | deverrOperationFailed | deverrSaveFailed =>
    exact .inr (.inr (.inr (.inl rfl)))
  case feed | feedSync0Hit | feedSync0Miss | feedSync1Hit | feedSync1Miss | feedDest | feedSrc | feedCmd | feedLenZero
    | feedLenAccept | feedLenOver | feedData | feedChk => exact .inr (.inr (.inl rfl))
  all_goals exact .inl rfl

theorem State.Inv.exec_ne_fault {s : State} (h : s.Inv) (i : Instr) (f : Fault) : exec i s ≠ .fault f := by
  rcases instr_cases i with hi | ⟨fn, hi⟩ | hi
  · exact exec_hostOp_ne_fault hi s f
  · exact h.function_ne_fault hi f
  · obtain ⟨t, ht⟩ := h.event_answers hi
    rw [ht]
    exact nofun

theorem takeOther_ne_fault (s : State) (e : Input) (why : Reject) (f : Fault) : s.takeOther e why ≠ .fault f := by
  unfold State.takeOther
  split <;> exact nofun

/-- Settles O31: the invariant gives every read its bytes and every payload byte its place. -/
theorem noFaultFromAStateThatMeetsTheInvariant : Obligations.NoFaultFromAStateThatMeetsTheInvariant := by
  intro s h
  refine ⟨fun f => ?_, fun i hi => h.event_answers hi⟩
  unfold step
  split
  · exact nofun
  · split
    · exact (h.afterTaking _).exec_ne_fault _ f
    · exact takeOther_ne_fault _ _ _ f

end Sys2Proof.Machine

/-! Proofs about the transactions (43_transaction.md): the send half and its checks, the answer to a transmit, the start of a
receive, the polls and the completion of a receive, and whole operations. -/

namespace Sys2Proof.Machine

/-! ### The ends of an operation -/

/-- `RESULT` is written where an operation ends, and an operation ends only there or by `RESET` (43_transaction.md R166). -/
theorem exec_result {i : Instr} {s t : State} (h : exec i s = .next t) :
    i = .reset ∨ (t.tstate = .idle ∧ t.resultWritten = true ∧ t.strobes.done = true) ∨
      (t.result = s.result ∧ (t.tstate = .idle → s.tstate = .idle)) := by
  cases exec_effect h with
  | resets hi => exact .inl hi
  | hostFails | recvFails | setsTimeout | txFails | txEndsSend | timesOut | mismatch | deviceError | unmatched | accepted =>
    exact .inr (.inl ⟨rfl, rfl, rfl⟩)
  | transmits | recvStarts | txStartsReceive => exact .inr (.inr ⟨rfl, nofun⟩)
  | dataByte b t hi hr hd ht =>
    obtain ⟨-, rfl⟩ := feedDataByte_next ht
    exact .inr (.inr ⟨rfl, id⟩)
  | chkByte b =>
    rw [feedChkByte_eq]
    exact .inr (.inr ⟨rfl, id⟩)
  | _ => exact .inr (.inr ⟨rfl, id⟩)

/-- Settles O28: a state that is neither an end nor a `RESET` keeps `RESULT`, and leaves an operation in progress. -/
theorem anOperationEndsExactlyWithAResult : Obligations.AnOperationEndsExactlyWithAResult := by
  intro i s t h
  rcases exec_result h with hi | ⟨hidle, hw, hd⟩ | ⟨hres, hbusy⟩
  · exact ⟨fun _ _ => .inl hi, fun _ => .inl hi⟩
  · exact ⟨fun _ _ => .inr ⟨hw, hd⟩, fun _ => .inr ⟨hidle, hd⟩⟩
  · exact ⟨fun hs ht => absurd (hbusy ht) hs, fun hne => absurd hres hne⟩

/-! ### The send half (43_transaction.md R140 to R145) -/

theorem exec_send_of_idle {s : State} (hs : s.tstate = .idle) (ho : s.sendOpen = false) (dest cmd : Byte) (p : List Byte) :
    exec (.send dest cmd p) s = .next ((s.latchSend dest cmd).sendHalf dest cmd p) := by
  change whenIdle s _ = _
  rw [whenIdle_idle hs, ho]
  rfl

theorem exec_xfer_of_idle {s : State} (hs : s.tstate = .idle) (dest cmd : Byte) (p : List Byte) (hasBuf : Bool) (cap : Byte) :
    exec (.xfer dest cmd p hasBuf cap) s = .next ((s.latchXfer dest cmd hasBuf cap).sendHalf dest cmd p) :=
  whenIdle_idle hs

theorem classTransaction_of_idle {s : State} (hs : s.tstate = .idle) {lo hi cmd : Byte} (hc : inRange lo hi cmd = true)
    (dest : Byte) (p : List Byte) (hasBuf : Bool) (cap : Byte) :
    s.classTransaction lo hi cmd dest p hasBuf cap = .next (s.startXfer dest cmd p hasBuf cap) := by
  unfold State.classTransaction
  rw [if_pos hc, whenIdle_idle hs]

/-- The row of the first range names its ids from 1 on; the range begins at 0 (30_encoding.md R70). -/
theorem inRange_zero {lo hi b : Byte} (h : inRange lo hi b = true) : inRange 0x00 hi b = true := by
  obtain ⟨-, hle⟩ := Bool.and_eq_true_iff.1 h
  exact Bool.and_eq_true_iff.2 ⟨decide_eq_true (Nat.zero_le b.toNat), hle⟩

/-- A row of the command id ranges is an `XFER` with an id of its range (30_encoding.md R70; log 22). -/
theorem exec_transaction_of_idle {i : Instr} {s : State} {dest cmd : Byte} {p : List Byte} {hasBuf : Bool} {cap : Byte}
    (hi : transactionOf i = some (dest, cmd, p, hasBuf, cap)) (hwf : i.wf = true) (hs : s.tstate = .idle) :
    exec i s = .next ((s.latchXfer dest cmd hasBuf cap).sendHalf dest cmd p) := by
  cases i <;> cases hi
  case xfer => exact exec_xfer_of_idle hs dest cmd p hasBuf cap
  case classGet => exact classTransaction_of_idle hs (inRange_zero (Bool.and_eq_true_iff.1 hwf).1) dest p hasBuf cap
  case classSet54 => exact classTransaction_of_idle (cmd := 0x54) hs (lo := 0x54) (hi := 0x54) rfl dest p hasBuf cap
  case classAuxSet64 => exact classTransaction_of_idle (cmd := 0x64) hs (lo := 0x64) (hi := 0x64) rfl dest p hasBuf cap
  all_goals exact classTransaction_of_idle hs (Bool.and_eq_true_iff.1 hwf).1 dest p hasBuf cap

/-- The checks of the send half in their order; each ends the operation before anything is encoded (43_transaction.md
R141 to R144). -/
theorem fails_of_sendHalf {o : Out} {s : State} {dest cmd : Byte} {p : List Byte} (h : o = .next (s.sendHalf dest cmd p)) :
    (s.cons.capSend = false → o = .next (endOfOp s .invalidContext)) ∧
    (s.cons.capSend = true → (s.cons.capNow = false ∨ s.cons.capDelay = false) → o = .next (endOfOp s .timerNotSet)) ∧
    (canSend s → 64 ≤ p.length → o = .next (endOfOp s .dataTooLarge)) := by
  subst h
  unfold State.sendHalf
  refine ⟨fun hsend => ?transport, fun hsend hclock => ?clock, fun ⟨hsend, hclock⟩ hp => ?payload⟩
  case transport => exact congrArg Host.Outcome.next (if_pos hsend)
  case clock =>
    have hno : Construction.hasClock s.cons = false := by rcases hclock with h | h <;> simp [Construction.hasClock, h]
    rw [if_neg (by simp [hsend]), if_pos hno]
    rfl
  case payload =>
    rw [if_neg (by simp [hsend]), if_neg (by simp [hasClock_iff.2 hclock]), encodeFrame_large hp]
    rfl

theorem sendHalf_tstate {s : State} {dest cmd : Byte} {p : List Byte} (hc : canSend s) (hp : p.length < 64) :
    (s.sendHalf dest cmd p).tstate = .tx := by
  rw [sendHalf_transmits hc hp, State.transmit_tstate]

/-- A frame of a payload below 64 bytes is handed to the transmitter (43_transaction.md R145). -/
theorem requested_of_sendHalf {o : Out} {s : State} {dest cmd : Byte} {p : List Byte}
    (h : o = .next (s.sendHalf dest cmd p)) (hc : canSend s) (hp : p.length < 64) :
    ∃ t, o = .next t ∧ frameRequested s t dest (wireFrame s.cons dest cmd p) := by
  obtain ⟨-, hlen⟩ := wireFrame_length_bounds s.cons dest cmd p
  exact ⟨_, sendHalf_transmits hc hp ▸ h, transmit_frameRequested s dest (by omega)⟩

/-- Settles O34: `SEND` is its send half on the latched operands. -/
theorem sendHandsTheFrameToTheTransmitter : Obligations.SendHandsTheFrameToTheTransmitter :=
  fun dest cmd p _ hs ho hc hp => requested_of_sendHalf (exec_send_of_idle hs ho dest cmd p) hc hp

/-- Settles O36: a transaction is the send half of an `XFER` on the latched operands. -/
theorem transactionsHandTheirFrameToTheTransmitter : Obligations.TransactionsHandTheirFrameToTheTransmitter :=
  fun _ _ _ _ _ _ _ hi hwf hs hc hp => requested_of_sendHalf (exec_transaction_of_idle hi hwf hs) hc hp

/-- Settles O37: `SEND` and the transactions fail as their send half does. -/
theorem transactionsFailAsSendDoes : Obligations.TransactionsFailAsSendDoes :=
  ⟨fun dest cmd p _ hs ho => fails_of_sendHalf (exec_send_of_idle hs ho dest cmd p),
    fun _ _ _ _ _ _ _ hi hwf hs => fails_of_sendHalf (exec_transaction_of_idle hi hwf hs)⟩

/-- Settles O33: the first and the last check of the send half, and the transmit past them. -/
theorem sendFailsWithoutTransportOrWithALargePayload : Obligations.SendFailsWithoutTransportOrWithALargePayload := by
  intro dest cmd p s hs ho
  have hsend := exec_send_of_idle hs ho dest cmd p
  obtain ⟨htransport, -, hpayload⟩ := fails_of_sendHalf hsend
  refine ⟨fun hc => ⟨_, htransport hc, rfl⟩, fun hc hp => ⟨_, hpayload hc hp, rfl⟩,
    fun hc hp => ⟨_, hsend, sendHalf_tstate (s := s.latchSend dest cmd) hc hp⟩⟩

/-! ### The answer to a transmit, and the start of a receive (43_transaction.md R146, R150) -/

theorem exec_txdone_failed {s : State} (hs : s.tstate = .tx) (now : U32) :
    exec (.txdone false now) s = .next (s.clearReady.raise .remoteTransportError) :=
  if_pos hs

theorem exec_txdone_ends_send {s : State} (hs : s.tstate = .tx) (hk : s.tKind = .send) (now : U32) :
    exec (.txdone true now) s = .next { s.clearReady.raise .success with sendOpen := true } :=
  (if_pos hs).trans (if_pos hk)

theorem exec_txdone_starts_receive {s : State} (hs : s.tstate = .tx) (hk : s.tKind ≠ .send) (now : U32) :
    exec (.txdone true now) s = .next (s.clearReady.startReceive s.cfgTimeoutMs now) :=
  (if_pos hs).trans (if_neg hk)

/-- Settles O38: one branch of `TXDONE` for each answer and kind of operation. -/
theorem txdoneEndsTheSendOrStartsTheReceive : Obligations.TxdoneEndsTheSendOrStartsTheReceive :=
  fun now _ hs =>
    ⟨exec_txdone_failed hs now, fun hk => exec_txdone_ends_send hs hk now, fun hk => exec_txdone_starts_receive hs hk now⟩

/-- The operands of a `RECV` latched at its start (43_transaction.md R140, R150). -/
def State.latchRecv (s : State) (dest cmd : Byte) (hasBuf : Bool) (cap : Byte) : State :=
  { s with tKind := .recv, tDest := dest, tCmd := cmd, tHasBuf := hasBuf, tCap := cap }

theorem exec_recv_of_clock {s : State} (hs : s.tstate = .idle) (hc : Construction.hasClock s.cons = true) (dest cmd : Byte)
    (timeoutMs : U32) (hasBuf : Bool) (cap : Byte) (now : U32) :
    exec (.recv dest cmd timeoutMs hasBuf cap now) s =
      .next ((s.latchRecv dest cmd hasBuf cap).startReceive timeoutMs now) :=
  (whenIdle_idle hs).trans (if_neg (by simp [hc]))

theorem exec_recv_of_no_clock {s : State} (hs : s.tstate = .idle) (hc : Construction.hasClock s.cons = false)
    (dest cmd : Byte) (timeoutMs : U32) (hasBuf : Bool) (cap : Byte) (now : U32) :
    exec (.recv dest cmd timeoutMs hasBuf cap now) s = .next (endOfRecv { s with tKind := .recv } .timerNotSet) :=
  (whenIdle_idle hs).trans (if_pos hc)

theorem hasClock_eq_false_iff {c : Construction} :
    Construction.hasClock c = false ↔ c.capNow = false ∨ c.capDelay = false := Bool.and_eq_false_iff

/-- Settles O39: with both clock capabilities and without. -/
theorem recvStartsWaitingOrNeedsAClock : Obligations.RecvStartsWaitingOrNeedsAClock :=
  fun dest cmd timeoutMs hasBuf cap now _ hs =>
    ⟨fun hnow hdelay => exec_recv_of_clock hs (hasClock_iff.2 ⟨hnow, hdelay⟩) dest cmd timeoutMs hasBuf cap now,
      fun hc => exec_recv_of_no_clock hs (hasClock_eq_false_iff.2 hc) dest cmd timeoutMs hasBuf cap now⟩

/-! ### Inputs that take no step (43_transaction.md R146, R152; log 2, log 3) -/

theorem exec_poll_of_not_enabled {s : State} {now : U32} (he : pollEnabled s now = false) :
    exec (.poll now) s = .next s :=
  if_neg (Bool.eq_false_iff.1 he)

/-- A state all of whose inputs are held stays (93_implementation_defined.md U13; log 4). -/
theorem step_of_only_input_held {s : State} {e : Input} (hin : s.inbox = [e]) (he : held s e = true) : step s = .next s := by
  simp [step, hin, firstTaken, he]

theorem held_of_reserved {i : Instr} (s : State) {e : Input} (hd : e.decode = .ok i) (hi : isHostOp i = true)
    (hr : isReserved i = true) : held s e = true := by
  simp [held, hd, hi, accepts, hr]

/-- Settles O6: a reserved code is held in every state, and the two events test the sequencer state first. -/
theorem inputsThatAreNeverOrNotYetEnabledTakeNoStep : Obligations.InputsThatAreNeverOrNotYetEnabledTakeNoStep := by
  refine ⟨?reserved, fun ok now s hs => ?txdone, fun now s hs => ?poll⟩
  case reserved =>
    rintro i s (rfl | rfl | rfl)
    all_goals exact ⟨rfl, fun hin => step_of_only_input_held hin (held_of_reserved s rfl rfl rfl)⟩
  case txdone => exact if_neg hs
  case poll => exact exec_poll_of_not_enabled (by simp [pollEnabled, hs])

/-! ### The clock and the delay between polls (43_transaction.md R151, R154) -/

/-- The clock is modular (43_transaction.md R154; D8). -/
theorem toNat_elapsed (now since : U32) : (now - since).toNat = (now.toNat + (2 ^ 32 - since.toNat)) % 2 ^ 32 := by
  rw [BitVec.toNat_sub, Nat.add_comm]

theorem exec_poll_of_no_frame {s : State} {now : U32} (he : pollEnabled s now = true) (hr : s.frameReady = false) :
    exec (.poll now) s = .next (s.timeCheck now) :=
  (if_pos he).trans (if_neg (Bool.eq_false_iff.1 hr))

theorem timedOut_iff {s : State} {now : U32} : s.timedOut now = true ↔ s.tTimeout.toNat < (now - s.tStart).toNat :=
  decide_eq_true_iff

/-- Settles O40: the two outcomes of the time check. -/
theorem pollTimesOutWhenElapsedExceedsTheTimeout : Obligations.PollTimesOutWhenElapsedExceedsTheTimeout := by
  intro now s he hr
  dsimp only
  rw [exec_poll_of_no_frame he hr, ← toNat_elapsed]
  unfold State.timeCheck
  refine ⟨fun h => ?late, fun h => ?inTime⟩
  case late =>
    rw [if_pos (timedOut_iff.2 h)]
    rfl
  case inTime =>
    rw [if_neg (mt timedOut_iff.1 (not_lt.2 h))]
    rfl

theorem pollSpaced_ended {s : State} {since : U32} (hd : s.delay = .ended since) (now : U32) :
    pollSpaced s now = true ↔ (s.cons.clockAgrees = true → 1 ≤ (now - since).toNat) := by
  have hms : pollMs.ule (now - since) = true ↔ 1 ≤ (now - since).toNat := decide_eq_true_iff
  unfold pollSpaced
  rw [hd]
  cases s.cons.clockAgrees <;> simp [hms]

/-- When a `POLL` is enabled, by where the delay stands (43_transaction.md R151, R152; log 45). -/
theorem pollEnabled_iff_delay {s : State} {now : U32} :
    pollEnabled s now = true ↔ s.tstate = .wait ∧
      (s.delay = .idle ∨ ∃ since : U32, s.delay = .ended since ∧ (s.cons.clockAgrees = true → 1 ≤ (now - since).toNat)) := by
  rw [pollEnabled_iff]
  refine and_congr_right fun _ => ?_
  cases hd : s.delay with
  | idle => simp [pollDue, pollSpaced, hd]
  | running since => simp [pollDue, hd]
  | ended since => simp [pollDue, pollSpaced_ended hd, hd]

theorem errorPending_of_running {s : State} {since : U32} (hd : s.delay = .running since) : s.errorPending = false := by
  simp [State.errorPending, pollDue, hd]

theorem deviceErrorRow_of_running {s : State} {since : U32} (hd : s.delay = .running since) (code : Byte) :
    s.deviceErrorRow code = .next s := by
  simp [State.deviceErrorRow, errorPending_of_running hd]

/-- While the delay runs, neither a `POLL` nor a row of its device-error arm takes a step (43_transaction.md R151; log 45). -/
theorem exec_completion_of_running {i : Instr} {s : State} {since : U32} (hi : isCompletion i = true)
    (hd : s.delay = .running since) : exec i s = .next s := by
  cases i <;> cases hi
  case poll now => exact exec_poll_of_not_enabled (by simp [pollEnabled, pollDue, hd])
  case errorResponse cmd =>
    change execErrorResponse cmd s = _
    simp [execErrorResponse, errorPending_of_running hd]
  all_goals exact deviceErrorRow_of_running hd _

/-- `delay_done` is no instruction, so no command port holds it, and the step takes it (60_exceptions.md R243; log 45). -/
theorem step_takes_delay {s : State} {before after : List Input} {bytes : List Byte}
    (hin : s.inbox = before ++ ⟨.delay, bytes⟩ :: after) (hb : ∀ x ∈ before, held s x = true) :
    step s = .next (s.afterTaking (before ++ after)).delayOver := by
  unfold step
  rw [hin, firstTaken_append hb rfl]
  rfl

theorem delayOver_of_running {s : State} {since : U32} (hd : s.delay = .running since) :
    s.delayOver = { s.strobePump with delay := .ended since } := by
  unfold State.delayOver
  rw [hd]

theorem delayOver_of_not_running {s : State} (hd : ∀ since, s.delay ≠ .running since) : s.delayOver = s := by
  rcases State.delayOver_cases s with ⟨since, h, -⟩ | ⟨-, h⟩
  · exact absurd h (hd since)
  · exact h

/-- Settles O41: when a `POLL` is enabled, what takes no step before then, and what `delay_done` does. -/
theorem pollWaitsForTheRequestedDelay : Obligations.PollWaitsForTheRequestedDelay := by
  refine ⟨fun now s => ?enabled, fun now s => exec_poll_of_not_enabled, fun i since s => exec_completion_of_running,
    fun s before after bytes hin hb => ?delayDone⟩
  case enabled => simp only [pollEnabled_iff_delay, toNat_elapsed]
  case delayDone =>
    rw [step_takes_delay hin hb]
    exact ⟨fun since hd => congrArg Host.Outcome.next (delayOver_of_running (s := s.afterTaking (before ++ after)) hd),
      fun hd => congrArg Host.Outcome.next (delayOver_of_not_running (s := s.afterTaking (before ++ after)) hd)⟩

/-! ### The completion of a receive (43_transaction.md R155 to R161) -/

theorem exec_poll_of_mismatch {s : State} {p : List Byte} {now : U32} (he : pollEnabled s now = true)
    (hr : s.frameReady = true) (hp : memRead s.rxPayload 0 s.rxLen.toNat = some p) (hc : chkOk s p = false) :
    exec (.poll now) s = .next (s.raiseRecv .checksumMismatch) :=
  (poll_pending he hr hp).trans (if_pos hc)

/-- Settles O42: check (a) comes first, and its end writes no `FRAME_READY`. -/
theorem pollReportsAWrongChecksumAndKeepsTheFrame : Obligations.PollReportsAWrongChecksumAndKeepsTheFrame :=
  fun _ _ _ he hr hp hne => exec_poll_of_mismatch he hr hp (beq_eq_false_iff_ne.2 hne)

theorem exec_poll_of_error {s : State} {p : List Byte} {now : U32} (he : pollEnabled s now = true) (hg : goodFramePending s p)
    (hbit : s.rxCmd.getLsbD 7 = true) : exec (.poll now) s = .next s.errorArm :=
  (poll_good he hg).trans (if_pos hbit)

theorem exec_errorResponse_of_error {s : State} {p : List Byte} (hg : goodFramePending s p) (hbit : s.rxCmd.getLsbD 7 = true) :
    exec (.errorResponse s.rxCmd) s = .next s.errorArm := by
  change execErrorResponse s.rxCmd s = _
  simp [execErrorResponse, errorPending_iff.2 ⟨⟨p, hg⟩, hbit⟩]

/-- The device-error arm as one record update, where nothing has written the first payload byte: `REMOTE_ERR` takes a free
value (93_implementation_defined.md U3; log 10). -/
theorem errorArm_of_unwritten {s : State} (h : s.rxPayload.read 0 = none) :
    s.errorArm =
      { endOfRecv s .handError with
        frameReady := false, remoteErr := Config.freeByte s.freeCtr, remoteErrWritten := true, freeCtr := s.freeCtr + 1 } := by
  have hcode : s.deviceCode = Config.freeByte s.freeCtr := by rw [State.deviceCode, h, Option.getD_none]
  have hctr : s.deviceCodeCtr = s.freeCtr + 1 := by rw [State.deviceCodeCtr, h]; rfl
  rw [State.errorArm, hcode, hctr]
  rfl

/-- Settles O43: both instructions take the device-error arm, which reads the first payload byte. -/
theorem deviceErrorIsCapturedBeforeAddressAndCommand : Obligations.DeviceErrorIsCapturedBeforeAddressAndCommand := by
  intro i s p hg hbit hi
  have harm : exec i s = .next s.errorArm := by
    rcases hi with ⟨now, rfl, he⟩ | rfl
    · exact exec_poll_of_error he hg hbit
    · exact exec_errorResponse_of_error hg hbit
  rw [harm]
  exact ⟨fun b hb => by rw [errorArm_of_written hb], fun hb => by rw [errorArm_of_unwritten hb]⟩

theorem exec_poll_of_response {s : State} {p : List Byte} {now : U32} (he : pollEnabled s now = true)
    (hg : goodFramePending s p) (hbit : s.rxCmd.getLsbD 7 = false) : exec (.poll now) s = s.matchResponse p :=
  poll_matches he hg hbit

/-- Settles O46: checks (c), (d) and (e), each where those before it pass. -/
theorem addressIsCheckedBeforeCommandAndBufferSize : Obligations.AddressIsCheckedBeforeCommandAndBufferSize := by
  intro now s p he hg hbit
  rw [exec_poll_of_response he hg hbit]
  exact ⟨matchResponse_address, fun haddr => ⟨matchResponse_command haddr, matchResponse_buffer haddr⟩⟩

/-- A response that passes every check ends in none of the results of the checks (43_transaction.md R161). -/
theorem successArm_result {s t : State} {p : List Byte} (h : s.successArm p = .next t) :
    t.result = .success ∨ t.result = .dataInvalid ∨ t.result = .sizeTooBig := by
  unfold State.successArm at h
  split at h
  · obtain ⟨x, out, rfl, hx, -⟩ := finishCat_next h
    exact hx
  · cases h
    exact .inl rfl

/-- Check (c) alone reports an unmatched address (43_transaction.md R158). -/
theorem matchResponse_result_ne_unmatchedAddress {s t : State} {p : List Byte}
    (haddr : s.rxSrc = s.tDest ∨ s.tDest = s.cons.broadcastAddr) (h : s.matchResponse p = .next t) :
    t.result ≠ .unmatchedAddress := by
  unfold State.matchResponse at h
  rw [if_neg (by tauto)] at h
  split_ifs at h
  · cases h
    exact nofun
  · cases h
    exact nofun
  · rcases successArm_result h with hx | hx | hx <;> simp [hx]

/-- Settles O45: such a `POLL` is enabled, so it finds the good frame and answers by check (c). -/
theorem responseFromAnotherSourceIsUnmatchedAddress : Obligations.ResponseFromAnotherSourceIsUnmatchedAddress := by
  intro now s p hs hr hp hc hbit htakes
  have he : pollEnabled s now = true := by
    rcases htakes with hd | hne
    · exact pollEnabled_idle now hs hd
    · by_contra hn
      exact hne (exec_poll_of_not_enabled (Bool.eq_false_iff.2 hn))
  obtain ⟨-, hdue, -⟩ := pollEnabled_iff.1 he
  rw [exec_poll_of_response he ⟨hs, hdue, hr, hp, hc⟩ hbit]
  exact ⟨fun h1 h2 => ⟨_, matchResponse_address h1 h2, rfl⟩,
    fun haddr t => matchResponse_result_ne_unmatchedAddress haddr⟩

theorem successArm_of_not_cat {s : State} (hk : s.tKind ≠ .cat) (p : List Byte) :
    s.successArm p = .next { endOfRecv (s.deliver p) .success with frameReady := false } :=
  if_neg hk

/-- Settles O47: every check passes, so the payload is delivered and the frame consumed. -/
theorem acceptedResponseIsCopiedAndConsumed : Obligations.AcceptedResponseIsCopiedAndConsumed := by
  intro now s p he hg ha h64 hk
  have hend : exec (.poll now) s = _ := (poll_accepted he hg ha).trans (successArm_of_not_cat hk p)
  refine ⟨fun hb => ?_, fun hb => ⟨s.deliver p, ?_, hend⟩⟩
  · rw [hend, deliver_none hb]
  · exact deliver_responseCopied hb (goodFramePending_length hg).symm h64

/-- No instruction writes the construction parameters (10_state.md R30). -/
theorem exec_cons {i : Instr} {s t : State} (h : exec i s = .next t) : t.cons = s.cons := by
  cases exec_effect h with
  | dataByte b t hi hr hd ht =>
    obtain ⟨-, rfl⟩ := feedDataByte_next ht
    rfl
  | chkByte b => rw [feedChkByte_eq]
  | accepted => rw [deliver_eq]; rfl
  | _ => rfl

/-- A `POLL` that finds no frame and ends the operation has put the decoder in `INIT` (43_transaction.md R154). -/
theorem timeCheck_ends {s : State} {now : U32} (hs : s.tstate = .wait) (hidle : (s.timeCheck now).tstate = .idle) :
    s.timeCheck now = { s with dstate := s.init }.raiseRecv .timeout := by
  unfold State.timeCheck at hidle ⊢
  split at hidle
  · rw [if_pos ‹_›]
  · exact absurd (hs.symm.trans hidle) nofun

/-- A `POLL` on a pending frame writes no decode state (43_transaction.md R162). -/
theorem exec_poll_dstate_of_pending {s t : State} {now : U32} (hr : s.frameReady = true) (h : exec (.poll now) s = .next t) :
    t.dstate = s.dstate := by
  rcases exec_decoder h with ⟨hi, -⟩ | hi | ⟨-, hd | ⟨_, -, -, hr', -⟩⟩
  · cases hi
  · cases hi
  · exact hd
  · exact absurd (hr'.symm.trans hr) Bool.false_ne_true

/-- Settles O49: a `POLL` that ends on no frame puts the decoder in `INIT`; one that ends on a pending frame finds it there and,
unless the checksum is wrong, consumes the frame. -/
theorem everyOtherEndLeavesTheDecoderFree : Obligations.EveryOtherEndLeavesTheDecoderFree := by
  intro now s t hinv hs h hidle hres
  have he : pollEnabled s now = true := by
    by_contra hn
    cases (exec_poll_of_not_enabled (Bool.eq_false_iff.2 hn)).symm.trans h
    exact absurd (hs.symm.trans hidle) nofun
  cases hr : s.frameReady with
  | false =>
    cases (exec_poll_of_no_frame he hr).symm.trans h
    rw [timeCheck_ends hs hidle]
    exact ⟨hr, rfl⟩
  | true =>
    obtain ⟨hinit, -⟩ := hinv.pending hr
    refine ⟨?_, ?_⟩
    · rcases exec_pending_frame h hr with ⟨-, hx⟩ | ⟨ht, -⟩
      · exact absurd (hx hs hidle) hres
      · exact ht
    · rw [exec_poll_dstate_of_pending hr h, hinit, State.init, State.init, exec_cons h]

/-! ### Whole operations (43_transaction.md R156, R163) -/

theorem runAll_cons_next {i : Instr} {s t : State} (h : exec i s = .next t) (is : List Instr) :
    runAll (i :: is) s = runAll is t := by
  rw [runAll, h]

/-- A `RECV` on a pending frame whose checksum is wrong ends at its first `POLL`, and leaves the decoder as it is
(43_transaction.md R156; D11). -/
theorem runAll_recv_poll_mismatch {s : State} {p : List Byte} (hs : s.tstate = .idle)
    (hclock : Construction.hasClock s.cons = true) (hr : s.frameReady = true)
    (hp : memRead s.rxPayload 0 s.rxLen.toNat = some p) (hc : chkOk s p = false) (dest cmd : Byte) (timeoutMs : U32)
    (hasBuf : Bool) (cap : Byte) (now0 now1 : U32) :
    ∃ t, runAll [.recv dest cmd timeoutMs hasBuf cap now0, .poll now1] s = .next t ∧ t.tstate = .idle ∧
      t.result = .checksumMismatch ∧ sameDecoder s t ∧ t.sendOpen = false ∧ t.cons = s.cons := by
  have hpoll := exec_poll_of_mismatch (s := (s.latchRecv dest cmd hasBuf cap).startReceive timeoutMs now0)
    (pollEnabled_idle now1 rfl rfl) hr hp hc
  rw [runAll_cons_next (exec_recv_of_clock hs hclock dest cmd timeoutMs hasBuf cap now0), runAll_cons_next hpoll]
  refine ⟨_, rfl, rfl, rfl, ?_, rfl, ?_⟩
  · simp [sameDecoder, sameDecodeBuffer, State.latchRecv]
  · simp [State.latchRecv]

/-- An operation that transmits has no frame pending once the transmit is answered (43_transaction.md R146; D10). -/
theorem runAll_txdone_clears {i : Instr} {s t : State} (h : exec i s = .next t) (ht : t.tstate = .tx) (ok : Bool) (now : U32) :
    ∃ u, runAll [i, .txdone ok now] s = .next u ∧ u.frameReady = false := by
  obtain ⟨u, hu⟩ := txdone_answers ok now t
  have hdone : exec (.txdone ok now) t = .next u := hu
  refine ⟨u, ?_, execTxdone_clears_frameReady ht hu⟩
  rw [runAll_cons_next h, runAll_cons_next hdone]
  rfl

theorem runAll_send_or_xfer_clears {i : Instr} {s : State} {dest cmd : Byte} {p : List Byte} {hasBuf : Bool} {cap : Byte}
    (hi : i = .send dest cmd p ∨ i = .xfer dest cmd p hasBuf cap) (hs : s.tstate = .idle) (ho : s.sendOpen = false)
    (hc : canSend s) (hp : p.length < 64) (ok : Bool) (now : U32) :
    ∃ u, runAll [i, .txdone ok now] s = .next u ∧ u.frameReady = false := by
  rcases hi with rfl | rfl
  · exact runAll_txdone_clears (exec_send_of_idle hs ho dest cmd p)
      (sendHalf_tstate (s := s.latchSend dest cmd) hc hp) ok now
  · exact runAll_txdone_clears (exec_xfer_of_idle hs dest cmd p hasBuf cap)
      (sendHalf_tstate (s := s.latchXfer dest cmd hasBuf cap) hc hp) ok now

/-- Settles O48: the mismatch keeps the frame, which blocks the decoder until a transmit is answered. -/
theorem checksumMismatchIsSticky : Obligations.ChecksumMismatchIsSticky := by
  intro dest cmd timeoutMs hasBuf cap now0 now1 s p hs hnow hdelay hr hp hc
  obtain ⟨t, hrun, hidle, hres, ⟨hbuf, hd, hrem, hready⟩, hopen, hcons⟩ :=
    runAll_recv_poll_mismatch hs (hasClock_iff.2 ⟨hnow, hdelay⟩) hr hp hc dest cmd timeoutMs hasBuf cap now0 now1
  refine ⟨t, hrun, hidle, hres, ⟨hbuf, hd, hrem, hready⟩, fun bs => feedAll_pending bs (hready.trans hr), ?_⟩
  intro i dest' cmd' q hasBuf' cap' ok now2 hsend hq hi
  have hcan : canSend t := by rw [canSend, hcons]; exact ⟨hsend, hnow, hdelay⟩
  exact runAll_send_or_xfer_clears hi hidle hopen hcan hq ok now2

/-! ### `XFER` against `SEND` and `RECV` (43_transaction.md R163)

The two receive halves wait in states that differ in what belongs to the operation: its kind, the strobes and result of the
`SEND`, the mark it leaves. The decoder reads none of it, and the end of a receive overwrites all but the kind and the strobes. -/

/-- `s` with the fields of `o` that tell one operation's receive half from another's. -/
def State.inOperation (s o : State) : State :=
  { s with
    tKind := o.tKind, strobes := o.strobes, result := o.result, resultWritten := o.resultWritten, sendOpen := o.sendOpen }

/-- `s` ended with the kind and the strobes of the operation of `o`. -/
def State.endedIn (s o : State) : State := { s with tKind := o.tKind, strobes := { o.strobes with done := true } }

@[simp] theorem State.inOperation_frameReady (s o : State) : (s.inOperation o).frameReady = s.frameReady := rfl
@[simp] theorem State.inOperation_dstate (s o : State) : (s.inOperation o).dstate = s.dstate := rfl

theorem raiseRecv_inOperation (s o : State) (x : Result) : (s.inOperation o).raiseRecv x = (s.raiseRecv x).endedIn o := rfl

theorem deliver_inOperation (s o : State) (p : List Byte) : (s.inOperation o).deliver p = (s.deliver p).inOperation o := by
  rw [deliver_eq, deliver_eq]
  rfl

theorem feedDataByte_inOperation {s t : State} {b : Byte} (h : s.feedDataByte b = .next t) (o : State) :
    (s.inOperation o).feedDataByte b = .next (t.inOperation o) := by
  obtain ⟨he, rfl⟩ := feedDataByte_next h
  exact if_pos he

theorem feedChkByte_inOperation (s o : State) (b : Byte) :
    (s.inOperation o).feedChkByte b = (s.feedChkByte b).inOperation o := by
  rw [feedChkByte_eq, feedChkByte_eq]
  rfl

/-- `FEED` reads and writes nothing of the operation (42_frame_decoder.md R110 to R120). -/
theorem execFeed_inOperation {s t : State} {b : Byte} (h : execFeed b s = .next t) (o : State) :
    execFeed b (s.inOperation o) = .next (t.inOperation o) := by
  cases hr : s.frameReady with
  | true =>
    cases (execFeed_pending b hr).symm.trans h
    exact execFeed_pending (s := s.inOperation o) b hr
  | false =>
    simp only [execFeed, State.inOperation_frameReady, State.inOperation_dstate, hr, Bool.false_eq_true, if_false] at h ⊢
    cases hd : s.dstate <;> simp only [hd] at h ⊢
    case data => exact feedDataByte_inOperation h o
    case chk =>
      cases h
      rw [feedChkByte_inOperation]
    case dest | src | cmd =>
      cases h
      rfl
    case sync0 | sync1 | len =>
      cases h
      split_ifs <;> rfl

theorem feedAll_inOperation {bs : List Byte} {s t : State} (h : feedAll bs s = .next t) (o : State) :
    feedAll bs (s.inOperation o) = .next (t.inOperation o) := by
  induction bs generalizing s with
  | nil =>
    cases h
    rfl
  | cons b bs ih =>
    unfold feedAll at h
    split at h
    · rename_i u hu
      rw [feedAll_cons_next (execFeed_inOperation hu o)]
      exact ih h
    · cases h
    · cases h

/-- Fed bytes leave the sequencer in its state, in the same operation (10_state.md R23, R24). -/
theorem execFeed_keeps_operation {s t : State} {b : Byte} (h : execFeed b s = .next t) :
    t.tstate = s.tstate ∧ t.tKind = s.tKind := by
  have heffect : Effect (.feed b) s t := feed_effect rfl h
  cases heffect with
  | dataByte b' _ _ _ _ ht =>
    obtain ⟨-, rfl⟩ := feedDataByte_next ht
    exact ⟨rfl, rfl⟩
  | chkByte b' =>
    rw [feedChkByte_eq]
    exact ⟨rfl, rfl⟩
  | hostFails _ _ _ _ _ _ _ _ _ _ hi | transmits _ _ _ _ _ _ _ _ _ _ hi | recvFails hi | recvStarts _ _ _ _ _ _ hi
  | deviceError _ hi | setsTimeout _ hi | resets hi | txFails _ hi | txEndsSend _ hi | txStartsReceive _ hi | timesOut _ hi
  | waitsOn _ hi | mismatch _ _ hi | unmatched _ _ _ hi | accepted _ _ _ _ hi => cases hi
  | _ => exact ⟨rfl, rfl⟩

theorem feedAll_keeps_operation {bs : List Byte} {s t : State} (h : feedAll bs s = .next t) :
    t.tstate = s.tstate ∧ t.tKind = s.tKind := by
  induction bs generalizing s with
  | nil =>
    cases h
    exact ⟨rfl, rfl⟩
  | cons b bs ih =>
    unfold feedAll at h
    split at h
    · rename_i u hu
      obtain ⟨hs, hk⟩ := execFeed_keeps_operation hu
      obtain ⟨hs', hk'⟩ := ih h
      exact ⟨hs'.trans hs, hk'.trans hk⟩
    · cases h
    · cases h

/-- Checks (c) to (e) and the success arm look at the kind only to tell a `CAT` (43_transaction.md R158 to R161). -/
theorem matchResponse_inOperation {s t o : State} {p : List Byte} (hk : s.tKind ≠ .cat) (hko : o.tKind ≠ .cat)
    (h : s.matchResponse p = .next t) : (s.inOperation o).matchResponse p = .next (t.endedIn o) := by
  unfold State.matchResponse at h ⊢
  split_ifs at h with haddr hcmd hcap
  · cases h
    exact if_pos haddr
  · cases h
    exact (if_neg haddr).trans (if_pos hcmd)
  · cases h
    exact (if_neg haddr).trans ((if_neg hcmd).trans (if_pos hcap))
  · cases (successArm_of_not_cat hk p).symm.trans h
    refine (if_neg haddr).trans ((if_neg hcmd).trans ((if_neg hcap).trans ?_))
    rw [successArm_of_not_cat (s := s.inOperation o) hko, deliver_inOperation]
    rfl

/-- A `POLL` on a pending frame ends both receive halves alike (43_transaction.md R155). -/
theorem complete_inOperation {s t o : State} (hk : s.tKind ≠ .cat) (hko : o.tKind ≠ .cat) (h : s.complete = .next t) :
    (s.inOperation o).complete = .next (t.endedIn o) := by
  unfold State.complete at h
  split at h
  · cases h
  · rename_i p hp
    have heq : (s.inOperation o).complete = if chkOk s p = false then .next ((s.inOperation o).raiseRecv .checksumMismatch)
        else if errBit s.rxCmd then .next (s.inOperation o).errorArm else (s.inOperation o).matchResponse p := by
      unfold State.complete
      rw [show memRead (s.inOperation o).rxPayload 0 (s.inOperation o).rxLen.toNat = some p from hp]
      rfl
    rw [heq]
    split_ifs at h ⊢
    · cases h
      rw [raiseRecv_inOperation]
    · cases h
      rfl
    · exact matchResponse_inOperation hk hko h

theorem timeCheck_inOperation (s o : State) (now : U32) :
    (s.inOperation o).timeCheck now =
      if s.timedOut now then ({ s with dstate := s.init }.raiseRecv .timeout).endedIn o
      else (s.inOperation o).requestDelay now := rfl

/-- One `POLL` of the two receive halves: both wait on, or both end, and then alike (43_transaction.md R152 to R161). -/
theorem execPoll_inOperation {s t o : State} {now : U32} (hs : s.tstate = .wait) (hk : s.tKind ≠ .cat)
    (hko : o.tKind ≠ .cat) (h : execPoll now s = .next t) :
    ∃ u, execPoll now (s.inOperation o) = .next u ∧ u.tstate = t.tstate ∧
      (t.tstate = .idle → u = { t with tKind := o.tKind, strobes := u.strobes }) := by
  unfold execPoll at h
  split_ifs at h with he hr
  · exact ⟨t.endedIn o, (if_pos he).trans ((if_pos hr).trans (complete_inOperation hk hko h)), rfl, fun _ => rfl⟩
  · cases h
    refine ⟨(s.inOperation o).timeCheck now, (if_pos he).trans (if_neg hr), ?_⟩
    rw [timeCheck_inOperation]
    unfold State.timeCheck
    split
    · exact ⟨rfl, fun _ => rfl⟩
    · exact ⟨rfl, fun hidle => absurd (hs.symm.trans hidle) nofun⟩
  · cases h
    exact ⟨s.inOperation o, if_neg he, rfl, fun hidle => absurd (hs.symm.trans hidle) nofun⟩

/-- The state in which an `XFER` waits for its response. -/
def State.xferWaiting (s : State) (dest cmd : Byte) (p : List Byte) (hasBuf : Bool) (cap : Byte) (now : U32) : State :=
  ((s.latchXfer dest cmd hasBuf cap).transmit dest (wireFrame s.cons dest cmd p)).clearReady.startReceive s.cfgTimeoutMs now

/-- The state after a `SEND` that ended in `Success`. -/
def State.sent (s : State) (dest cmd : Byte) (p : List Byte) : State :=
  { ((s.latchSend dest cmd).transmit dest (wireFrame s.cons dest cmd p)).clearReady.raise .success with sendOpen := true }

/-- The state in which the `RECV` after a `SEND` waits for the response. -/
def State.sendRecvWaiting (s : State) (dest cmd : Byte) (p : List Byte) (hasBuf : Bool) (cap : Byte) (now : U32) : State :=
  ((s.sent dest cmd p).latchRecv dest cmd hasBuf cap).startReceive s.cfgTimeoutMs now

theorem xferWaiting_eq (s : State) (dest cmd : Byte) (p : List Byte) (hasBuf : Bool) (cap : Byte) (now : U32) :
    s.xferWaiting dest cmd p hasBuf cap now =
      (s.sendRecvWaiting dest cmd p hasBuf cap now).inOperation (s.xferWaiting dest cmd p hasBuf cap now) := by
  cases s
  rfl

section
variable {s : State} {p : List Byte} (hs : s.tstate = .idle) (hc : canSend s) (hp : p.length < 64)
include hs hc hp

theorem exec_xfer_transmits (dest cmd : Byte) (hasBuf : Bool) (cap : Byte) :
    exec (.xfer dest cmd p hasBuf cap) s =
      .next ((s.latchXfer dest cmd hasBuf cap).transmit dest (wireFrame s.cons dest cmd p)) := by
  rw [exec_xfer_of_idle hs, sendHalf_transmits (s := s.latchXfer dest cmd hasBuf cap) hc hp]
  rfl

theorem exec_send_transmits (ho : s.sendOpen = false) (dest cmd : Byte) :
    exec (.send dest cmd p) s = .next ((s.latchSend dest cmd).transmit dest (wireFrame s.cons dest cmd p)) := by
  rw [exec_send_of_idle hs ho, sendHalf_transmits (s := s.latchSend dest cmd) hc hp]
  rfl

theorem runAll_xfer_waiting (dest cmd : Byte) (hasBuf : Bool) (cap : Byte) (now : U32) :
    runAll [.xfer dest cmd p hasBuf cap, .txdone true now] s = .next (s.xferWaiting dest cmd p hasBuf cap now) := by
  have hdone : exec (.txdone true now) ((s.latchXfer dest cmd hasBuf cap).transmit dest (wireFrame s.cons dest cmd p)) =
      .next (s.xferWaiting dest cmd p hasBuf cap now) := exec_txdone_starts_receive rfl (by simp) now
  rw [runAll_cons_next (exec_xfer_transmits hs hc hp dest cmd hasBuf cap), runAll_cons_next hdone]
  rfl

theorem runAll_send_recv_waiting (ho : s.sendOpen = false) (dest cmd : Byte) (hasBuf : Bool) (cap : Byte) (now : U32) :
    runAll [.send dest cmd p, .txdone true now, .recv dest cmd s.cfgTimeoutMs hasBuf cap now] s =
      .next (s.sendRecvWaiting dest cmd p hasBuf cap now) := by
  have hdone : exec (.txdone true now) ((s.latchSend dest cmd).transmit dest (wireFrame s.cons dest cmd p)) =
      .next (s.sent dest cmd p) := exec_txdone_ends_send rfl rfl now
  have hrecv : exec (.recv dest cmd s.cfgTimeoutMs hasBuf cap now) (s.sent dest cmd p) =
      .next (s.sendRecvWaiting dest cmd p hasBuf cap now) :=
    exec_recv_of_clock (s := s.sent dest cmd p) rfl (hasClock_iff.2 hc.2) dest cmd s.cfgTimeoutMs hasBuf cap now
  rw [runAll_cons_next (exec_send_transmits hs hc hp ho dest cmd), runAll_cons_next hdone, runAll_cons_next hrecv]
  rfl

/-- Where the transmit fails an `XFER` ends as a `SEND` does (43_transaction.md R146, R163). -/
theorem runAll_transmit_fails (ho : s.sendOpen = false) (dest cmd : Byte) (hasBuf : Bool) (cap : Byte) (now : U32) :
    ∃ b, runAll [.send dest cmd p, .txdone false now] s = .next b ∧
      runAll [.xfer dest cmd p hasBuf cap, .txdone false now] s =
        .next { b with tKind := .xfer, tHasBuf := hasBuf, tCap := cap } := by
  rw [runAll_cons_next (exec_send_transmits hs hc hp ho dest cmd),
    runAll_cons_next (exec_xfer_transmits hs hc hp dest cmd hasBuf cap), runAll_cons_next (exec_txdone_failed rfl now),
    runAll_cons_next (exec_txdone_failed rfl now)]
  exact ⟨_, rfl, rfl⟩

end

theorem runAll_then_feed_then_poll {is : List Instr} {bs : List Byte} {now : U32} {s u m t : State}
    (his : runAll is s = .next u) (hbs : feedAll bs u = .next m) (hpoll : exec (.poll now) m = .next t) :
    runAll (is ++ bs.map .feed ++ [.poll now]) s = .next t := by
  have hfeed : runAll (bs.map .feed) u = .next m := (runAll_feed bs u).trans hbs
  rw [List.append_assoc, runAll_append his, runAll_append hfeed, runAll_cons_next hpoll]
  rfl

theorem State.Inv.after_runAll {is : List Instr} {s t : State} (h : s.Inv) (hrun : runAll is s = .next t) : t.Inv := by
  induction is generalizing s with
  | nil =>
    cases hrun
    exact h
  | cons i is ih =>
    unfold runAll at hrun
    split at hrun
    · rename_i u hu
      exact ih (exec_keeps_inv h hu) hrun
    · cases hrun
    · cases hrun

/-- Where the invariant holds every byte of a run of bytes is taken (42_frame_decoder.md R119). -/
theorem State.Inv.feedAll_answers {s : State} (h : s.Inv) (bs : List Byte) : ∃ t, feedAll bs s = .next t ∧ t.Inv := by
  induction bs generalizing s with
  | nil => exact ⟨s, rfl, h⟩
  | cons b bs ih =>
    obtain ⟨u, hu⟩ := h.feed_answers b
    rw [feedAll_cons_next hu]
    exact ih (exec_keeps_inv (i := .feed b) h hu)

/-- Settles O50: the two receive halves wait in states that differ in their operation only; the bytes and the `POLL` do the same
in both. -/
theorem xferIsSendThenRecv : Obligations.XferIsSendThenRecv := by
  intro s dest cmd p hasBuf cap t0 t1 bs hinv hs ho hc hp
  refine ⟨?answered, runAll_transmit_fails hs hc hp ho dest cmd hasBuf cap t0⟩
  have hxfer := runAll_xfer_waiting hs hc hp dest cmd hasBuf cap t0
  have hsend := runAll_send_recv_waiting hs hc hp ho dest cmd hasBuf cap t0
  obtain ⟨m, hm, hminv⟩ := (hinv.after_runAll hsend).feedAll_answers bs
  obtain ⟨b, hb⟩ := hminv.poll_answers t1
  obtain ⟨hwait, hkind⟩ := feedAll_keeps_operation hm
  obtain ⟨a, ha, hend⟩ := execPoll_inOperation (o := s.xferWaiting dest cmd p hasBuf cap t0) hwait (hkind ▸ nofun) nofun hb
  rw [xferWaiting_eq] at hxfer
  exact ⟨a, b, runAll_then_feed_then_poll hxfer (feedAll_inOperation hm _) ha, runAll_then_feed_then_poll hsend hm hb, hend⟩

end Sys2Proof.Machine

/-! Proofs about the catalogue (44_command_catalogue.md): unpacking what was packed, a `CAT` and its failures, the structural
checks of its response, and the repeated unit. -/

namespace Sys2Proof.Machine

/-! ### Unpacking what packing wrote (R181, R182) -/

theorem flagAt_append {r : List Byte} {p : Nat} (h : p / 8 < r.length) (q : List Byte) : flagAt (r ++ q) p = flagAt r p := by
  rw [flagAt, flagAt, List.getElem?_append_left h]

/-- A field of fixed size takes its bytes from the front and leaves those after them. -/
theorem unpackField_append_of_size {f : FieldType} (hf : f ≠ .rest) (hok : f.flagsOk = true) {r : List Byte}
    (hr : r.length = fieldSize f) : ∃ v, ∀ q, unpackField f (r ++ q) = some (v, q) := by
  cases f with
  | rest => exact absurd rfl hf
  | u8 =>
    obtain ⟨b, rfl⟩ := List.length_eq_one_iff.1 hr
    exact ⟨_, fun _ => rfl⟩
  | u16le | i16le =>
    obtain ⟨lo, hi, rfl⟩ := List.length_eq_two.1 hr
    exact ⟨_, fun _ => rfl⟩
  | b32le =>
    obtain ⟨b0, b1, b2, b3, rfl⟩ := List.length_eq_four.1 hr
    exact ⟨_, fun _ => rfl⟩
  | bytes n =>
    obtain rfl : r.length = n := hr
    refine ⟨.bytes r, fun q => ?_⟩
    rw [unpackField, if_pos (by simp), List.take_left, List.drop_left]
  | flags n ps =>
    obtain rfl : r.length = n := hr
    obtain ⟨-, hlt, -⟩ := flagsOk_iff.1 hok
    have hflags (q : List Byte) : ps.map (flagAt (r ++ q)) = ps.map (flagAt r) :=
      List.map_congr_left fun p hp => flagAt_append (Nat.div_lt_of_lt_mul (hlt p hp)) q
    refine ⟨.flags (ps.map (flagAt r)), fun q => ?_⟩
    rw [unpackField, if_pos (by simp), hflags, List.drop_left]

theorem byteOf_toNat (v : U32) (k : Nat) : (byteOf v k).toNat = v.toNat / 2 ^ (8 * k) % 256 := by
  rw [byteOf_eq, BitVec.toNat_ofNat]

/-- The flags of a field are read at the bits where packing put them (log 44). -/
theorem map_flagAt_packField (k : Nat) {n : Nat} {ps : List Nat} {b : List Bool} (hok : (FieldType.flags n ps).flagsOk = true)
    (hlen : ps.length ≤ b.length) : ps.map (flagAt (packField k (.flags n ps) (some (.flags b)))) = b.take ps.length := by
  obtain ⟨-, hlt, hnodup⟩ := flagsOk_iff.1 hok
  refine List.ext_getElem (by simp [hlen]) fun i hi hi' => ?_
  rw [List.length_map] at hi
  have hbyte : ps[i] / 8 < n := Nat.div_lt_of_lt_mul (hlt _ (List.getElem_mem hi))
  rw [List.getElem_map, List.getElem_take, flagAt_of_getElem? (packField_flags_getElem? k ps b hbyte)]
  exact flagByte_getLsbD_of_flag k hnodup (List.getElem?_eq_getElem hi) (List.getElem?_eq_getElem (hi.trans_le hlen))

/-- The bytes a field makes of an argument that fits it read back as the value its type delivers (30_encoding.md R66). -/
theorem unpackField_packField (k : Nat) {f : FieldType} {a : Arg} {v : Value} (hok : f.flagsOk = true)
    (hv : fieldValue f a = some v) : unpackField f (packField k f (some a)) = some (v, []) := by
  match f, a, hv with
  | .u8, .num x, rfl => simp [packField, unpackField, byteOf_toNat]
  | .u16le, .num x, rfl =>
    simp only [packField, unpackField, int16_unsigned, byteOf_toNat]
    congr 3
    omega
  | .i16le, .num x, rfl =>
    simp only [packField, unpackField, int16_signed, byteOf_toNat]
    congr 3
    split <;> split <;> omega
  | .b32le, .num x, rfl => simp only [packField, bytes32, unpackField, le32_byteOf]
  | .bytes n, .bytes b, hv =>
    obtain ⟨hn, hv⟩ := Option.ite_none_right_eq_some.1 hv
    cases hv
    simp [packField_bytes_of_le k hn, unpackField, hn]
  | .rest, .bytes b, rfl => rfl
  | .flags n ps, .flags b, hv =>
    obtain ⟨hlen, hv⟩ := Option.ite_none_right_eq_some.1 hv
    cases hv
    have hsize : (packField k (.flags n ps) (some (.flags b))).length = n := packField_length k (f := .flags n ps) nofun _
    rw [unpackField, if_pos hsize.ge, map_flagAt_packField k hok hlen, List.drop_eq_nil_of_le hsize.le]

/-- The variable-length field has no field behind it. -/
theorem restLast_cons {f : FieldType} {fs : List FieldType} (h : restLast (f :: fs) = true) :
    restLast fs = true ∧ (f = .rest → fs = []) := by
  cases fs with
  | nil => exact ⟨rfl, fun _ => rfl⟩
  | cons g gs =>
    obtain ⟨hf, hgs⟩ := Bool.and_eq_true_iff.1 h
    exact ⟨hgs, fun hr => absurd hr (bne_iff_ne.1 hf)⟩

/-- The first field of a packed payload takes the bytes packed for it, whatever they carry, and an argument that fits it is
read back. -/
theorem unpackField_pack {f : FieldType} {fs : List FieldType} (hlast : f = .rest → fs = []) (hok : f.flagsOk = true)
    (k l : Nat) (a : Option Arg) (as : List Arg) :
    ∃ v, unpackField f (packField k f a ++ pack l fs as) = some (v, pack l fs as) ∧
      ∀ x w, a = some x → fieldValue f x = some w → v = w := by
  have hread (q : List Byte) (v : Value) (h : unpackField f (packField k f a ++ []) = some (v, q)) :
      ∀ x w, a = some x → fieldValue f x = some w → v = w := by
    rintro x w rfl hw
    rw [List.append_nil, unpackField_packField k hok hw] at h
    cases h
    rfl
  by_cases hf : f = .rest
  · obtain rfl := hlast hf
    subst hf
    exact ⟨_, rfl, hread _ _ rfl⟩
  · obtain ⟨v, hv⟩ := unpackField_append_of_size hf hok (packField_length k hf a)
    exact ⟨v, hv _, hread _ v (hv [])⟩

/-- Settles O57: field by field; each takes the bytes packed for it and leaves those of the fields behind it. -/
theorem unpackReadsBackWhatPackWrote : Obligations.UnpackReadsBackWhatPackWrote := by
  intro k shape args hlast hok
  induction shape generalizing k args with
  | nil => exact ⟨[], rfl, rfl, nofun⟩
  | cons f fs ih =>
    obtain ⟨hfs, hrest⟩ := restLast_cons hlast
    obtain ⟨hf, hoks⟩ := Bool.and_eq_true_iff.1 hok
    obtain ⟨v, hv, hvalue⟩ := unpackField_pack hrest hf k (k + fieldDraws f args.head?) args.head? args.tail
    obtain ⟨vs, hvs, hlen, hvalues⟩ := ih (k + fieldDraws f args.head?) args.tail hfs hoks
    refine ⟨v :: vs, unpack_cons hv hvs, congrArg Nat.succ hlen, fun j g a w hg ha hw => ?_⟩
    cases j with
    | zero =>
      cases hg
      exact congrArg some (hvalue a w (List.head?_eq_getElem?.trans ha) hw)
    | succ j => exact hvalues j g a w hg (List.getElem?_tail.trans ha) hw

/-! ### The repeated unit (R185) -/

/-- Both readings of a 16-bit value, low byte first (30_encoding.md R66). -/
theorem int16_eq (signed : Bool) (lo hi : Byte) :
    int16 signed lo hi = lo.toNat + 256 * hi.toNat - (if signed = true ∧ 128 ≤ hi.toNat then 65536 else 0) := by
  cases signed with
  | false => simp [int16_unsigned]
  | true => simp [int16_signed]

theorem unitsOf_of_short (ts cs : Bool) {r : List Byte} (h : ∀ b0 b1 b2 b3 q, r = b0 :: b1 :: b2 :: b3 :: q → False) :
    unitsOf ts cs r = [] ∧ r.length < 4 := by
  rcases r with _ | ⟨b0, _ | ⟨b1, _ | ⟨b2, _ | ⟨b3, q⟩⟩⟩⟩
  case cons.cons.cons.cons => exact (h b0 b1 b2 b3 q rfl).elim
  all_goals exact ⟨rfl, by simp⟩

theorem unitsOf_length (ts cs : Bool) (r : List Byte) : (unitsOf ts cs r).length = r.length / 4 := by
  induction r using unitsOf.induct with
  | case1 b0 b1 b2 b3 r ih => simp only [unitsOf, List.length_cons, ih]; omega
  | case2 r h =>
    obtain ⟨hnil, hlen⟩ := unitsOf_of_short ts cs h
    rw [hnil, Nat.div_eq_of_lt hlen, List.length_nil]

theorem unitsOf_getElem? (ts cs : Bool) {r : List Byte} {k : Nat} {b0 b1 b2 b3 : Byte} (h0 : r[4 * k]? = some b0)
    (h1 : r[4 * k + 1]? = some b1) (h2 : r[4 * k + 2]? = some b2) (h3 : r[4 * k + 3]? = some b3) :
    (unitsOf ts cs r)[k]? = some (int16 ts b0 b1, int16 cs b2 b3) := by
  induction r using unitsOf.induct generalizing k with
  | case1 c0 c1 c2 c3 r ih =>
    cases k with
    | zero =>
      cases h0; cases h1; cases h2; cases h3
      rfl
    | succ k => exact ih h0 h1 h2 h3
  | case2 r h =>
    obtain ⟨-, hlen⟩ := unitsOf_of_short ts cs h
    obtain ⟨hk, -⟩ := List.getElem?_eq_some_iff.1 h3
    omega

/-- Settles O55: unit by unit, four bytes each. -/
theorem unitsAreFourBytesTargetThenCurrent : Obligations.UnitsAreFourBytesTargetThenCurrent :=
  fun ts cs r => ⟨unitsOf_length ts cs r, fun _ b0 b1 b2 b3 h0 h1 h2 h3 =>
    ⟨_, _, unitsOf_getElem? ts cs h0 h1 h2 h3, int16_eq ts b0 b1, int16_eq cs b2 b3⟩⟩

/-! ### `PACK` and `UNPACK` as rows (30_encoding.md R80) -/

theorem exec_unpack_of_written {s : State} {r : List Byte} (hw : s.respWritten = true)
    (hr : memRead s.respBuf 0 s.respLen.toNat = some r) (shape : List FieldType) :
    exec (.unpack shape) s = .next { s with fnOut := some (unpackOut shape r) } := by
  change execUnpack shape s = _
  simp only [execUnpack, if_pos hw, hr]

theorem exec_unpack_of_not_written {s : State} (hw : s.respWritten = false) (shape : List FieldType) :
    exec (.unpack shape) s =
      .next { s with fnOut := some (unpackOut shape s.freeResponse), freeCtr := s.freeCtr + 1 + maxPayload } :=
  if_neg (Bool.eq_false_iff.1 hw)

/-- Settles O58: with a response written `UNPACK` reads it, without one it draws a length and bytes. -/
theorem packAndUnpackRowsDeliverTheirValues : Obligations.PackAndUnpackRowsDeliverTheirValues := by
  refine ⟨fun shape args s => rfl, fun shape s => ⟨fun r hw hr => ?_, fun hw => ?_⟩⟩
  · rw [exec_unpack_of_written hw hr, unpackOut]
    exact ⟨fun vs h => by rw [h], fun h => by rw [h]⟩
  · exact ⟨_, _, exec_unpack_of_not_written hw shape, by omega⟩

/-! ### The request of a catalogue operation (R186, R190, R191) -/

/-- The state a catalogue operation latches on acceptance, its request packed (43_transaction.md R140; log 16). -/
def State.catAccepted (s : State) (d : Descriptor) (desc dest motorCap : Byte) (args : List Arg) : State :=
  (s.drawn (packDraws d.req args)).latchCat desc dest d ((pack s.freeCtr d.req args).headD 0) motorCap

/-- `CAT` and the two rows are the send half of an `XFER` with the packed request (log 24). -/
theorem exec_catalogue_of_idle {i : Instr} {s : State} {d : Descriptor} {desc dest motorCap : Byte} {args : List Arg}
    (hi : catalogueOf i = some (desc, dest, motorCap, args)) (hd : lookupDescriptor s.cons desc = some d)
    (hs : s.tstate = .idle) :
    exec i s = .next ((s.catAccepted d desc dest motorCap args).sendHalf dest d.cmd (pack s.freeCtr d.req args)) := by
  have hstart : exec i s = whenIdle s (s.startCat desc dest motorCap args) := by
    cases i <;> cases hi <;> rfl
  rw [hstart, whenIdle_idle hs, State.startCat]
  simp only [hd]
  rfl

/-- Settles O51: the send half on the latched operands of a `CAT`. -/
theorem catPacksItsArgumentsAndSends : Obligations.CatPacksItsArgumentsAndSends :=
  fun _ _ _ _ _ _ hs hc hd hp => requested_of_sendHalf (exec_catalogue_of_idle rfl hd hs) hc hp

/-- Settles O52: a catalogue operation fails as its send half does. -/
theorem catalogueOperationsFailAsSendDoes : Obligations.CatalogueOperationsFailAsSendDoes :=
  fun _ _ _ _ _ _ _ hi hd hs => fails_of_sendHalf (exec_catalogue_of_idle hi hd hs)

theorem lookupDescriptor_version (c : Construction) : lookupDescriptor c versionIndex = some versionDescriptor := rfl

theorem lookupDescriptor_custom (c : Construction) : lookupDescriptor c customIndex = some customDescriptor := rfl

/-- Opaque bytes are packed as they are (R191; log 17). -/
theorem pack_custom (k : Nat) (p : List Byte) : pack k customDescriptor.req [.bytes p] = p := List.append_nil p

/-- Settles O53: the two rows are `CAT` of the two descriptors the spec fixes; neither draws a free value. -/
theorem versionAndCustomRequestsGoOut : Obligations.VersionAndCustomRequestsGoOut := by
  refine fun dest s hs hc => ⟨?version, fun p hp => ?custom⟩
  case version =>
    exact requested_of_sendHalf (exec_catalogue_of_idle rfl (lookupDescriptor_version s.cons) hs) hc (Nat.zero_lt_succ 63)
  case custom =>
    have hexec := exec_catalogue_of_idle (i := .custom dest p) rfl (lookupDescriptor_custom s.cons) hs
    rw [State.catAccepted, pack_custom] at hexec
    exact requested_of_sendHalf hexec hc hp

/-! ### The end of a `CAT` (R184 to R186) -/

theorem memRead_deliver {s : State} {p : List Byte} (hb : s.tHasBuf = true) (hl : p.length = s.rxLen.toNat)
    (h64 : p.length ≤ 64) : memRead (s.deliver p).respBuf 0 (s.deliver p).respLen.toNat = some p := by
  obtain ⟨-, hlen, -⟩ := deliver_responseCopied hb hl.symm h64
  rw [hlen, State.deliver, if_pos hb]
  exact memRead_memWrite s.respBuf 0 p

/-- The end of a `CAT` with its response delivered to `t`: the frame consumed, and the outputs where there are any. -/
def State.catEnd (t : State) : Except Result CatOut → State
  | .error x => { endOfRecv t x with frameReady := false }
  | .ok out => { endOfRecv t .success with frameReady := false, catOut := some out }

theorem catEnd_is_end (t : State) (o : Except Result CatOut) :
    (t.catEnd o).tstate = .idle ∧ (t.catEnd o).frameReady = false := by
  cases o <;> exact ⟨rfl, rfl⟩

theorem finishCat_of_response {t : State} {d : Descriptor} {p : List Byte} (hd : lookupDescriptor t.cons t.tDesc = some d)
    (hp : memRead t.respBuf 0 t.respLen.toNat = some p) :
    t.clearReady.finishCat = .next (t.catEnd (catOutcome d t.tArg0 t.tMotorCap p)) := by
  rw [finishCat_eq (s := t.clearReady) hd hp, State.clearReady_tArg0, State.clearReady_tMotorCap]
  cases catOutcome d t.tArg0 t.tMotorCap p <;> rfl

/-- What the end of a `CAT` looks at beside the response is not touched by its delivery. -/
theorem deliver_keeps_catalogue (s : State) (p : List Byte) :
    (s.deliver p).cons = s.cons ∧ (s.deliver p).tDesc = s.tDesc ∧ (s.deliver p).tArg0 = s.tArg0 ∧
      (s.deliver p).tMotorCap = s.tMotorCap ∧ (s.deliver p).catOut = s.catOut := by
  rw [deliver_eq]
  exact ⟨rfl, rfl, rfl, rfl, rfl⟩

/-- A `POLL` on an accepted response of a `CAT` copies the payload and ends as the structural checks say. -/
theorem exec_poll_of_cat {now : U32} {d : Descriptor} {s : State} {p : List Byte} (he : pollEnabled s now = true)
    (hg : goodFramePending s p) (ha : responseAccepted s) (h64 : p.length ≤ 64) (hk : s.tKind = .cat)
    (hb : s.tHasBuf = true) (hd : lookupDescriptor s.cons s.tDesc = some d) :
    exec (.poll now) s = .next ((s.deliver p).catEnd (catOutcome d s.tArg0 s.tMotorCap p)) := by
  obtain ⟨hcons, hdesc, harg, hcap, -⟩ := deliver_keeps_catalogue s p
  have hpoll : exec (.poll now) s = (s.deliver p).clearReady.finishCat := (poll_accepted he hg ha).trans (if_pos hk)
  rw [hpoll, ← harg, ← hcap]
  exact finishCat_of_response (by rw [hcons, hdesc, hd]) (memRead_deliver hb (goodFramePending_length hg) h64)

theorem catOutcome_of_wrong_echo {d : Descriptor} {arg0 : Byte} {p : List Byte} (he : d.echo = true)
    (hne : p.head? ≠ some arg0) (motorCap : Byte) : catOutcome d arg0 motorCap p = .error .dataInvalid :=
  if_pos (by simp [he, hne])

section
variable {d : Descriptor} {arg0 : Byte} {p : List Byte} (he : d.echo = false ∨ p.head? = some arg0)
include he

/-- The echo check of a descriptor that echoes nothing, or whose index comes back (R184). -/
theorem echo_passes : ¬ (d.echo && p.head? != some arg0) = true := by
  rcases he with h | h <;> simp [h]

theorem catOutcome_units {ts cs : Bool} (hr : d.resp = .units ts cs) (motorCap : Byte) :
    catOutcome d arg0 motorCap p =
      if motorCap.toNat < p.length / 4 then .error .sizeTooBig
      else .ok (.units (p.length / 4) ((unitsOf ts cs p).map Prod.fst) ((unitsOf ts cs p).map Prod.snd)) := by
  rw [catOutcome, if_neg (echo_passes he), hr]
  dsimp only
  rfl

theorem catOutcome_fields {fs : List FieldType} (hr : d.resp = .fields fs) (motorCap : Byte) :
    catOutcome d arg0 motorCap p = (unpack fs p).elim (.error .dataInvalid) fun vs => .ok (.values vs) := by
  rw [catOutcome, if_neg (echo_passes he), hr]
  dsimp only
  cases unpack fs p <;> rfl

end

/-- Settles O54: `POLL` ends as `catOutcome` says, which has one case for each clause. -/
theorem catEndsWithItsStructuralChecks : Obligations.CatEndsWithItsStructuralChecks := by
  intro now d s p he hg ha h64 hk hb hd
  rw [exec_poll_of_cat he hg ha h64 hk hb hd]
  refine ⟨s.deliver p, deliver_responseCopied hb (goodFramePending_length hg).symm h64, fun hecho hne => ?echo, fun hok =>
    ⟨fun ts cs hr hcap => ?tooMany, fun ts cs hr hcap => ?units, fun fs hr hnone => ?short, fun fs vs hr hvs => ?values⟩⟩
  case echo => rw [catOutcome_of_wrong_echo hecho hne]; rfl
  case tooMany => rw [catOutcome_units hok hr, if_pos hcap]; rfl
  case units => rw [catOutcome_units hok hr, if_neg (Nat.not_lt.2 hcap)]; rfl
  case short => rw [catOutcome_fields hok hr, hnone]; rfl
  case values => rw [catOutcome_fields hok hr, hvs]; rfl

theorem unpack_two_bytes (minor major : Byte) :
    unpack [.u8, .u8] [minor, major] = some [.num minor.toNat, .num major.toNat] := rfl

theorem unpack_two_bytes_of_short {p : List Byte} (h : p.length < 2) : unpack [.u8, .u8] p = none := by
  rcases p with _ | ⟨b, _ | ⟨c, q⟩⟩
  · rfl
  · rfl
  · simp at h

/-- Settles O56: the version descriptor echoes nothing and has two fields of one byte. -/
theorem versionReplyDeliversMinorAndMajor : Obligations.VersionReplyDeliversMinorAndMajor := by
  intro now s p he hg ha hk hb hdesc hcap
  have hlen : p.length ≤ 64 := by
    obtain ⟨-, -, -, hfits⟩ := ha
    have hle := hfits hb
    rw [goodFramePending_length hg]
    rw [hcap] at hle
    exact hle.trans (by decide)
  have hd : lookupDescriptor s.cons s.tDesc = some versionDescriptor := hdesc ▸ lookupDescriptor_version s.cons
  have hout := catOutcome_fields (d := versionDescriptor) (arg0 := s.tArg0) (p := p) (.inl rfl) rfl s.tMotorCap
  obtain ⟨hidle, hready⟩ := catEnd_is_end (s.deliver p) (catOutcome versionDescriptor s.tArg0 s.tMotorCap p)
  refine ⟨_, exec_poll_of_cat he hg ha hlen hk hb hd, hidle, hready, fun minor major hp => ?whole, fun hshort => ?short⟩
  case whole =>
    rw [hout, hp, unpack_two_bytes]
    exact ⟨rfl, rfl⟩
  case short =>
    obtain ⟨-, -, -, -, hcat⟩ := deliver_keeps_catalogue s p
    rw [hout, unpack_two_bytes_of_short hshort]
    exact ⟨rfl, hcat⟩

end Sys2Proof.Machine

/-! Proofs about privilege and configuration (60_exceptions.md section 6; 10_state.md section 6): one level, and one register of
the configuration that a host can write. -/

namespace Sys2Proof.Machine

/-- R165: `SET_TIMEOUT` ends in the step that accepts it, with no latch written (log 42). -/
theorem exec_setTimeout_of_idle {s : State} (hs : s.tstate = .idle) (v : U32) :
    exec (.setTimeout v) s = .next (endOfOp { s with cfgTimeoutMs := v } .success) :=
  whenIdle_idle hs

/-- `CFG_TIMEOUT_MS` is written by `SET_TIMEOUT` and by `RESET` (10_state.md R30). -/
theorem exec_cfgTimeoutMs {i : Instr} {s t : State} (h : exec i s = .next t) :
    t.cfgTimeoutMs = s.cfgTimeoutMs ∨ i = .reset ∨ ∃ v, i = .setTimeout v ∧ s.tstate = .idle ∧ t.cfgTimeoutMs = v := by
  cases exec_effect h with
  | setsTimeout v hi hs => exact .inr (.inr ⟨v, hi, hs, rfl⟩)
  | resets hi => exact .inr (.inl hi)
  | dataByte b t hi hr hd ht =>
    obtain ⟨-, rfl⟩ := feedDataByte_next ht
    exact .inl rfl
  | chkByte b =>
    rw [feedChkByte_eq]
    exact .inl rfl
  | accepted =>
    rw [deliver_eq]
    exact .inl rfl
  | _ => exact .inl rfl

/-- Settles O25: of the effects of an instruction two write `CFG_TIMEOUT_MS` and none the construction parameters. -/
theorem configurationIsImmutableButForTheTimeout : Obligations.ConfigurationIsImmutableButForTheTimeout :=
  ⟨fun v _ hs => exec_setTimeout_of_idle hs v,
    fun _ _ _ h => ⟨exec_cons h, fun hne => (exec_cfgTimeoutMs h).resolve_left hne⟩⟩

end Sys2Proof.Machine

/-! Proofs about reset and hazards (70_reset_and_hazards.md): what a construction holds, and which host operations stop. -/

namespace Sys2Proof.Machine

/-! ### Reset (R260, R261) -/

/-- Settles O30: the instance of `State.reset` is one construction among all. -/
theorem everyConstructedInstanceMeetsTheInvariant : Obligations.EveryConstructedInstanceMeetsTheInvariant :=
  ⟨construct_inv _ _, construct_inv⟩

theorem exec_reset (s : State) :
    exec .reset s = .next { State.construct s.cons (fun k => Config.freeNat (s.freeCtr + k)) with
      freeCtr := s.freeCtr + State.constructDraws, inbox := s.inbox } := rfl

/-- Settles O32: what a construction fixes, `RESET` keeps; it adds only the counter of free values and the inputs. -/
theorem resetConstructsTheInstanceAgain : Obligations.ResetConstructsTheInstanceAgain := by
  refine ⟨fun s => ⟨_, exec_reset s, ?init, rfl, rfl, rfl, rfl, rfl, fun _ => ⟨rfl, rfl, rfl⟩, rfl, rfl, rfl, rfl, rfl, rfl,
    rfl, rfl⟩, rfl, rfl, rfl, rfl, rfl, rfl, rfl, rfl⟩
  case init =>
    change initialDState s.cons.proto = _
    cases s.cons.proto <;> rfl

/-! ### Which host operations stop (R270; 93_implementation_defined.md U1, U9) -/

theorem exec_send_of_open {s : State} (hs : s.tstate = .idle) (ho : s.sendOpen = true) (dest cmd : Byte) (p : List Byte) :
    exec (.send dest cmd p) s = .refused .secondSend :=
  (whenIdle_idle hs).trans (if_pos ho)

theorem startCat_of_not_in_table {s : State} {desc : Byte} (hd : lookupDescriptor s.cons desc = none)
    (dest motorCap : Byte) (args : List Arg) : s.startCat desc dest motorCap args = .refused .descriptorNotInTable := by
  simp only [State.startCat, hd]

/-- `SEND_OPEN` rises only where the answer to the transmit of a `SEND` ends it in `Success` (log 12). -/
theorem exec_sendOpen_rises {i : Instr} {s t : State} (h : exec i s = .next t) (ht : t.sendOpen = true) :
    s.sendOpen = true ∨ ((∃ now, i = .txdone true now) ∧ s.tstate = .tx ∧ s.tKind = .send) := by
  cases exec_effect h with
  | txEndsSend now hi hs hk => exact .inr ⟨⟨now, hi⟩, hs, hk⟩
  | dataByte b t hi hr hd hb =>
    obtain ⟨-, rfl⟩ := feedDataByte_next hb
    exact .inl ht
  | chkByte b =>
    rw [feedChkByte_eq] at ht
    exact .inl ht
  | recvFails | timesOut | mismatch | deviceError | unmatched | accepted | resets => cases ht
  | _ => exact .inl ht

theorem whenIdle_answers {s : State} {o : Out} (h : s.tstate = .idle → ∃ t, o = .next t) : ∃ t, whenIdle s o = .next t := by
  by_cases hs : s.tstate = .idle
  · rw [whenIdle_idle hs]
    exact h hs
  · exact ⟨s, whenIdle_busy hs⟩

theorem recv_answers (dest cmd : Byte) (timeoutMs : U32) (hasBuf : Bool) (cap : Byte) (now : U32) (s : State) :
    ∃ t, exec (.recv dest cmd timeoutMs hasBuf cap now) s = .next t := by
  refine whenIdle_answers fun _ => ?_
  dsimp only
  split <;> exact ⟨_, rfl⟩

/-- A row of the command id ranges answers for an id outside its range too: it takes no step. -/
theorem classTransaction_answers (s : State) (lo hi cmd dest : Byte) (p : List Byte) (hasBuf : Bool) (cap : Byte) :
    ∃ t, s.classTransaction lo hi cmd dest p hasBuf cap = .next t := by
  unfold State.classTransaction
  split
  · exact whenIdle_answers fun _ => ⟨_, rfl⟩
  · exact ⟨s, rfl⟩

/-- `CAT` and the two catalogue rows answer wherever the table holds the descriptor, whatever the arguments (log 15). -/
theorem catalogue_answers {i : Instr} {s : State} {desc dest motorCap : Byte} {args : List Arg}
    (hi : catalogueOf i = some (desc, dest, motorCap, args)) (hd : lookupDescriptor s.cons desc ≠ none) :
    ∃ t, exec i s = .next t := by
  obtain ⟨d, hd⟩ := Option.ne_none_iff_exists'.1 hd
  by_cases hs : s.tstate = .idle
  · exact ⟨_, exec_catalogue_of_idle hi hd hs⟩
  · exact ⟨s, by cases i <;> cases hi <;> exact whenIdle_busy hs⟩

/-- Every host operation answers but a `SEND` while `SEND_OPEN` is set and a `CAT` of a descriptor not in the table. -/
theorem hostOp_answers {i : Instr} {s : State} (hi : isHostOp i = true)
    (hsend : ∀ dest cmd p, i = .send dest cmd p → s.sendOpen = false)
    (hcat : ∀ desc dest motorCap args, i = .cat desc dest motorCap args → lookupDescriptor s.cons desc ≠ none) :
    ∃ t, exec i s = .next t := by
  cases i <;> cases hi
  case send dest cmd p =>
    exact whenIdle_answers fun _ => ⟨_, if_neg (by simp [hsend dest cmd p rfl])⟩
  case recv => exact recv_answers ..
  case xfer | setTimeout => exact whenIdle_answers fun _ => ⟨_, rfl⟩
  case cat desc dest motorCap args => exact catalogue_answers rfl (hcat desc dest motorCap args rfl)
  case getProtocolVersion => exact catalogue_answers rfl (by simp [lookupDescriptor_version])
  case custom => exact catalogue_answers rfl (by simp [lookupDescriptor_custom])
  case reservedOp5 | reservedOp6 | reservedOp7 => exact ⟨s, rfl⟩
  case classSet54 dest p hasBuf cap => exact classTransaction_answers s 0x54 0x54 0x54 dest p hasBuf cap
  case classAuxSet64 dest p hasBuf cap => exact classTransaction_answers s 0x64 0x64 0x64 dest p hasBuf cap
  all_goals exact classTransaction_answers s _ _ _ _ _ _ _

/-- Settles O35: the two refusals by name, the one writer of `SEND_OPEN`, and the answers of every other host operation. -/
theorem stopsAreExactlyTheNamedOnes : Obligations.StopsAreExactlyTheNamedOnes := by
  refine ⟨fun dest cmd p s hs ho => exec_send_of_open hs ho dest cmd p, ?opens, ?notInTable,
    fun i s hi hsend hcat => hostOp_answers hi hsend hcat⟩
  case opens =>
    intro i s t h hclosed hopen
    exact (exec_sendOpen_rises h hopen).resolve_left (by simp [hclosed])
  case notInTable =>
    intro desc dest motorCap args s hs hd
    exact (whenIdle_idle hs).trans (startCat_of_not_in_table hd dest motorCap args)

end Sys2Proof.Machine

/-! Proofs about the decoder and the encoder (30_encoding.md sections 3 and 4; 42_frame_decoder.md R121; log 25), and about
which input a step takes (00_scope.md section 5; 43_transaction.md R140). -/

namespace Sys2Proof.Machine

/-! ### What every value a reader accepts satisfies -/

/-- Whatever the reading accepts satisfies `P`. -/
def Yields {α : Type} (x : Read α) (P : α → Prop) : Prop := ∀ a r, x = .ok (a, r) → P a

theorem yields_ok {α : Type} {P : α → Prop} {a : α} {r : List Byte} (h : P a) : Yields (.ok (a, r)) P := by
  rintro _ _ ⟨⟩
  exact h

theorem yields_error {α : Type} (P : α → Prop) (e : Reject) : Yields (.error e) P := nofun

theorem yields_any {α : Type} (x : Read α) : Yields x fun _ => True := fun _ _ _ => trivial

theorem Yields.readThen {α β : Type} {x : Read α} {f : α → List Byte → Read β} {P : α → Prop} {Q : β → Prop}
    (hx : Yields x P) (hf : ∀ a r, P a → Yields (f a r) Q) : Yields (readThen x f) Q := by
  intro b r h
  obtain ⟨a, r', ha, hb⟩ := readThen_eq_ok h
  exact hf a r' (hx a r' ha) b r hb

theorem readCounted_yields (bs : List Byte) : Yields (readCounted bs) fun p => countable p = true :=
  fun _ _ => readCounted_countable

theorem readArgs_yields (bs : List Byte) :
    Yields (readCountedItems readArg bs) fun args => countable args = true ∧ args.all Arg.wf = true :=
  fun _ _ => readCountedItems_wf fun _ _ _ => readArg_wf

theorem readShape_yields (bs : List Byte) :
    Yields (readCountedItems readField bs) fun shape => countable shape = true ∧ shape.all FieldType.wf = true :=
  fun _ _ => readCountedItems_wf fun _ _ _ => readField_wf

theorem readHeader_yields (bs : List Byte) : Yields (readHeader bs) fun x => countable x.2.2 = true :=
  (yields_any _).readThen fun _ _ _ => (yields_any _).readThen fun _ _ _ =>
    (readCounted_yields _).readThen fun _ _ hp => yields_ok hp

theorem readTransaction_yields (bs : List Byte) : Yields (readTransaction bs) fun x => countable x.2.1 = true :=
  (yields_any _).readThen fun _ _ _ => (readCounted_yields _).readThen fun _ _ hp =>
    (yields_any _).readThen fun _ _ _ => (yields_any _).readThen fun _ _ _ => yields_ok hp

/-- A reader that reads `a` off the front of any bytes reads it where nothing follows. -/
theorem read_all {α : Type} {read : List Byte → Read α} {bs : List Byte} {a : α} (h : ∀ r, read (bs ++ r) = .ok (a, r)) :
    read bs = .ok (a, []) := by
  simpa using h []

theorem readArgs_encode {args : List Arg} (hc : countable args = true) (hargs : args.all Arg.wf = true) (r : List Byte) :
    readCountedItems readArg (encodeItems encodeArg args ++ r) = .ok (args, r) :=
  readCountedItems_encodeItems (fun _ r h => readArg_encodeArg r h) r hc hargs

theorem readShape_encode {shape : List FieldType} (hc : countable shape = true) (hshape : shape.all FieldType.wf = true)
    (r : List Byte) : readCountedItems readField (encodeItems encodeField shape ++ r) = .ok (shape, r) :=
  readCountedItems_encodeItems (fun _ r h => readField_encodeField r h) r hc hshape

/-! ### The FEED dispatch rows (42_frame_decoder.md R121) -/

/-- A well-formed row of a decode state is the one its byte selects there. -/
theorem feedRowOf_encode {i : Instr} {d : DState} (hi : i.port = .feedRow d) (hw : i.wf = true) :
    ∃ b, encode i = [b] ∧ feedRowOf d b = i := by
  cases i <;> cases hi
  case feedSync0Miss b | feedSync1Miss b => exact ⟨b, rfl, if_neg (bne_iff_ne.1 hw)⟩
  case feedLenAccept b =>
    obtain ⟨h1, h64⟩ := inRange_byteCount.1 hw
    exact ⟨b, rfl, feedRowOf_len_accepted h1 h64⟩
  case feedLenOver b => exact ⟨b, rfl, feedRowOf_len_over (of_decide_eq_true (Bool.and_eq_true_iff.1 hw).1)⟩
  all_goals exact ⟨_, rfl, rfl⟩

/-- The row a decode state and a byte select is one of that state, and admits the byte. -/
theorem feedRowOf_wf (d : DState) (b : Byte) : (feedRowOf d b).wf = true ∧ (feedRowOf d b).port = .feedRow d := by
  cases d
  case sync0 | sync1 =>
    unfold feedRowOf
    dsimp only
    split
    · exact ⟨rfl, rfl⟩
    · exact ⟨bne_iff_ne.2 ‹_›, rfl⟩
  case len =>
    rcases byteCount_cases b with rfl | ⟨h1, h64⟩ | hb
    · exact ⟨rfl, rfl⟩
    · rw [feedRowOf_len_accepted h1 h64]
      exact ⟨inRange_byteCount.2 ⟨h1, h64⟩, rfl⟩
    · rw [feedRowOf_len_over hb]
      exact ⟨Bool.and_eq_true_iff.2 ⟨decide_eq_true hb, decide_eq_true (Nat.le_of_lt_succ b.isLt)⟩, rfl⟩
  all_goals exact ⟨rfl, rfl⟩

/-! ### The command ids (30_encoding.md R70 to R72) -/

theorem inRange_iff {lo hi b : Byte} : inRange lo hi b = true ↔ lo.toNat ≤ b.toNat ∧ b.toNat ≤ hi.toNat := by
  simp [inRange, BitVec.ule]

/-- No exact row fixes the id, and its error bit is clear: its class decides. -/
def isClassId (cmd : Byte) : Prop := cmd ≠ 0x00 ∧ cmd ≠ 0x5F ∧ ¬ inRange 0x80 0xFF cmd = true

theorem isClassId_iff {cmd : Byte} : isClassId cmd ↔ 0 < cmd.toNat ∧ cmd.toNat < 0x80 ∧ cmd.toNat ≠ 0x5F := by
  have := cmd.isLt
  simp only [isClassId, inRange_iff, ne_eq, ← BitVec.toNat_inj, BitVec.reduceToNat]
  omega

theorem decodeCommandId_of_isClassId {cmd : Byte} (h : isClassId cmd) (bs : List Byte) :
    decodeCommandId cmd bs =
      readThen (readTransaction bs) fun x r => .ok (classRow cmd x.1 x.2.1 x.2.2.1 x.2.2.2, r) := by
  obtain ⟨h0, h5F, herr⟩ := h
  unfold decodeCommandId
  rw [if_neg herr, if_neg h0, if_neg h5F]

/-- A well-formed row of a class is the row of its command id. -/
theorem classRow_encode {i : Instr} {dest cmd : Byte} {p : List Byte} {hasBuf : Bool} {cap : Byte} (hport : i.port = .commandId)
    (hi : transactionOf i = some (dest, cmd, p, hasBuf, cap)) (hw : i.wf = true) :
    encode i = encodeTransaction cmd dest p hasBuf cap ∧ countable p = true ∧ isClassId cmd ∧
      classRow cmd dest p hasBuf cap = i := by
  cases i <;> cases hport <;> cases hi
  case classSet54 | classAuxSet64 => exact ⟨rfl, hw, isClassId_iff.2 (by decide), rfl⟩
  all_goals
    obtain ⟨hrange, hp⟩ := Bool.and_eq_true_iff.1 hw
    simp only [inRange_iff, BitVec.reduceToNat] at hrange
    refine ⟨rfl, hp, isClassId_iff.2 (by omega), ?_⟩
    simp (disch := omega) only [classRow, inRange_iff, ← BitVec.toNat_inj, BitVec.reduceToNat, if_neg, if_pos]

/-- The row of a class id is a row of the command ids, and admits the id. -/
theorem classRow_wf {cmd : Byte} (hid : isClassId cmd) {p : List Byte} (hp : countable p = true) (dest : Byte) (hasBuf : Bool)
    (cap : Byte) : (classRow cmd dest p hasBuf cap).wf = true ∧ (classRow cmd dest p hasBuf cap).port = .commandId := by
  rw [isClassId_iff] at hid
  have admits {lo hi : Byte} (h : inRange lo hi cmd = true) : (inRange lo hi cmd && countable p) = true :=
    Bool.and_eq_true_iff.2 ⟨h, hp⟩
  unfold classRow
  split_ifs with h00 h20 h24 h26 h40 h50 h54 h55 h60 h64
  · exact ⟨admits (inRange_iff.2 ⟨hid.1, (inRange_iff.1 h00).2⟩), rfl⟩
  · exact ⟨admits h20, rfl⟩
  · exact ⟨admits h24, rfl⟩
  · exact ⟨admits h26, rfl⟩
  · exact ⟨admits h40, rfl⟩
  · exact ⟨admits h50, rfl⟩
  · exact ⟨hp, rfl⟩
  · exact ⟨admits h55, rfl⟩
  · exact ⟨admits h60, rfl⟩
  · exact ⟨hp, rfl⟩
  · refine ⟨admits ?_, rfl⟩
    simp only [inRange_iff, ← BitVec.toNat_inj, BitVec.reduceToNat] at *
    omega

/-- The rows of the command ids. -/
theorem commandIdRow_cases {i : Instr} (hport : i.port = .commandId) :
    (∃ dest, i = .getProtocolVersion dest) ∨ (∃ dest p, i = .custom dest p) ∨ (∃ cmd, i = .errorResponse cmd) ∨
      ∃ dest cmd p hasBuf cap, transactionOf i = some (dest, cmd, p, hasBuf, cap) := by
  cases i <;> cases hport
  case getProtocolVersion dest => exact .inl ⟨dest, rfl⟩
  case custom dest p => exact .inr (.inl ⟨dest, p, rfl⟩)
  case errorResponse cmd => exact .inr (.inr (.inl ⟨cmd, rfl⟩))
  all_goals exact .inr (.inr (.inr ⟨_, _, _, _, _, rfl⟩))

theorem decode_encode_of_commandId {i : Instr} (hport : i.port = .commandId) (hw : i.wf = true) :
    decode .commandId (encode i) = .ok (i, []) := by
  rcases commandIdRow_cases hport with ⟨dest, rfl⟩ | ⟨dest, p, rfl⟩ | ⟨cmd, rfl⟩ | ⟨dest, cmd, p, hasBuf, cap, hi⟩
  · rfl
  · have hread : readCounted (encodeCounted p) = .ok (p, []) := read_all fun r => readCounted_encodeCounted r hw
    simp [decode, decodeCommandId, encode, inRange, hread]
  · exact if_pos hw
  · obtain ⟨henc, hp, hid, hrow⟩ := classRow_encode hport hi hw
    have hread := readTransaction_encode (dest := dest) (hasBuf := hasBuf) (cap := cap) [] hp
    rw [henc]
    simp only [decode, encodeTransaction, List.cons_append, readByte_cons, readThen_ok, decodeCommandId_of_isClassId hid, hread,
      hrow]

theorem decodeCommandId_yields (cmd : Byte) (bs : List Byte) :
    Yields (decodeCommandId cmd bs) fun i => i.wf = true ∧ i.port = .commandId := by
  unfold decodeCommandId
  split
  case isTrue herr => exact yields_ok ⟨herr, rfl⟩
  case isFalse herr =>
    split
    case isTrue => exact (yields_any _).readThen fun _ _ _ => yields_ok ⟨rfl, rfl⟩
    case isFalse h0 =>
      split
      case isTrue =>
        exact (yields_any _).readThen fun _ _ _ => (readCounted_yields _).readThen fun _ _ hp => yields_ok ⟨hp, rfl⟩
      case isFalse h5F =>
        exact (readTransaction_yields _).readThen fun (dest, _, hasBuf, cap) _ hp =>
          yields_ok (classRow_wf ⟨h0, h5F, herr⟩ hp dest hasBuf cap)

/-! ### The device error codes (30_encoding.md R73) -/

theorem deviceErrorRowOf_encode {i : Instr} (hi : i.port = .deviceError) :
    ∃ code, encode i = [code] ∧ deviceErrorRowOf code = some i := by
  cases i <;> cases hi
  all_goals exact ⟨_, rfl, rfl⟩

theorem wf_of_deviceError {i : Instr} (hi : i.port = .deviceError) : i.wf = true := by
  cases i <;> cases hi
  all_goals rfl

theorem deviceErrorRowOf_port {code : Byte} {i : Instr} (h : deviceErrorRowOf code = some i) : i.port = .deviceError := by
  unfold deviceErrorRowOf at h
  repeat' split at h
  all_goals cases h
  all_goals rfl

/-! ### The operations of the command port (30_encoding.md R80) -/

theorem decode_encode_of_command {i : Instr} (hi : i.port = .command) (hw : i.wf = true) :
    decode .command (encode i) = .ok (i, []) := by
  cases i <;> cases hi
  case send dest cmd p =>
    have hread : readHeader (dest :: cmd :: encodeCounted p) = .ok ((dest, cmd, p), []) :=
      read_all fun r => readHeader_encode r hw
    simp [decode, decodeCommand, encode, hread]
  case recv => simp [decode, decodeCommand, encode, readU32_bytes32_nil]
  case xfer dest cmd p hasBuf cap =>
    have hp : countable p = true := hw
    simp [decode, decodeCommand, encode, readHeader_encode _ hp]
  case setTimeout => simp [decode, decodeCommand, encode, readU32_bytes32_nil]
  case cat desc dest motorCap args =>
    obtain ⟨hc, hargs⟩ := Bool.and_eq_true_iff.1 hw
    simp [decode, decodeCommand, encode, read_all (readArgs_encode hc hargs)]
  all_goals rfl

theorem decodeCommand_yields (op : Byte) (bs : List Byte) :
    Yields (decodeCommand op bs) fun i => i.wf = true ∧ i.port = .command := by
  unfold decodeCommand
  repeat' split
  · exact (readHeader_yields _).readThen fun _ _ hp => yields_ok ⟨hp, rfl⟩
  · exact (yields_any _).readThen fun _ _ _ => (yields_any _).readThen fun _ _ _ => (yields_any _).readThen fun _ _ _ =>
      (yields_any _).readThen fun _ _ _ => (yields_any _).readThen fun _ _ _ => (yields_any _).readThen fun _ _ _ =>
      yields_ok ⟨rfl, rfl⟩
  · exact (readHeader_yields _).readThen fun _ _ hp => (yields_any _).readThen fun _ _ _ =>
      (yields_any _).readThen fun _ _ _ => yields_ok ⟨hp, rfl⟩
  · exact (yields_any _).readThen fun _ _ _ => yields_ok ⟨rfl, rfl⟩
  · exact (yields_any _).readThen fun _ _ _ => (yields_any _).readThen fun _ _ _ => (yields_any _).readThen fun _ _ _ =>
      (readArgs_yields _).readThen fun _ _ hargs => yields_ok ⟨Bool.and_eq_true_iff.2 hargs, rfl⟩
  · exact yields_ok ⟨rfl, rfl⟩
  · exact yields_ok ⟨rfl, rfl⟩
  · exact yields_ok ⟨rfl, rfl⟩
  · exact yields_error _ _

/-! ### The pure functions (30_encoding.md R80) -/

theorem decode_encode_of_function {i : Instr} {f : Fn} (hi : i.port = .function f) (hw : i.wf = true) :
    decode (.function f) (encode i) = .ok (i, []) := by
  cases i <;> cases hi
  case lrc | chkOk => rfl
  case encode dest cmd p =>
    have hread : readHeader (dest :: cmd :: encodeCounted p) = .ok ((dest, cmd, p), []) :=
      read_all fun r => readHeader_encode r hw
    simp [decode, decodeFunction, encode, hread]
  case pack shape args =>
    simp only [Instr.wf, Bool.and_eq_true] at hw
    obtain ⟨⟨⟨hs, hshape⟩, hc⟩, hargs⟩ := hw
    simp [decode, decodeFunction, encode, readShape_encode hs hshape, read_all (readArgs_encode hc hargs)]
  case unpack shape =>
    obtain ⟨hs, hshape⟩ := Bool.and_eq_true_iff.1 hw
    simp [decode, decodeFunction, encode, read_all (readShape_encode hs hshape)]

theorem decodeFunction_yields (f : Fn) (bs : List Byte) :
    Yields (decodeFunction f bs) fun i => i.wf = true ∧ i.port = .function f := by
  cases f with
  | lrc => exact yields_ok ⟨rfl, rfl⟩
  | chkOk => exact yields_ok ⟨rfl, rfl⟩
  | encode => exact (readHeader_yields _).readThen fun _ _ hp => yields_ok ⟨hp, rfl⟩
  | pack =>
    refine (readShape_yields _).readThen fun _ _ hshape => (readArgs_yields _).readThen fun _ _ hargs => yields_ok ⟨?_, rfl⟩
    simp [Instr.wf, hshape, hargs]
  | unpack => exact (readShape_yields _).readThen fun _ _ hshape => yields_ok ⟨Bool.and_eq_true_iff.2 hshape, rfl⟩

/-! ### The decoder and the encoder -/

/-- Settles O1, port by port: each selector chooses the instruction's own row, whose readers read its operands back. -/
theorem decodeOfEncodeIsTheInstruction : Obligations.DecodeOfEncodeIsTheInstruction := by
  intro i hw
  cases hport : i.port with
  | command => exact decode_encode_of_command hport hw
  | feedRow d =>
    obtain ⟨b, henc, hrow⟩ := feedRowOf_encode hport hw
    rw [henc, ← hrow]
    rfl
  | commandId => exact decode_encode_of_commandId hport hw
  | deviceError =>
    obtain ⟨code, henc, hrow⟩ := deviceErrorRowOf_encode hport
    simp [decode, henc, hrow]
  | function f => exact decode_encode_of_function hport hw
  | receive | transmit | poll | delay | reset =>
    cases i <;> cases hport
    all_goals simp [decode, encode, readU32_bytes32_nil]

/-- Settles O2, port by port: each reader accepts only operands its row admits. -/
theorem decodedInstructionsAreWellFormedAndAtTheirPort : Obligations.DecodedInstructionsAreWellFormedAndAtTheirPort := by
  intro port bs rest i
  suffices hy : Yields (decode port bs) fun i => i.wf = true ∧ i.port = port from hy i rest
  cases port with
  | command => exact (yields_any _).readThen fun op r _ => decodeCommand_yields op r
  | receive => exact (yields_any _).readThen fun _ _ _ => yields_ok ⟨rfl, rfl⟩
  | transmit => exact (yields_any _).readThen fun _ _ _ => (yields_any _).readThen fun _ _ _ => yields_ok ⟨rfl, rfl⟩
  | poll => exact (yields_any _).readThen fun _ _ _ => yields_ok ⟨rfl, rfl⟩
  | delay => exact yields_error _ _
  | reset => exact yields_ok ⟨rfl, rfl⟩
  | feedRow d => exact (yields_any _).readThen fun b _ _ => yields_ok (feedRowOf_wf d b)
  | commandId => exact (yields_any _).readThen fun cmd r _ => decodeCommandId_yields cmd r
  | deviceError =>
    refine (yields_any _).readThen fun code r _ => ?_
    cases hrow : deviceErrorRowOf code with
    | none => exact yields_error _ _
    | some i =>
      have hport := deviceErrorRowOf_port hrow
      exact yields_ok ⟨wf_of_deviceError hport, hport⟩
  | function f => exact decodeFunction_yields f bs

/-- Settles O3: each word evaluates to its row. -/
theorem specWordsDecodeToTheirInstructions : Obligations.SpecWordsDecodeToTheirInstructions :=
  ⟨rfl, rfl, rfl, rfl, rfl, rfl, rfl, rfl, rfl, rfl, rfl, rfl⟩

/-! ### Which input a step takes (43_transaction.md R140; log 1, log 2) -/

/-- Settles O4: the held inputs are passed over, and the next one is taken. -/
theorem stepRunsTheDecodedInput : Obligations.StepRunsTheDecodedInput := by
  intro s before after e i hin hbefore he hi
  unfold step
  rw [hin, firstTaken_append hbefore he]
  simp only [hi]
  rfl

theorem classTransaction_busy {s : State} (hs : s.tstate ≠ .idle) (lo hi cmd dest : Byte) (p : List Byte) (hasBuf : Bool)
    (cap : Byte) : s.classTransaction lo hi cmd dest p hasBuf cap = .next s := by
  unfold State.classTransaction
  rw [whenIdle_busy hs, ite_self]

theorem exec_hostOp_busy {i : Instr} {s : State} (hi : isHostOp i = true) (hs : s.tstate ≠ .idle) : exec i s = .next s := by
  cases i <;> cases hi
  case reservedOp5 | reservedOp6 | reservedOp7 => rfl
  case send | recv | xfer | setTimeout | cat | getProtocolVersion | custom => exact whenIdle_busy hs
  case classSet54 dest p hasBuf cap => exact classTransaction_busy hs 0x54 0x54 0x54 dest p hasBuf cap
  case classAuxSet64 dest p hasBuf cap => exact classTransaction_busy hs 0x64 0x64 0x64 dest p hasBuf cap
  all_goals exact classTransaction_busy hs _ _ _ _ _ _ _

theorem held_of_busy {i : Instr} {s : State} {e : Input} (hs : s.tstate ≠ .idle) (hd : e.decode = .ok i)
    (hi : isHostOp i = true) : held s e = true := by
  simp [held, hd, hi, accepts, State.cmdReady, hs]

theorem takeOther_inbox {s t : State} {e : Input} {why : Reject} (h : s.takeOther e why = .next t) : t.inbox = s.inbox := by
  unfold State.takeOther at h
  split at h <;> cases h
  unfold State.delayOver
  split <;> rfl

/-- A step takes at most one input, and leaves every held one. -/
theorem step_keeps_held {s t : State} {e : Input} (h : step s = .next t) (he : e ∈ s.inbox) (hh : held s e = true) :
    e ∈ t.inbox := by
  unfold step at h
  split at h
  case h_1 =>
    cases h
    exact he
  case h_2 rest htaken =>
    have hrest : e ∈ rest := firstTaken_held htaken he hh
    split at h
    · rwa [exec_inbox h]
    · rwa [takeOther_inbox h]

/-- Settles O5: every host operation waits for `T_IDLE`, and one presented before then is held. -/
theorem busyCommandPortAcceptsNothing : Obligations.BusyCommandPortAcceptsNothing :=
  ⟨fun _ _ hi hs => exec_hostOp_busy hi hs, fun _ _ _ _ hs he hd hi hstep => step_keeps_held hstep he (held_of_busy hs hd hi)⟩

end Sys2Proof.Machine
